-- ==== Sys2Proof/Word.lean ====
section
/-! DEFINITION. The word and byte types of the hardware (00_scope.md R6, R8: a 32-bit bus, unsigned values). -/

namespace Sys2Proof

/-- A register or command word: 32 bits (00_scope.md R6 `BUS_W`, 10_state.md R30). -/
abbrev Word := BitVec 32

/-- A codeword or buffer byte: 8 bits (20_memory.md R86). -/
abbrev Byte := BitVec 8

end Sys2Proof
end

