-- ==== Sys2Proof/Syntax.lean ====
section
/-! DEFINITION. The commands of BSE, one constructor a row of spec/opcode_table.json (30_encoding.md R114), with the fields
of 30_encoding.md R111. Counts and indexes are numbers; field elements are bytes. -/

namespace Sys2Proof

/-- A decoded command (30_encoding.md R113, R114). -/
inductive Instr where
  /-- `NOP` (40_control.md R141). -/
  | nop
  /-- `GRID_CLEAR rows, cols` (40_control.md R142). -/
  | gridClear (rows cols : Nat)
  /-- `BS_CLEAR` (41_bitstream.md R161). -/
  | bsClear
  /-- `BS_APPEND w` (41_bitstream.md R162). -/
  | bsAppend (w : Nat)
  /-- `BS_APPEND_BYTES count` (41_bitstream.md R163). -/
  | bsAppendBytes (count : Nat)
  /-- `BS_PAD_QR` (41_bitstream.md R166). -/
  | bsPadQr
  /-- `BS_TO_CW` (41_bitstream.md R168). -/
  | bsToCw
  /-- `CW_PAD_DM T` (41_bitstream.md R170). -/
  | cwPadDm (t : Nat)
  /-- `GF_ADD a, b` (42_gf256.md R200). -/
  | gfAdd (a b : Byte)
  /-- `GF_MUL a, b` (42_gf256.md R201). -/
  | gfMul (a b : Byte)
  /-- `GF_DIV a, b` (42_gf256.md R202). -/
  | gfDiv (a b : Byte)
  /-- `GF_INV a` (42_gf256.md R203). -/
  | gfInv (a : Byte)
  /-- `GF_EXP k` (42_gf256.md R204). -/
  | gfExp (k : Nat)
  /-- `GF_LOG a` (42_gf256.md R205). -/
  | gfLog (a : Byte)
  /-- `RS_GENPOLY n` (43_reed_solomon.md R221). -/
  | rsGenpoly (n : Nat)
  /-- `RS_ENCODE L, n` (43_reed_solomon.md R224). -/
  | rsEncode (l n : Nat)
  /-- `ECC_DM` (43_reed_solomon.md R226). -/
  | eccDm
  /-- `ECC_QR` (43_reed_solomon.md R229). -/
  | eccQr
  /-- `DM_LAYOUT` (44_layout_dm.md R270). -/
  | dmLayout
  /-- `QR_LAYOUT` (45_layout_qr.md R310). -/
  | qrLayout
  deriving DecidableEq, Repr

end Sys2Proof
end

