-- ==== Sys2Proof/WellFormed.lean ====
section
/-! DEFINITION. Which terms of `Instr` are commands: every number fits the bits that 30_encoding.md R111 gives its field. A value
that fits its bits but is outside the command's legal range is well-formed (R115: the command's own checks report it). -/

namespace Sys2Proof

/-- Every field fits its bits (30_encoding.md R111, R118: a value that does not fit is an assembly error, not a word). -/
def Instr.wf : Instr → Bool
  | .nop => true
  | .gridClear rows cols => decide (rows < 2 ^ 8) && decide (cols < 2 ^ 8)
  | .bsClear => true
  | .bsAppend w => decide (w < 2 ^ 6)
  | .bsAppendBytes count => decide (count < 2 ^ 13)
  | .bsPadQr => true
  | .bsToCw => true
  | .cwPadDm t => decide (t < 2 ^ 13)
  | .gfAdd _ _ => true
  | .gfMul _ _ => true
  | .gfDiv _ _ => true
  | .gfInv _ => true
  | .gfExp k => decide (k < 2 ^ 8)
  | .gfLog _ => true
  | .rsGenpoly n => decide (n < 2 ^ 8)
  | .rsEncode l n => decide (l < 2 ^ 13) && decide (n < 2 ^ 8)
  | .eccDm => true
  | .eccQr => true
  | .dmLayout => true
  | .qrLayout => true

end Sys2Proof
end

