-- ==== Sys2Proof/Decode.lean ====
section
/-! DEFINITION. The command word: bit fields (00_scope.md R8), the decoder (30_encoding.md R113), total and rejecting by name,
the opcode map as rows of match and mask (R114), and the encoder (R118). -/

namespace Sys2Proof

/-! ### Bit fields -/

/-- `v[hi:lo]`, the field of `v` from bit `hi` down to bit `lo`, as a number (00_scope.md R8). -/
def bitField {n : Nat} (v : BitVec n) (hi lo : Nat) : Nat :=
  v.toNat / 2 ^ lo % 2 ^ (hi + 1 - lo)

/-! ### Decoding -/

/-- Why a word is no command (30_encoding.md R113, R115). Both are the error ILLEGAL_COMMAND. -/
inductive DecodeError where
  /-- The opcode is not in the map of R114. -/
  | reservedOpcode (op : Nat)
  /-- A reserved bit of the opcode's format is 1. -/
  | reservedBits (op : Nat)
  deriving DecidableEq, Repr

/-- The opcode of a command word, bits [31:24] (30_encoding.md R110). -/
def opcodeOf (w : Word) : Nat := bitField w 31 24

/-- `i`, if the reserved bits [23:lo] of the word are all 0 (30_encoding.md R111, R113). -/
def withReservedZero (w : Word) (lo : Nat) (i : Instr) : Except DecodeError Instr :=
  if bitField w 23 lo = 0 then .ok i else .error (.reservedBits (opcodeOf w))

/-- Decoding of a command word (30_encoding.md R111, R113, R114): total, every word is one command or is rejected by name. -/
def decode (w : Word) : Except DecodeError Instr :=
  match opcodeOf w with
  | 0x00 => withReservedZero w 0 .nop
  | 0x01 => withReservedZero w 16 (.gridClear (bitField w 7 0) (bitField w 15 8))
  | 0x10 => withReservedZero w 0 .bsClear
  | 0x11 => withReservedZero w 6 (.bsAppend (bitField w 5 0))
  | 0x12 => withReservedZero w 13 (.bsAppendBytes (bitField w 12 0))
  | 0x13 => withReservedZero w 0 .bsPadQr
  | 0x14 => withReservedZero w 0 .bsToCw
  | 0x15 => withReservedZero w 13 (.cwPadDm (bitField w 12 0))
  | 0x20 => withReservedZero w 16 (.gfAdd (BitVec.ofNat 8 (bitField w 7 0)) (BitVec.ofNat 8 (bitField w 15 8)))
  | 0x21 => withReservedZero w 16 (.gfMul (BitVec.ofNat 8 (bitField w 7 0)) (BitVec.ofNat 8 (bitField w 15 8)))
  | 0x22 => withReservedZero w 16 (.gfDiv (BitVec.ofNat 8 (bitField w 7 0)) (BitVec.ofNat 8 (bitField w 15 8)))
  | 0x23 => withReservedZero w 8 (.gfInv (BitVec.ofNat 8 (bitField w 7 0)))
  | 0x24 => withReservedZero w 8 (.gfExp (bitField w 7 0))
  | 0x25 => withReservedZero w 8 (.gfLog (BitVec.ofNat 8 (bitField w 7 0)))
  | 0x30 => withReservedZero w 8 (.rsGenpoly (bitField w 7 0))
  | 0x31 => withReservedZero w 21 (.rsEncode (bitField w 12 0) (bitField w 20 13))
  | 0x32 => withReservedZero w 0 .eccDm
  | 0x33 => withReservedZero w 0 .eccQr
  | 0x40 => withReservedZero w 0 .dmLayout
  | 0x41 => withReservedZero w 0 .qrLayout
  | op => .error (.reservedOpcode op)

/-- A 32-bit value from its four bytes, lowest offset first (20_memory.md R84: the bus is little-endian). -/
def wordOfBytes (b0 b1 b2 b3 : Byte) : Word :=
  BitVec.ofNat 32 (b0.toNat + 2 ^ 8 * b1.toNat + 2 ^ 16 * b2.toNat + 2 ^ 24 * b3.toNat)

/-- Byte `j` of a 32-bit value, the byte that offset `off + j` carries (20_memory.md R84). -/
def byteOfWord (v : Word) (j : Nat) : Byte := BitVec.ofNat 8 (v.toNat / 2 ^ (8 * j))

/-- Decoding of a command word from its bytes as a little-endian bus carries them; `none` where it is rejected or the bytes are
not the four of a command word (30_encoding.md R110: there is one length). -/
def decodeBytes : List Byte → Option Instr
  | [b0, b1, b2, b3] => (decode (wordOfBytes b0 b1 b2 b3)).toOption
  | _ => none

/-- The instruction read from an instruction whose bits are `w`, numbered as spec/opcode_table.json numbers them; bits above
`nbits` are 0. -/
def decodeTableWord (nbits w : Nat) : Option Instr :=
  let v : Word := BitVec.ofNat 32 (w % 2 ^ nbits)
  decodeBytes [byteOfWord v 0, byteOfWord v 1, byteOfWord v 2, byteOfWord v 3]

/-! ### The opcode map -/

/-- A row of the opcode map (30_encoding.md R114): `matchWord` is the word with every field 0, `mask` has 1 in every bit that
must equal it. -/
structure OpcodeRow where
  opcode : Nat
  matchWord : Word
  mask : Word
  deriving DecidableEq, Repr

/-- The row of the opcode map that an instruction belongs to (30_encoding.md R114). -/
def Instr.row : Instr → OpcodeRow
  | .nop => ⟨0x00, 0x00000000, 0xFFFFFFFF⟩
  | .gridClear _ _ => ⟨0x01, 0x01000000, 0xFFFF0000⟩
  | .bsClear => ⟨0x10, 0x10000000, 0xFFFFFFFF⟩
  | .bsAppend _ => ⟨0x11, 0x11000000, 0xFFFFFFC0⟩
  | .bsAppendBytes _ => ⟨0x12, 0x12000000, 0xFFFFE000⟩
  | .bsPadQr => ⟨0x13, 0x13000000, 0xFFFFFFFF⟩
  | .bsToCw => ⟨0x14, 0x14000000, 0xFFFFFFFF⟩
  | .cwPadDm _ => ⟨0x15, 0x15000000, 0xFFFFE000⟩
  | .gfAdd _ _ => ⟨0x20, 0x20000000, 0xFFFF0000⟩
  | .gfMul _ _ => ⟨0x21, 0x21000000, 0xFFFF0000⟩
  | .gfDiv _ _ => ⟨0x22, 0x22000000, 0xFFFF0000⟩
  | .gfInv _ => ⟨0x23, 0x23000000, 0xFFFFFF00⟩
  | .gfExp _ => ⟨0x24, 0x24000000, 0xFFFFFF00⟩
  | .gfLog _ => ⟨0x25, 0x25000000, 0xFFFFFF00⟩
  | .rsGenpoly _ => ⟨0x30, 0x30000000, 0xFFFFFF00⟩
  | .rsEncode _ _ => ⟨0x31, 0x31000000, 0xFFE00000⟩
  | .eccDm => ⟨0x32, 0x32000000, 0xFFFFFFFF⟩
  | .eccQr => ⟨0x33, 0x33000000, 0xFFFFFFFF⟩
  | .dmLayout => ⟨0x40, 0x40000000, 0xFFFFFFFF⟩
  | .qrLayout => ⟨0x41, 0x41000000, 0xFFFFFFFF⟩

/-- The opcode map, its twenty rows in the order of 30_encoding.md R114. -/
def opcodeMap : List OpcodeRow :=
  [Instr.nop, .gridClear 0 0, .bsClear, .bsAppend 0, .bsAppendBytes 0, .bsPadQr, .bsToCw, .cwPadDm 0].map Instr.row
  ++ [Instr.gfAdd 0 0, .gfMul 0 0, .gfDiv 0 0, .gfInv 0, .gfExp 0, .gfLog 0].map Instr.row
  ++ [Instr.rsGenpoly 0, .rsEncode 0 0, .eccDm, .eccQr, .dmLayout, .qrLayout].map Instr.row

/-! ### Encoding -/

/-- The command word with opcode `op` and immediate field `imm` (30_encoding.md R110, R118). -/
def commandWord (op imm : Nat) : Word := BitVec.ofNat 32 (op * 2 ^ 24 + imm)

/-- The word of a well-formed command (30_encoding.md R111, R114, R118). -/
def encode : Instr → Word
  | .nop => commandWord 0x00 0
  | .gridClear rows cols => commandWord 0x01 (rows + cols * 2 ^ 8)
  | .bsClear => commandWord 0x10 0
  | .bsAppend w => commandWord 0x11 w
  | .bsAppendBytes count => commandWord 0x12 count
  | .bsPadQr => commandWord 0x13 0
  | .bsToCw => commandWord 0x14 0
  | .cwPadDm t => commandWord 0x15 t
  | .gfAdd a b => commandWord 0x20 (a.toNat + b.toNat * 2 ^ 8)
  | .gfMul a b => commandWord 0x21 (a.toNat + b.toNat * 2 ^ 8)
  | .gfDiv a b => commandWord 0x22 (a.toNat + b.toNat * 2 ^ 8)
  | .gfInv a => commandWord 0x23 a.toNat
  | .gfExp k => commandWord 0x24 k
  | .gfLog a => commandWord 0x25 a.toNat
  | .rsGenpoly n => commandWord 0x30 n
  | .rsEncode l n => commandWord 0x31 (l + n * 2 ^ 13)
  | .eccDm => commandWord 0x32 0
  | .eccQr => commandWord 0x33 0
  | .dmLayout => commandWord 0x40 0
  | .qrLayout => commandWord 0x41 0

end Sys2Proof
end

