-- ==== Sys2Proof/Config.lean ====
section
/-! DEFINITION. What a BSE implementation fixes (00_scope.md R6, R7) and the free values of the model: constants
with no body, of which nothing can be proved but their type. -/

namespace Sys2Proof.Config

/-- `WIN_BYTES`, the size of the host window (00_scope.md R6, 20_memory.md R80). -/
def winBytes : Nat := 0x8000

/-- `BSB_BITS`, the capacity of the bit-stream buffer in bits (00_scope.md R6). -/
def bsbBits : Nat := 32768

/-- `BSE_BASE`, the host address of offset 0: the one parameter that differs between BSE instances (00_scope.md R6,
R7; 93_implementation_defined.md U5). Open in the spec, so it has no body here (log 11 [DEDUCED, safe]). -/
opaque bseBase : Nat

/-- FREE VALUE (log 3 [DEDUCED, safe], log 6 [DEDUCED, safe]). `freeByte t n off` is what read number `n` of step number `t` finds in a byte of the window
at offset `off` that holds no defined value: a byte without its written mark (10_state.md R58,
93_implementation_defined.md U1), or, while a command runs, a byte of its write set (70_reset_and_hazards.md R432, U2). -/
opaque freeByte : Nat → Nat → Nat → Byte

/-- FREE VALUE (log 6 [DEDUCED, safe]). `freeWord t off` is what a host read in step number `t` finds in the register at offset `off` when
that register is in the running command's write set (70_reset_and_hazards.md R432, U2). -/
opaque freeWord : Nat → Nat → Word

end Sys2Proof.Config
end

