-- ==== Sys2Proof/Machine/State.lean ====
section
/-! DEFINITION. The state of one BSE as plain data (10_state.md), its reset (70_reset_and_hazards.md R420), and the reasons a step can
stop. Reserved register bits are stuck at 0 (10_state.md R42), so State holds exactly the defined fields, each at its width; the
32-bit view of a register is computed in Machine/Registers.lean. -/

namespace Sys2Proof.Machine

/-- The two fields GF(256) (42_gf256.md R190, R191). -/
inductive GField where
  /-- The Data Matrix field, `CTRL.FIELD = 0`. -/
  | dm
  /-- The QR field, `CTRL.FIELD = 1`. -/
  | qr
  deriving DecidableEq, Repr

/-- `CTRL` (10_state.md R32). `SRST` is an action and reads 0, so it is no state. -/
structure Ctrl where
  ie : Bool
  field : GField
  deriving DecidableEq, Repr

/-- The error codes (60_exceptions.md R383); no other code is ever produced. -/
inductive ErrorCode where
  /-- 0x00 NONE. -/
  | none
  /-- 0x01 ILLEGAL_COMMAND. -/
  | illegalCommand
  /-- 0x02 ARG_RANGE. -/
  | argRange
  /-- 0x03 VALUE_RANGE. -/
  | valueRange
  /-- 0x04 CAPACITY_EXCEEDED. -/
  | capacityExceeded
  /-- 0x05 GF_DOMAIN. -/
  | gfDomain
  /-- 0x06 ALIGNMENT. -/
  | alignment
  /-- 0x07 DESCRIPTOR_INVALID. -/
  | descriptorInvalid
  /-- 0x08 INTERNAL_CONSISTENCY. -/
  | internalConsistency
  deriving DecidableEq, Repr

/-- `STATUS` (10_state.md R33). -/
structure Status where
  busy : Bool
  done : Bool
  err : Bool
  ovr : Bool
  errcode : ErrorCode
  lastop : Byte
  deriving DecidableEq, Repr

/-- `GRID_DIM` (10_state.md R41) and `DM_SIZE` (R44): rows and columns. -/
structure Dim where
  rows : Byte
  cols : Byte
  deriving DecidableEq, Repr

/-- `DM_CW` (10_state.md R45). -/
structure DmCw where
  d : BitVec 12
  e : BitVec 12
  deriving DecidableEq, Repr

/-- `QR_CFG` (10_state.md R47). -/
structure QrCfg where
  version : BitVec 6
  level : BitVec 2
  mask : BitVec 3
  deriving DecidableEq, Repr

/-- `QR_BLK` (10_state.md R48). -/
structure QrBlk where
  g1c : Byte
  g1d : Byte
  g2c : Byte
  g2d : Byte
  deriving DecidableEq, Repr

/-- The registers of 10_state.md R30 that hold state (`ID` is a constant, `CMD` reads 0). -/
structure Regs where
  ctrl : Ctrl
  status : Status
  arg0 : Word
  arg1 : Word
  result : Word
  bsLen : BitVec 16
  cwLen : BitVec 13
  fsLen : BitVec 13
  genDeg : Byte
  gridDim : Dim
  dmSize : Dim
  dmCw : DmCw
  dmBlk : Byte
  qrCfg : QrCfg
  qrBlk : QrBlk
  qrEcc : Byte
  deriving DecidableEq, Repr

/-- Every register at the value of the "reset" column (10_state.md R30, R62). -/
def Regs.reset : Regs where
  ctrl := ⟨false, .dm⟩
  status := ⟨false, false, false, false, .none, 0⟩
  arg0 := 0
  arg1 := 0
  result := 0
  bsLen := 0
  cwLen := 0
  fsLen := 0
  genDeg := 0
  gridDim := ⟨0, 0⟩
  dmSize := ⟨0, 0⟩
  dmCw := ⟨0, 0⟩
  dmBlk := 0
  qrCfg := ⟨0, 0, 0⟩
  qrBlk := ⟨0, 0, 0, 0⟩
  qrEcc := 0

/-- The width of a host access: 1, 2 or 4 bytes (20_memory.md R80). -/
inductive Width where
  | one
  | two
  | four
  deriving DecidableEq, Repr

/-- A host access `MemRead(off, n)` or `MemWrite(off, n, v)` (00_scope.md R11); an access of `n` bytes carries its data in the
low `8 n` bits of `v`. -/
inductive BusAccess where
  | read (off : Nat) (n : Width)
  | write (off : Nat) (n : Width) (v : Word)
  deriving DecidableEq, Repr

/-- What the bus gives back for an access: the error response (20_memory.md R87) and the read data (0 for a write). -/
structure BusResponse where
  error : Bool
  data : Word
  deriving DecidableEq, Repr

/-- What happens next on the host's side (log 1 [DESIGN CHOICE, safe], log 2 [DESIGN CHOICE, safe]). -/
inductive HostEvent where
  /-- The host makes a bus access. -/
  | access (a : BusAccess)
  /-- The engine completes the pending command now, before the host's next access (R440: the delay is not fixed). -/
  | engine
  /-- The host's `WAIT` (30_encoding.md R117): it reads `STATUS` until `BUSY = 0`. -/
  | wait
  /-- The host's check after a `DO` (48_host_stages.md R355): it reads `STATUS`, and if `ERR = 1` it does nothing more (R353; log 20
  [DESIGN CHOICE, safe]). -/
  | check
  deriving DecidableEq, Repr

/-- The memory of the window (20_memory.md R81): (offset, byte) pairs. -/
abbrev Memory := List Host.Cell

/-- The state of the machine. `regs`, `pending`, `mem` and `holes` are the spec's; `host`, `resp` and `draws` are the model's own. -/
structure State where
  /-- The registers (10_state.md R30). -/
  regs : Regs
  /-- `PENDING`, the command word of the running command (10_state.md R34, R58). -/
  pending : Option Word
  /-- The bytes of `GEN`, `CWB`, `FSB`, `BSB`, `GRID` and `RESV` that carry a "written" mark (10_state.md R58), by window offset
  (20_memory.md R81), in rising order. -/
  mem : Memory
  /-- The bits of the bytes in `mem` that hold no defined value, as (offset, mask) pairs in rising order: what a soft reset leaves of a
  byte of `BSB` that the write set of the abandoned command covers in part (70_reset_and_hazards.md R422; log 7 [DEDUCED, safe]). -/
  holes : Memory
  /-- What the host does from here on (log 1 [DESIGN CHOICE, safe]). -/
  host : List HostEvent
  /-- The response to the last host access (log 5 [DESIGN CHOICE, unsafe]). -/
  resp : Option BusResponse
  /-- The number of the step, for the free values (log 4 [DESIGN CHOICE, safe]). -/
  draws : Nat
  deriving DecidableEq, Repr

/-- Power-on reset (70_reset_and_hazards.md R420): registers at their reset values, `PENDING` empty, no byte marked. -/
def State.reset : State where
  regs := Regs.reset
  pending := none
  mem := []
  holes := []
  host := []
  resp := none
  draws := 0

/-- Why the machine stops. No command of BSE stops it (60_exceptions.md R385). -/
inductive Fault where
  /-- Raised by a host access at an offset of 0x8000 or above: it is not an access of BSE, the address belongs to the platform
  (20_memory.md R81). Safe: the model stops (log 10 [DESIGN CHOICE, safe]). -/
  | outsideWindow (off : Nat)
  deriving DecidableEq, Repr

/-- Why a step has no meaning. -/
inductive Refusal where
  /-- Raised by an arm of `exec` whose instruction has no meaning yet; no arm does. Safe: the model stops. -/
  | notModelled (mnemonic : String)
  deriving DecidableEq, Repr

/-- The outcome of a meaning and of a step. -/
abbrev Result := Host.Outcome State Fault Refusal

end Sys2Proof.Machine
end

