-- ==== Sys2Proof/Machine/Flags.lean ====
section
/-! DEFINITION. Every way `STATUS` changes (10_state.md R33, R59): command start, completion, error, dropped write, write-1-to-clear; its
32-bit view; and the interrupt line. -/

namespace Sys2Proof.Machine

/-- The code of an error (60_exceptions.md R383). -/
def ErrorCode.code : ErrorCode → Byte
  | .none => 0x00
  | .illegalCommand => 0x01
  | .argRange => 0x02
  | .valueRange => 0x03
  | .capacityExceeded => 0x04
  | .gfDomain => 0x05
  | .alignment => 0x06
  | .descriptorInvalid => 0x07
  | .internalConsistency => 0x08

/-- Command start (40_control.md R140): `OVR` is unchanged. -/
def Status.started (st : Status) (w : Word) : Status :=
  { st with busy := true, done := false, err := false, errcode := .none, lastop := BitVec.ofNat 8 (opcodeOf w) }

/-- Completion without error (40_control.md R143). -/
def Status.completed (st : Status) : Status :=
  { st with done := true, busy := false }

/-- Completion with an error (60_exceptions.md R381): `LASTOP` keeps the opcode. -/
def Status.failed (st : Status) (code : ErrorCode) : Status :=
  { st with errcode := code, err := true, done := false, busy := false }

/-- A host write was dropped because the engine is busy (60_exceptions.md R387). -/
def Status.overrun (st : Status) : Status :=
  { st with ovr := true }

/-- A host write of `v` to `STATUS` (10_state.md R33): `DONE`, `ERR` and `OVR` are cleared by writing 1; clearing `ERR` clears
`ERRCODE` too; the other bits ignore the write. -/
def Status.acknowledged (st : Status) (v : Word) : Status :=
  { st with
    done := st.done && !v.getLsbD 1
    err := st.err && !v.getLsbD 2
    ovr := st.ovr && !v.getLsbD 3
    errcode := if v.getLsbD 2 then .none else st.errcode }

/-- The number 1 or 0 of a bit. -/
def bitNat (b : Bool) : Nat := if b then 1 else 0

/-- The 32-bit value of `STATUS` (10_state.md R33). -/
def Status.word (st : Status) : Word :=
  BitVec.ofNat 32 (bitNat st.busy + 2 * bitNat st.done + 4 * bitNat st.err + 8 * bitNat st.ovr
    + 2 ^ 8 * st.errcode.code.toNat + 2 ^ 16 * st.lastop.toNat)

/-- `CTRL.FIELD` as a bit (10_state.md R32). -/
def GField.bit : GField → Bool
  | .dm => false
  | .qr => true

/-- The field that a `CTRL.FIELD` bit names (10_state.md R32). -/
def GField.ofBit (b : Bool) : GField := if b then .qr else .dm

/-- The 32-bit value of `CTRL` (10_state.md R32): `SRST` reads 0. -/
def Ctrl.word (c : Ctrl) : Word :=
  BitVec.ofNat 32 (bitNat c.ie + 4 * bitNat c.field.bit)

/-- The interrupt line, a level (60_exceptions.md R392). -/
def State.irq (s : State) : Bool :=
  s.regs.ctrl.ie && (s.regs.status.done || s.regs.status.err)

end Sys2Proof.Machine
end

