-- ==== Sys2Proof/Machine/Memory.lean ====
section
/-! DEFINITION. The byte windows (20_memory.md R81, R83, R85) and the memory behind them: the marked bytes of the six buffers as a list of
(offset, byte) pairs in one canonical form, offsets strictly rising and inside the buffers. An unlisted byte is an unmarked
byte (10_state.md R58): it holds no value, so no entry can equal what it reads as. -/

namespace Sys2Proof.Machine

/-- The six buffers of the window (10_state.md R50 to R55). -/
inductive Buffer where
  | gen
  | cwb
  | fsb
  | bsb
  | grid
  | resv
  deriving DecidableEq, Repr

/-- The window base of a buffer (20_memory.md R81). -/
def Buffer.base : Buffer → Nat
  | .gen => 0x0100
  | .cwb => 0x1000
  | .fsb => 0x2000
  | .bsb => 0x3000
  | .grid => 0x4000
  | .resv => 0x6000

/-- The size of a buffer's window in bytes (20_memory.md R81, 00_scope.md R6). -/
def Buffer.size : Buffer → Nat
  | .gen => 256
  | .cwb => 4096
  | .fsb => 4096
  | .bsb => 4096
  | .grid => 8192
  | .resv => 8192

/-- `off` is in the window of the buffer (20_memory.md R81). -/
def Buffer.holds (b : Buffer) (off : Nat) : Bool :=
  decide (b.base ≤ off) && decide (off < b.base + b.size)

/-- `off` is in the window of some buffer. -/
def isBufferOffset (off : Nat) : Bool :=
  Buffer.gen.holds off || Buffer.cwb.holds off || Buffer.fsb.holds off || Buffer.bsb.holds off
    || Buffer.grid.holds off || Buffer.resv.holds off

namespace Memory

/-- The byte listed for an offset; `none` for an unmarked byte (10_state.md R58). -/
def lookup : Memory → Nat → Option Byte
  | [], _ => none
  | (k, b) :: rest, off => if k = off then some b else lookup rest off

/-- Consecutive cells from an offset on. -/
def cellsFrom : Nat → List Byte → Memory
  | _, [] => []
  | off, b :: bs => (off, b) :: cellsFrom (off + 1) bs

/-- Write consecutive bytes from an offset on; each is marked (10_state.md R58). -/
def splice (m : Memory) (off : Nat) (bytes : List Byte) : Memory :=
  m.filter (fun c => decide (c.1 < off)) ++ cellsFrom off bytes
    ++ m.filter (fun c => decide (off + bytes.length ≤ c.1))

/-- Clear the marks of the bytes that `p` picks (70_reset_and_hazards.md R422). -/
def unmark (m : Memory) (p : Nat → Bool) : Memory := m.filter (fun c => !p c.1)

/-- The offsets rise strictly, each of them at least `lo`. -/
def risingFrom : Nat → Memory → Bool
  | _, [] => true
  | lo, (k, _) :: rest => decide (lo ≤ k) && risingFrom (k + 1) rest

/-- The canonical form: offsets strictly rising, all of them inside the buffers. -/
def wf (m : Memory) : Bool := risingFrom 0 m && m.all (fun c => isBufferOffset c.1)

/-- The canonical form of the undefined bits beside a memory: each mask belongs to a listed byte, has a bit and not all of them, and the
byte is 0 there. -/
def holesWf (m holes : Memory) : Bool :=
  wf holes && holes.all (fun c => c.2 != 0 && c.2 != 0xFF && (lookup m c.1).any (fun b => b &&& c.2 == 0))

end Memory

end Sys2Proof.Machine
end

