-- ==== Sys2Proof/Machine/Operands.lean ====
section
/-! DEFINITION. The operand forms that are not in the command word: `ARG0` and `ARG1` (30_encoding.md R112), the field a command computes in
(42_gf256.md R193) and the descriptors (10_state.md R44 to R49), as numbers. -/

namespace Sys2Proof.Machine

/-- `ARG0` read whole (30_encoding.md R112). -/
def State.arg0Nat (s : State) : Nat := s.regs.arg0.toNat

/-- The base index of a register in the strided layout `S`: bits [12:0] (30_encoding.md R112). -/
def stridedBase (v : Word) : Nat := bitField v 12 0

/-- The stride of a register in the strided layout `S`: bits [23:16] (30_encoding.md R112). -/
def stridedStep (v : Word) : Nat := bitField v 23 16

/-- A reserved bit of the strided layout `S` is 1: bits [15:13] and [31:24] (30_encoding.md R112). -/
def stridedReserved (v : Word) : Bool := decide (bitField v 15 13 ≠ 0) || decide (bitField v 31 24 ≠ 0)

/-- The field of GF_MUL, GF_DIV, GF_INV, GF_EXP, GF_LOG, RS_GENPOLY and RS_ENCODE (42_gf256.md R193). -/
def State.field (s : State) : GField := s.regs.ctrl.field

/-- `BS_LEN` (10_state.md R37). -/
def State.bsLenNat (s : State) : Nat := s.regs.bsLen.toNat

/-- `CW_LEN` (10_state.md R38). -/
def State.cwLenNat (s : State) : Nat := s.regs.cwLen.toNat

/-- `FS_LEN` (10_state.md R39). -/
def State.fsLenNat (s : State) : Nat := s.regs.fsLen.toNat

/-- `DM_CW.D`, the number of data codewords (10_state.md R45). -/
def State.dmData (s : State) : Nat := s.regs.dmCw.d.toNat

/-- `DM_CW.E`, the number of ECC codewords of all blocks (10_state.md R45). -/
def State.dmEcc (s : State) : Nat := s.regs.dmCw.e.toNat

/-- `DM_BLK.B`, the number of blocks (10_state.md R46). -/
def State.dmBlocks (s : State) : Nat := s.regs.dmBlk.toNat

/-- `G1C + G2C`, the number of blocks of a QR symbol (43_reed_solomon.md R228). -/
def State.qrBlocks (s : State) : Nat := s.regs.qrBlk.g1c.toNat + s.regs.qrBlk.g2c.toNat

/-- `G1C*G1D + G2C*G2D`, the number of data codewords of a QR symbol (43_reed_solomon.md R228). -/
def State.qrData (s : State) : Nat :=
  s.regs.qrBlk.g1c.toNat * s.regs.qrBlk.g1d.toNat + s.regs.qrBlk.g2c.toNat * s.regs.qrBlk.g2d.toNat

/-- `ECCPB`, the number of ECC codewords of each QR block (10_state.md R49). -/
def State.qrEccPerBlock (s : State) : Nat := s.regs.qrEcc.toNat

/-- `nb * ECCPB`, the number of ECC codewords of a QR symbol (43_reed_solomon.md R228). -/
def State.qrEccTotal (s : State) : Nat := s.qrBlocks * s.qrEccPerBlock

end Sys2Proof.Machine
end

