-- ==== Sys2Proof/Machine/Ops.lean ====
section
/-! DEFINITION. The shared operations over registers and buffers: reading and writing buffer bytes, the bit-stream cursor
(41_bitstream.md R160), completing a command (40_control.md R143), raising an error (60_exceptions.md R381) and the host's acknowledgement of
it (R392), and the order of a command's checks (R382). -/

namespace Sys2Proof.Machine

/-! ### Buffer bytes -/

/-- The bits of `x` where `mask` is 1, and the bits of `b` where it is 0. -/
def mixByte (mask x b : Byte) : Byte := (b &&& ~~~mask) ||| (x &&& mask)

/-- The byte at a window offset as a read sees it: the marked value, or the free value of an unmarked byte (10_state.md R58), or of the
undefined bits of a marked one (70_reset_and_hazards.md R422). `read` numbers the reads of one byte within one step (log 3 [DEDUCED,
safe]). -/
def State.readByte (s : State) (read off : Nat) : Byte :=
  match s.mem.lookup off with
  | none => Config.freeByte s.draws read off
  | some b =>
    match s.holes.lookup off with
    | none => b
    | some mask => mixByte mask (Config.freeByte s.draws read off) b

/-- Write consecutive bytes from a window offset on; each is marked, and every bit of it is defined (10_state.md R58). -/
def State.writeBytes (s : State) (off : Nat) (bytes : List Byte) : State :=
  { s with
    mem := s.mem.splice off bytes
    holes := s.holes.unmark (fun a => decide (off ≤ a) && decide (a < off + bytes.length)) }

/-- The bits of a byte that are undefined after those of `set` have become so. -/
def State.holeWith (s : State) (set : Nat → Byte) (off : Nat) : Byte := (s.holes.lookup off).getD 0 ||| set off

/-- Make bits of the buffers undefined (70_reset_and_hazards.md R422): `set` gives for each byte the mask of its bits. A byte with no
defined bit left is unmarked; the other bits are kept. -/
def State.abandon (s : State) (set : Nat → Byte) : State :=
  let hole := s.holeWith set
  let kept := (s.mem.filter (fun c => hole c.1 != 0xFF)).map (fun c => (c.1, c.2 &&& ~~~hole c.1))
  { s with
    mem := kept
    holes := (kept.map (fun c => (c.1, hole c.1))).filter (fun c => hole c.1 != 0) }

/-- `b[k]`, element `k` of a buffer (00_scope.md R9). -/
def State.elem (s : State) (b : Buffer) (k : Nat) : Byte := s.readByte 0 (b.base + k)

/-- The elements `b[i]` for `i` in a list of indexes. -/
def State.elems (s : State) (b : Buffer) (is : List Nat) : List Byte := is.map (s.elem b)

/-! ### The bit-stream cursor -/

/-- A byte with bit `i` set to `b`. -/
def setBit (x : Byte) (i : Nat) (b : Bool) : Byte :=
  if b then x ||| BitVec.twoPow 8 i else x &&& ~~~ BitVec.twoPow 8 i

/-- `BS_LEN <- n`. -/
def State.setBsLen (s : State) (n : Nat) : State :=
  { s with regs := { s.regs with bsLen := BitVec.ofNat 16 n } }

/-- `bit(i)` of the bit stream (10_state.md R52, 41_bitstream.md R160). -/
def State.streamBit (s : State) (i : Nat) : Bool := (s.elem .bsb (i / 8)).getLsbD (7 - i % 8)

/-- `append_bit(b)` (41_bitstream.md R160): the other bits of the byte are not changed, and the byte is marked. -/
def State.appendBit (s : State) (b : Bool) : State :=
  let i := s.bsLenNat
  (s.writeBytes (Buffer.bsb.base + i / 8) [setBit (s.elem .bsb (i / 8)) (7 - i % 8) b]).setBsLen (i + 1)

/-- `append_bits(w, v)` (41_bitstream.md R160): most significant of the `w` bits first. -/
def State.appendBits : Nat → Word → State → State
  | 0, _, s => s
  | w + 1, v, s => State.appendBits w v (s.appendBit (v.getLsbD w))

/-! ### The end of a command -/

/-- Completion without error (40_control.md R143): `DONE <- 1`, `BUSY <- 0`, `PENDING <- empty`. -/
def State.complete (s : State) : State :=
  { s with regs := { s.regs with status := s.regs.status.completed }, pending := none }

/-- `raise Error(code)` (60_exceptions.md R381): the end of a failing step, this hardware's way of taking an exception. `STATUS` and
`PENDING` are written and nothing else. -/
def State.raiseError (s : State) (code : ErrorCode) : State :=
  { s with regs := { s.regs with status := s.regs.status.failed code }, pending := none }

/-- The return from an error or a completion: the host acknowledges it by a write to `STATUS` (60_exceptions.md R392). -/
def State.acknowledge (s : State) (v : Word) : State :=
  { s with regs := { s.regs with status := s.regs.status.acknowledged v } }

/-- The first failing check in the order a command's rule lists them (60_exceptions.md R382). -/
def firstFailing : List (Bool × ErrorCode) → Option ErrorCode
  | [] => none
  | (fails, code) :: rest => if fails then some code else firstFailing rest

/-- One command as one indivisible step (40_control.md R143): its checks in order, each on the state at the start of the step; the
first that fails raises its error; if none fails, the command's effect and the completion. -/
def State.command (s : State) (checks : List (Bool × ErrorCode)) (effect : State → State) : Result :=
  match firstFailing checks with
  | some code => .next (s.raiseError code)
  | none => .next (effect s).complete

/-- Command start (40_control.md R140): the word is latched into `PENDING`. -/
def State.start (s : State) (w : Word) : State :=
  { s with regs := { s.regs with status := s.regs.status.started w }, pending := some w }

end Sys2Proof.Machine
end

