-- ==== Sys2Proof/Machine/Grid.lean ====
section
/-! DEFINITION. Writing the module grid and the function-module map as wholes: `GRID` and `RESV` are only ever written entirely, by
GRID_CLEAR, DM_LAYOUT and QR_LAYOUT (10_state.md R54, R55, R61), packed as 20_memory.md R85 says. -/

namespace Sys2Proof.Machine

/-- The byte whose bit `7 - j` is `f j` for `j = 0..7` (20_memory.md R85: the leftmost module is the most significant bit). -/
def packByte (f : Nat → Bool) : Byte :=
  BitVec.ofNat 8 (128 * bitNat (f 0) + 64 * bitNat (f 1) + 32 * bitNat (f 2) + 16 * bitNat (f 3)
    + 8 * bitNat (f 4) + 4 * bitNat (f 5) + 2 * bitNat (f 6) + bitNat (f 7))

/-- The 8192 bytes of a 256 x 256 bit map, 32 bytes a row (20_memory.md R85): bit `(r, c)` is bit `7 - (c mod 8)` of byte
`32 r + c div 8`. -/
def packMap (f : Nat → Nat → Bool) : List Byte :=
  (List.range 8192).map (fun k => packByte (fun j => f (k / 32) (8 * (k % 32) + j)))

/-- `GRID[r][c]` as a read of the byte that holds it (20_memory.md R85). -/
def State.gridBit (s : State) (r c : Nat) : Bool :=
  (s.elem .grid (32 * r + c / 8)).getLsbD (7 - c % 8)

/-- `RESV[r][c]` as a read of the byte that holds it (20_memory.md R85). -/
def State.resvBit (s : State) (r c : Nat) : Bool :=
  (s.elem .resv (32 * r + c / 8)).getLsbD (7 - c % 8)

/-- Write every bit of `GRID` and of `RESV`, and the dimensions (10_state.md R41, R54, R55). -/
def State.setGrid (s : State) (rows cols : Nat) (grid resv : Nat → Nat → Bool) : State :=
  let t := (s.writeBytes Buffer.grid.base (packMap grid)).writeBytes Buffer.resv.base (packMap resv)
  { t with regs := { t.regs with gridDim := ⟨BitVec.ofNat 8 rows, BitVec.ofNat 8 cols⟩ } }

end Sys2Proof.Machine
end

