-- ==== Sys2Proof/Machine/Registers.lean ====
section
/-! DEFINITION. The register map (10_state.md R30): the offset of each register, its 32-bit value as a host reads it, and what a host write
stores. Reserved bits read 0 and ignore writes (R42). -/

namespace Sys2Proof.Machine

/-- The registers of 10_state.md R30. -/
inductive Reg where
  | id
  | ctrl
  | status
  | cmd
  | arg0
  | arg1
  | result
  | bsLen
  | cwLen
  | fsLen
  | genDeg
  | gridDim
  | dmSize
  | dmCw
  | dmBlk
  | qrCfg
  | qrBlk
  | qrEcc
  deriving DecidableEq, Repr

/-- The offset of a register (10_state.md R30). -/
def Reg.offset : Reg → Nat
  | .id => 0x000
  | .ctrl => 0x004
  | .status => 0x008
  | .cmd => 0x00C
  | .arg0 => 0x010
  | .arg1 => 0x014
  | .result => 0x018
  | .bsLen => 0x01C
  | .cwLen => 0x020
  | .fsLen => 0x024
  | .genDeg => 0x028
  | .gridDim => 0x02C
  | .dmSize => 0x030
  | .dmCw => 0x034
  | .dmBlk => 0x038
  | .qrCfg => 0x03C
  | .qrBlk => 0x040
  | .qrEcc => 0x044

/-- Every register, in the order of the map. -/
def allRegs : List Reg :=
  [.id, .ctrl, .status, .cmd, .arg0, .arg1, .result, .bsLen, .cwLen]
  ++ [.fsLen, .genDeg, .gridDim, .dmSize, .dmCw, .dmBlk, .qrCfg, .qrBlk, .qrEcc]

/-- The register at an offset, if one is mapped there (10_state.md R30). -/
def regAt (off : Nat) : Option Reg := allRegs.find? (fun r => r.offset == off)

/-- A word of up to four fields, each given with its lowest bit. -/
def packWord (fields : List (Nat × Nat)) : Word :=
  BitVec.ofNat 32 ((fields.map (fun p => p.1 * 2 ^ p.2)).sum)

/-- The 32-bit value of a register (10_state.md R31 to R49). -/
def Regs.read (g : Regs) : Reg → Word
  | .id => 0x42534501
  | .ctrl => g.ctrl.word
  | .status => g.status.word
  | .cmd => 0
  | .arg0 => g.arg0
  | .arg1 => g.arg1
  | .result => g.result
  | .bsLen => packWord [(g.bsLen.toNat, 0)]
  | .cwLen => packWord [(g.cwLen.toNat, 0)]
  | .fsLen => packWord [(g.fsLen.toNat, 0)]
  | .genDeg => packWord [(g.genDeg.toNat, 0)]
  | .gridDim => packWord [(g.gridDim.rows.toNat, 0), (g.gridDim.cols.toNat, 8)]
  | .dmSize => packWord [(g.dmSize.rows.toNat, 0), (g.dmSize.cols.toNat, 8)]
  | .dmCw => packWord [(g.dmCw.d.toNat, 0), (g.dmCw.e.toNat, 16)]
  | .dmBlk => packWord [(g.dmBlk.toNat, 0)]
  | .qrCfg => packWord [(g.qrCfg.version.toNat, 0), (g.qrCfg.level.toNat, 8), (g.qrCfg.mask.toNat, 12)]
  | .qrBlk => packWord [(g.qrBlk.g1c.toNat, 0), (g.qrBlk.g1d.toNat, 8), (g.qrBlk.g2c.toNat, 16), (g.qrBlk.g2d.toNat, 24)]
  | .qrEcc => packWord [(g.qrEcc.toNat, 0)]

/-- What a host write of `v` stores in a register that has no effect beyond storing, while the engine is idle: the defined fields of a
read-write register (10_state.md R42), nothing in a read-only one (20_memory.md R88). `CTRL`, `STATUS` and `CMD` are in
Machine/Bus.lean. -/
def Regs.store (g : Regs) (r : Reg) (v : Word) : Regs :=
  match r with
  | .arg0 => { g with arg0 := v }
  | .arg1 => { g with arg1 := v }
  | .cwLen => { g with cwLen := BitVec.ofNat 13 (bitField v 12 0) }
  | .fsLen => { g with fsLen := BitVec.ofNat 13 (bitField v 12 0) }
  | .dmSize => { g with dmSize := ⟨BitVec.ofNat 8 (bitField v 7 0), BitVec.ofNat 8 (bitField v 15 8)⟩ }
  | .dmCw => { g with dmCw := ⟨BitVec.ofNat 12 (bitField v 11 0), BitVec.ofNat 12 (bitField v 27 16)⟩ }
  | .dmBlk => { g with dmBlk := BitVec.ofNat 8 (bitField v 7 0) }
  | .qrCfg =>
    { g with qrCfg := ⟨BitVec.ofNat 6 (bitField v 5 0), BitVec.ofNat 2 (bitField v 9 8), BitVec.ofNat 3 (bitField v 14 12)⟩ }
  | .qrBlk =>
    { g with qrBlk := ⟨BitVec.ofNat 8 (bitField v 7 0), BitVec.ofNat 8 (bitField v 15 8),
        BitVec.ofNat 8 (bitField v 23 16), BitVec.ofNat 8 (bitField v 31 24)⟩ }
  | .qrEcc => { g with qrEcc := BitVec.ofNat 8 (bitField v 7 0) }
  | .id => g
  | .ctrl => g
  | .status => g
  | .cmd => g
  | .result => g
  | .bsLen => g
  | .genDeg => g
  | .gridDim => g

end Sys2Proof.Machine
end

