-- ==== Sys2Proof/Machine/WriteSet.lean ====
section
/-! DEFINITION. The write set of each command (10_state.md R61), as two tests: which registers and which bits of the window a command may
write. It is taken from the command's operands alone, whether or not its checks will fail (log 6 [DEDUCED, safe]), clipped to the buffers. -/

namespace Sys2Proof.Machine

/-- Element `k` of a buffer is at `off`, for some `k` that `p` picks. -/
def Buffer.picks (b : Buffer) (p : Nat → Bool) (off : Nat) : Bool := b.holds off && p (off - b.base)

/-- All eight bits of a byte, or none. -/
def wholeByte (b : Bool) : Byte := if b then 0xFF else 0

/-- The bits of a byte of `BSB` that hold the bits `BS_LEN .. last - 1` of the stream (10_state.md R52, R61). -/
def State.appendSet (s : State) (last off : Nat) : Byte :=
  if Buffer.bsb.holds off then
    packByte (fun j => decide (s.bsLenNat ≤ 8 * (off - Buffer.bsb.base) + j) && decide (8 * (off - Buffer.bsb.base) + j < last))
  else 0

/-- The write set of a command among the bits of the window (10_state.md R61): for each byte the mask of its bits. -/
def writesBits (s : State) (off : Nat) : Instr → Byte
  | .nop => 0
  | .gridClear _ _ => wholeByte (Buffer.grid.holds off || Buffer.resv.holds off)
  | .bsClear => wholeByte (Buffer.bsb.holds off)
  | .bsAppend w => s.appendSet (s.bsLenNat + w) off
  | .bsAppendBytes count => s.appendSet (s.bsLenNat + 8 * count) off
  | .bsPadQr => s.appendSet s.arg0Nat off
  | .bsToCw => wholeByte (Buffer.cwb.picks (fun k => decide (k < s.bsLenNat / 8)) off)
  | .cwPadDm t => wholeByte (Buffer.cwb.picks (fun k => decide (s.cwLenNat ≤ k) && decide (k < t)) off)
  | .gfAdd _ _ => 0
  | .gfMul _ _ => 0
  | .gfDiv _ _ => 0
  | .gfInv _ => 0
  | .gfExp _ => 0
  | .gfLog _ => 0
  | .rsGenpoly _ => wholeByte (Buffer.gen.holds off)
  | .rsEncode _ n =>
    wholeByte (Buffer.gen.holds off
      || Buffer.fsb.picks (fun k => (List.range n).any
          (fun j => stridedBase s.regs.arg1 + j * stridedStep s.regs.arg1 == k)) off)
  | .eccDm => wholeByte (Buffer.gen.holds off || Buffer.fsb.picks (fun k => decide (k < s.dmData + s.dmEcc)) off)
  | .eccQr => wholeByte (Buffer.gen.holds off || Buffer.fsb.picks (fun k => decide (k < s.qrData + s.qrEccTotal)) off)
  | .dmLayout => wholeByte (Buffer.grid.holds off || Buffer.resv.holds off)
  | .qrLayout => wholeByte (Buffer.grid.holds off || Buffer.resv.holds off)

/-- A byte is in a command's write set: one of its bits is. -/
def writesByte (s : State) (off : Nat) (i : Instr) : Bool := writesBits s off i != 0

/-- The write set of a command among the registers (10_state.md R61); `STATUS`, which every command writes, is not in it. -/
def writesReg (r : Reg) : Instr → Bool
  | .nop => false
  | .gridClear _ _ => r == .gridDim
  | .bsClear => r == .bsLen
  | .bsAppend _ => r == .bsLen
  | .bsAppendBytes _ => r == .bsLen
  | .bsPadQr => r == .bsLen
  | .bsToCw => r == .cwLen
  | .cwPadDm _ => r == .cwLen
  | .gfAdd _ _ => r == .result
  | .gfMul _ _ => r == .result
  | .gfDiv _ _ => r == .result
  | .gfInv _ => r == .result
  | .gfExp _ => r == .result
  | .gfLog _ => r == .result
  | .rsGenpoly _ => r == .genDeg
  | .rsEncode _ _ => r == .genDeg
  | .eccDm => r == .fsLen || r == .genDeg
  | .eccQr => r == .fsLen || r == .genDeg
  | .dmLayout => r == .gridDim
  | .qrLayout => r == .gridDim

/-- The running command, if there is one and its word decodes (10_state.md R34, R58). -/
def State.running (s : State) : Option Instr :=
  match s.pending with
  | some w => (decode w).toOption
  | none => none

/-- The bits of a byte in the running command's write set (70_reset_and_hazards.md R432). -/
def State.unsettledBits (s : State) (off : Nat) : Byte :=
  match s.running with
  | some i => writesBits s off i
  | none => 0

/-- A register is in the running command's write set (70_reset_and_hazards.md R432). -/
def State.unsettledReg (s : State) (r : Reg) : Bool := s.running.any (writesReg r)

end Sys2Proof.Machine
end

