-- ==== Sys2Proof/Machine/Bus.lean ====
section
/-! DEFINITION. The host's side of the machine: bus accesses and their errors (20_memory.md R80 to R92), writes and reads while a command
runs (70_reset_and_hazards.md R430 to R432), and soft reset (R422). -/

namespace Sys2Proof.Machine

/-! ### Which accesses are accepted -/

/-- The number of bytes of an access (20_memory.md R80). -/
def Width.bytes : Width → Nat
  | .one => 1
  | .two => 2
  | .four => 4

/-- The offset of an access. -/
def BusAccess.off : BusAccess → Nat
  | .read off _ => off
  | .write off _ _ => off

/-- `off` is in the mapped part of the register area (20_memory.md R81). -/
def isRegisterOffset (off : Nat) : Bool := decide (off < 0x48)

/-- A host access is a bus error: the offset is unmapped, the access is not naturally aligned, or it is narrower than a register
(20_memory.md R87). -/
def busError (off : Nat) (n : Width) : Bool :=
  !(isRegisterOffset off || isBufferOffset off) || decide (off % n.bytes ≠ 0)
    || (isRegisterOffset off && decide (n ≠ .four))

/-- The offset in the window of a host address (00_scope.md R6, 20_memory.md R80); `none` for an address of the platform (log 11 [DEDUCED, safe]). -/
def windowOffset (addr : Nat) : Option Nat :=
  if Config.bseBase ≤ addr ∧ addr < Config.bseBase + Config.winBytes then some (addr - Config.bseBase) else none

/-! ### Reads -/

/-- One byte of a buffer as the host reads it: its bits in the running command's write set have any value (70_reset_and_hazards.md R432). -/
def State.hostByte (s : State) (off : Nat) : Byte :=
  mixByte (s.unsettledBits off) (Config.freeByte s.draws 2 off) (s.readByte 0 off)

/-- A register as the host reads it: any value while it is in the running command's write set (70_reset_and_hazards.md R432). -/
def State.hostReg (s : State) (r : Reg) : Word :=
  if s.unsettledReg r then Config.freeWord s.draws r.offset else s.regs.read r

/-- The data of an `n`-byte read, the byte at `off + j` on bits [8j+7:8j] (20_memory.md R84). -/
def State.readData (s : State) (off : Nat) : Width → Word
  | .one => wordOfBytes (s.hostByte off) 0 0 0
  | .two => wordOfBytes (s.hostByte off) (s.hostByte (off + 1)) 0 0
  | .four => wordOfBytes (s.hostByte off) (s.hostByte (off + 1)) (s.hostByte (off + 2)) (s.hostByte (off + 3))

/-- The response to `MemRead(off, n)` (20_memory.md R82 to R87). -/
def State.busRead (s : State) (off : Nat) (n : Width) : BusResponse :=
  if busError off n then ⟨true, 0⟩
  else
    match regAt off with
    | some r => ⟨false, s.hostReg r⟩
    | none => ⟨false, s.readData off n⟩

/-! ### Writes -/

/-- Abandoning the running command (70_reset_and_hazards.md R422): its write set becomes undefined, and every other bit is kept. -/
def State.abandonRunning (s : State) : State :=
  match s.running with
  | some i => s.abandon (fun off => writesBits s off i)
  | none => s

/-- Soft reset (70_reset_and_hazards.md R422): a running command is abandoned; every register takes its reset value; `PENDING` is emptied. -/
def State.softReset (s : State) : State := { s.abandonRunning with regs := Regs.reset, pending := none }

/-- A host write of `v` to `CTRL` (10_state.md R32, 70_reset_and_hazards.md R422, R431): `SRST` resets and discards the other bits; while
busy `FIELD` is ignored. -/
def State.writeCtrl (s : State) (v : Word) : State :=
  if v.getLsbD 1 then s.softReset
  else
    { s with regs := { s.regs with
        ctrl := ⟨v.getLsbD 0, if s.regs.status.busy then s.regs.ctrl.field else GField.ofBit (v.getLsbD 2)⟩ } }

/-- The bytes of an `n`-byte write, lowest offset first (20_memory.md R84). -/
def writeData (v : Word) (n : Width) : List Byte := (List.range n.bytes).map (byteOfWord v)

/-- A host write to a buffer byte changes it: `CWB`, `FSB` and `BSB` are writable, `GEN`, `GRID` and `RESV` are not (20_memory.md R81, R88). -/
def isWritableBuffer (off : Nat) : Bool := Buffer.cwb.holds off || Buffer.fsb.holds off || Buffer.bsb.holds off

/-- A host write to a register while the engine is idle (10_state.md R30, R33, R34; 40_control.md R140). -/
def State.writeRegIdle (s : State) (r : Reg) (v : Word) : State :=
  match r with
  | .cmd => s.start v
  | .ctrl => s.writeCtrl v
  | .status => s.acknowledge v
  | _ => { s with regs := s.regs.store r v }

/-- A host write to a register while a command runs (70_reset_and_hazards.md R430, R431). -/
def State.writeRegBusy (s : State) (r : Reg) (v : Word) : State :=
  match r with
  | .ctrl => s.writeCtrl v
  | .status => s.acknowledge v
  | _ => { s with regs := { s.regs with status := s.regs.status.overrun } }

/-- The state after `MemWrite(off, n, v)` (20_memory.md R82 to R88; 70_reset_and_hazards.md R430). -/
def State.busWrite (s : State) (off : Nat) (n : Width) (v : Word) : State :=
  if busError off n then s
  else
    match regAt off with
    | some r => if s.regs.status.busy then s.writeRegBusy r v else s.writeRegIdle r v
    | none =>
      if s.regs.status.busy then { s with regs := { s.regs with status := s.regs.status.overrun } }
      else if isWritableBuffer off then s.writeBytes off (writeData v n)
      else s

/-- The effect of a host access, and the response it leaves. -/
def State.access (s : State) : BusAccess → State
  | .read off n => { s with resp := some (s.busRead off n) }
  | .write off n v => { s.busWrite off n v with resp := some ⟨busError off n, 0⟩ }

/-- A host access as a step: one outside the window is no access of BSE (20_memory.md R81, log 10 [DESIGN CHOICE, safe]). -/
def State.hostAccess (s : State) (a : BusAccess) : Result :=
  if Config.winBytes ≤ a.off then .fault (.outsideWindow a.off) else .next (s.access a)

end Sys2Proof.Machine
end

