-- ==== Sys2Proof/Machine/BitStream.lean ====
section
/-! DEFINITION. The bit-stream packer and the two padders (41_bitstream.md R161 to R170). -/

namespace Sys2Proof.Machine

/-! ### Lengths -/

/-- `CW_LEN <- n` (10_state.md R38). -/
def State.setCwLen (s : State) (n : Nat) : State :=
  { s with regs := { s.regs with cwLen := BitVec.ofNat 13 n } }

/-! ### The bit stream -/

/-- BS_CLEAR (41_bitstream.md R161). -/
def execBsClear (s : State) : Result :=
  s.command [] (fun s => (s.writeBytes Buffer.bsb.base (List.replicate 4096 0)).setBsLen 0)

/-- BS_APPEND (41_bitstream.md R162). -/
def execBsAppend (w : Nat) (s : State) : Result :=
  s.command
    [(decide (w = 0) || decide (32 < w), .argRange),
     (decide (w < 32) && decide (2 ^ w ≤ s.arg0Nat), .valueRange),
     (decide (Config.bsbBits < s.bsLenNat + w), .capacityExceeded)]
    (fun s => s.appendBits w s.regs.arg0)

/-- `append_bits(8, b)` for each byte of a list in turn (41_bitstream.md R163). -/
def State.appendBytes : List Byte → State → State
  | [], s => s
  | b :: bs, s => State.appendBytes bs (s.appendBits 8 (b.setWidth 32))

/-- BS_APPEND_BYTES (41_bitstream.md R163): the bytes are those of `CWB` at the start of the step, in rising index order. -/
def execBsAppendBytes (count : Nat) (s : State) : Result :=
  s.command
    [(decide (4096 < s.arg0Nat + count), .argRange),
     (decide (Config.bsbBits < s.bsLenNat + 8 * count), .capacityExceeded)]
    (fun s => s.appendBytes (s.elems .cwb ((List.range count).map (s.arg0Nat + ·))))

/-! ### QR padding -/

/-- Append `t` zero bits: the terminator (41_bitstream.md R166). -/
def State.appendZeros : Nat → State → State
  | 0, s => s
  | t + 1, s => State.appendZeros t (s.appendBit false)

/-- The loop `while BS_LEN mod 8 != 0: append_bit(0)` (41_bitstream.md R166); the fuel bounds its turns, of which there are at most
7 (R167). -/
def State.padToByte : Nat → State → State
  | 0, s => s
  | fuel + 1, s => if s.bsLenNat % 8 = 0 then s else State.padToByte fuel (s.appendBit false)

/-- Pad byte number `k`: 0xEC and 0x11 in turn, 0xEC first (41_bitstream.md R165, R166). -/
def qrPadByte (k : Nat) : Byte := if k % 2 = 0 then 0xEC else 0x11

/-- The loop `while BS_LEN < cap` of the pad bytes, from number `k` on (41_bitstream.md R166); the fuel bounds its turns, of which
there are at most `cap / 8`. -/
def State.padBytes (cap : Nat) : Nat → Nat → State → State
  | 0, _, s => s
  | fuel + 1, k, s =>
    if s.bsLenNat < cap then State.padBytes cap fuel (k + 1) (s.appendBits 8 ((qrPadByte k).setWidth 32)) else s

/-- The effect of BS_PAD_QR with capacity `cap` (41_bitstream.md R166). -/
def State.padQr (s : State) (cap : Nat) : State :=
  let t := min 4 (cap - s.bsLenNat)
  State.padBytes cap (cap / 8) 0 (State.padToByte 8 (State.appendZeros t s))

/-- BS_PAD_QR (41_bitstream.md R166). -/
def execBsPadQr (s : State) : Result :=
  s.command
    [(decide (s.arg0Nat % 8 ≠ 0) || decide (Config.bsbBits < s.arg0Nat), .argRange),
     (decide (s.arg0Nat < s.bsLenNat), .capacityExceeded)]
    (fun s => s.padQr s.arg0Nat)

/-! ### Bit stream to codewords -/

/-- BS_TO_CW (41_bitstream.md R168). -/
def execBsToCw (s : State) : Result :=
  s.command [(decide (s.bsLenNat % 8 ≠ 0), .alignment)]
    (fun s => (s.writeBytes Buffer.cwb.base (s.elems .bsb (List.range (s.bsLenNat / 8)))).setCwLen (s.bsLenNat / 8))

/-! ### Data Matrix padding -/

/-- `dm_pad_value(P)`, `P` the 1-based position in the codeword stream (41_bitstream.md R169, 90_conflicts.md C1). -/
def dmPadValue (p : Nat) : Byte :=
  let r := 149 * p % 253 + 1
  let v := 129 + r
  if v ≤ 254 then BitVec.ofNat 8 v else BitVec.ofNat 8 (v - 254)

/-- The codewords that CW_PAD_DM appends to a stream of `l` codewords to reach `t` (41_bitstream.md R170): the fixed 129 at position
`l + 1`, then the filler of each later position. -/
def dmPadding (l t : Nat) : List Byte :=
  if l < t then 129 :: (List.range (t - (l + 1))).map (fun j => dmPadValue (l + 1 + j + 1)) else []

/-- CW_PAD_DM (41_bitstream.md R170). -/
def execCwPadDm (t : Nat) (s : State) : Result :=
  s.command
    [(decide (4096 < t), .argRange),
     (decide (t < s.cwLenNat), .capacityExceeded)]
    (fun s => (s.writeBytes (Buffer.cwb.base + s.cwLenNat) (dmPadding s.cwLenNat t)).setCwLen t)

end Sys2Proof.Machine
end

