-- ==== Sys2Proof/Machine/Control.lean ====
section
/-! DEFINITION. The control commands: NOP (40_control.md R141) and GRID_CLEAR (R142). -/

namespace Sys2Proof.Machine

/-- NOP (40_control.md R141): nothing but the completion. -/
def execNop (s : State) : Result := s.command [] (fun s => s)

/-- GRID_CLEAR (40_control.md R142): every module of the 256 x 256 storage is cleared. -/
def execGridClear (rows cols : Nat) (s : State) : Result :=
  s.command [(decide (rows = 0) || decide (cols = 0), .argRange)]
    (fun s => s.setGrid rows cols (fun _ _ => false) (fun _ _ => false))

end Sys2Proof.Machine
end

