-- ==== Sys2Proof/Machine/DmLayout.lean ====
section
/-! DEFINITION. The Data Matrix layout engine: the geometry ROM, the diagonal sweep of the mapping matrix, the symbol, DM_LAYOUT
(44_layout_dm.md R260 to R270). -/

namespace Sys2Proof.Machine

/-! ### The geometry ROM -/

/-- A row of the geometry ROM (44_layout_dm.md R260): the symbol's size, its data regions vertically and horizontally, and the number
of codewords its mapping matrix holds. -/
structure DmGeometry where
  rows : Nat
  cols : Nat
  rv : Nat
  rh : Nat
  k : Nat
  deriving DecidableEq, Repr

/-- The 30 rows of the geometry ROM (44_layout_dm.md R260). -/
def dmRom : List DmGeometry :=
  [⟨10, 10, 1, 1, 8⟩, ⟨12, 12, 1, 1, 12⟩, ⟨14, 14, 1, 1, 18⟩, ⟨16, 16, 1, 1, 24⟩, ⟨18, 18, 1, 1, 32⟩,
   ⟨20, 20, 1, 1, 40⟩, ⟨22, 22, 1, 1, 50⟩, ⟨24, 24, 1, 1, 60⟩, ⟨26, 26, 1, 1, 72⟩, ⟨32, 32, 2, 2, 98⟩]
  ++ [⟨36, 36, 2, 2, 128⟩, ⟨40, 40, 2, 2, 162⟩, ⟨44, 44, 2, 2, 200⟩, ⟨48, 48, 2, 2, 242⟩, ⟨52, 52, 2, 2, 288⟩,
      ⟨64, 64, 4, 4, 392⟩, ⟨72, 72, 4, 4, 512⟩, ⟨80, 80, 4, 4, 648⟩, ⟨88, 88, 4, 4, 800⟩, ⟨96, 96, 4, 4, 968⟩]
  ++ [⟨104, 104, 4, 4, 1152⟩, ⟨120, 120, 6, 6, 1458⟩, ⟨132, 132, 6, 6, 1800⟩, ⟨144, 144, 6, 6, 2178⟩,
      ⟨8, 18, 1, 1, 12⟩, ⟨8, 32, 1, 2, 21⟩, ⟨12, 26, 1, 1, 30⟩, ⟨12, 36, 1, 2, 40⟩, ⟨16, 36, 1, 2, 56⟩, ⟨16, 48, 1, 2, 77⟩]

/-- The ROM entry of a symbol size (44_layout_dm.md R260, R270). -/
def dmGeometry (rows cols : Nat) : Option DmGeometry :=
  dmRom.find? (fun g => g.rows == rows && g.cols == cols)

/-- `h = ROWS / RV - 2`, the data rows of a region (44_layout_dm.md R260). -/
def DmGeometry.h (g : DmGeometry) : Nat := g.rows / g.rv - 2

/-- `w = COLS / RH - 2`, the data columns of a region (44_layout_dm.md R260). -/
def DmGeometry.w (g : DmGeometry) : Nat := g.cols / g.rh - 2

/-- `nrow = RV * h`, the rows of the mapping matrix (44_layout_dm.md R260). -/
def DmGeometry.nrow (g : DmGeometry) : Nat := g.rv * g.h

/-- `ncol = RH * w`, the columns of the mapping matrix (44_layout_dm.md R260). -/
def DmGeometry.ncol (g : DmGeometry) : Nat := g.rh * g.w

/-! ### The mapping matrix -/

/-- A written entry of the mapping matrix (44_layout_dm.md R261): module `(row, col)` takes bit `bit` (1 = most significant) of
codeword `k` (1-based). -/
structure DmEntry where
  row : Nat
  col : Nat
  k : Nat
  bit : Nat
  deriving DecidableEq, Repr

/-- The mapping matrix `A`: its written entries, the last written first; every other entry is empty (44_layout_dm.md R261). -/
abbrev DmMatrix := List DmEntry

/-- `A[row][col]`, `none` when it is empty (44_layout_dm.md R261, R265). -/
def DmMatrix.at (a : DmMatrix) (row col : Nat) : Option (Nat × Nat) :=
  match List.find? (fun e => e.row == row && e.col == col) a with
  | some e => some (e.k, e.bit)
  | none => none

/-- The coordinates that `module(row, col, ...)` writes: negative ones wrap around (44_layout_dm.md R262). -/
def dmWrap (nrow ncol : Nat) (row col : Int) : Int × Int :=
  let (row, col) := if row < 0 then (row + nrow, col + 4 - ((nrow + 4) % 8 : Nat)) else (row, col)
  if col < 0 then (row + 4 - ((ncol + 4) % 8 : Nat), col + ncol) else (row, col)

/-- `module(row, col, k, bit)` (44_layout_dm.md R262). -/
def dmModule (nrow ncol : Nat) (row col : Int) (k bit : Nat) (a : DmMatrix) : DmMatrix :=
  let p := dmWrap nrow ncol row col
  ⟨p.1.toNat, p.2.toNat, k, bit⟩ :: a

/-- The eight modules of codeword `k` at the given coordinates, bits 1 to 8 in order. -/
def dmPlace (nrow ncol k : Nat) (at_ : List (Int × Int)) (a : DmMatrix) : DmMatrix :=
  (at_.zipIdx 1).foldl (fun a p => dmModule nrow ncol p.1.1 p.1.2 k p.2 a) a

/-- The coordinates of the utah placement anchored at `(row, col)` (44_layout_dm.md R263). -/
def dmUtah (row col : Int) : List (Int × Int) :=
  [(row - 2, col - 2), (row - 2, col - 1), (row - 1, col - 2), (row - 1, col - 1), (row - 1, col),
   (row, col - 2), (row, col - 1), (row, col)]

/-- The coordinates of corner placement 1 (44_layout_dm.md R264). -/
def dmCorner1 (nrow ncol : Int) : List (Int × Int) :=
  [(nrow - 1, 0), (nrow - 1, 1), (nrow - 1, 2), (0, ncol - 2), (0, ncol - 1), (1, ncol - 1), (2, ncol - 1), (3, ncol - 1)]

/-- The coordinates of corner placement 2 (44_layout_dm.md R264). -/
def dmCorner2 (nrow ncol : Int) : List (Int × Int) :=
  [(nrow - 3, 0), (nrow - 2, 0), (nrow - 1, 0), (0, ncol - 4), (0, ncol - 3), (0, ncol - 2), (0, ncol - 1), (1, ncol - 1)]

/-- The coordinates of corner placement 3 (44_layout_dm.md R264). -/
def dmCorner3 (nrow ncol : Int) : List (Int × Int) :=
  [(nrow - 3, 0), (nrow - 2, 0), (nrow - 1, 0), (0, ncol - 2), (0, ncol - 1), (1, ncol - 1), (2, ncol - 1), (3, ncol - 1)]

/-- The coordinates of corner placement 4 (44_layout_dm.md R264). -/
def dmCorner4 (nrow ncol : Int) : List (Int × Int) :=
  [(nrow - 1, 0), (nrow - 1, ncol - 1), (0, ncol - 3), (0, ncol - 2), (0, ncol - 1), (1, ncol - 3), (1, ncol - 2), (1, ncol - 1)]

/-! ### The diagonal sweep -/

/-- The sweep's variables (44_layout_dm.md R266): the next codeword number, the anchor, the matrix. -/
structure DmSweep where
  k : Nat
  row : Int
  col : Int
  a : DmMatrix
  deriving DecidableEq, Repr

/-- Place the next codeword when a condition holds (44_layout_dm.md R266). -/
def DmSweep.placeIf (s : DmSweep) (nrow ncol : Nat) (cond : Bool) (at_ : List (Int × Int)) : DmSweep :=
  if cond then { s with k := s.k + 1, a := dmPlace nrow ncol s.k at_ s.a } else s

/-- `A[row][col]` is empty at the anchor (44_layout_dm.md R265). -/
def DmSweep.anchorEmpty (s : DmSweep) : Bool := (s.a.at s.row.toNat s.col.toNat).isNone

/-- The four `if` tests at the top of the outer loop, in order (44_layout_dm.md R266). -/
def DmSweep.corners (s : DmSweep) (nrow ncol : Nat) : DmSweep :=
  let s := s.placeIf nrow ncol (decide (s.row = (nrow : Int)) && decide (s.col = 0)) (dmCorner1 nrow ncol)
  let s := s.placeIf nrow ncol (decide (s.row = (nrow : Int) - 2) && decide (s.col = 0) && decide (ncol % 4 ≠ 0)) (dmCorner2 nrow ncol)
  let s := s.placeIf nrow ncol (decide (s.row = (nrow : Int) - 2) && decide (s.col = 0) && decide (ncol % 8 = 4)) (dmCorner3 nrow ncol)
  s.placeIf nrow ncol (decide (s.row = (nrow : Int) + 4) && decide (s.col = 2) && decide (ncol % 8 = 0)) (dmCorner4 nrow ncol)

/-- The inner loop up and to the right (44_layout_dm.md R266); the fuel bounds its turns. -/
def DmSweep.upRight (nrow ncol : Nat) : Nat → DmSweep → DmSweep
  | 0, s => s
  | fuel + 1, s =>
    let s := s.placeIf nrow ncol (decide (s.row < (nrow : Int)) && decide (0 ≤ s.col) && s.anchorEmpty) (dmUtah s.row s.col)
    let s := { s with row := s.row - 2, col := s.col + 2 }
    if 0 ≤ s.row ∧ s.col < (ncol : Int) then DmSweep.upRight nrow ncol fuel s else s

/-- The inner loop down and to the left (44_layout_dm.md R266); the fuel bounds its turns. -/
def DmSweep.downLeft (nrow ncol : Nat) : Nat → DmSweep → DmSweep
  | 0, s => s
  | fuel + 1, s =>
    let s := s.placeIf nrow ncol (decide (0 ≤ s.row) && decide (s.col < (ncol : Int)) && s.anchorEmpty) (dmUtah s.row s.col)
    let s := { s with row := s.row + 2, col := s.col - 2 }
    if s.row < (nrow : Int) ∧ 0 ≤ s.col then DmSweep.downLeft nrow ncol fuel s else s

/-- One turn of the outer loop (44_layout_dm.md R266). -/
def DmSweep.turn (s : DmSweep) (nrow ncol : Nat) : DmSweep :=
  let s := DmSweep.upRight nrow ncol (nrow + ncol + 8) (s.corners nrow ncol)
  let s := DmSweep.downLeft nrow ncol (nrow + ncol + 8) { s with row := s.row + 1, col := s.col + 3 }
  { s with row := s.row + 3, col := s.col + 1 }

/-- The outer loop (44_layout_dm.md R266); the fuel bounds its turns. -/
def DmSweep.run (nrow ncol : Nat) : Nat → DmSweep → DmSweep
  | 0, s => s
  | fuel + 1, s =>
    let s := s.turn nrow ncol
    if s.row < (nrow : Int) ∨ s.col < (ncol : Int) then DmSweep.run nrow ncol fuel s else s

/-- The sweep of an `nrow` x `ncol` matrix from `k = 1`, `row = 4`, `col = 0` (44_layout_dm.md R266). -/
def dmSweep (nrow ncol : Nat) : DmSweep := DmSweep.run nrow ncol (nrow + ncol + 8) ⟨1, 4, 0, []⟩

/-! ### The symbol -/

/-- Position `(y, x)` of a module inside its region's border (44_layout_dm.md R269) is on the border. -/
def DmGeometry.isBorder (g : DmGeometry) (r c : Nat) : Bool :=
  let y := r % (g.h + 2)
  let x := c % (g.w + 2)
  decide (y = 0) || decide (y = g.h + 1) || decide (x = 0) || decide (x = g.w + 1)

/-- The value of a border module (44_layout_dm.md R269). -/
def DmGeometry.borderDark (g : DmGeometry) (r c : Nat) : Bool :=
  let y := r % (g.h + 2)
  let x := c % (g.w + 2)
  if y = g.h + 1 ∨ x = 0 then true
  else if y = 0 then decide (x % 2 = 0)
  else decide (y % 2 = 1)

/-- The mapping-matrix entry of a symbol module inside a region: the inverse of `R = row + 2*(row div h) + 1`,
`C = col + 2*(col div w) + 1` (44_layout_dm.md R268). -/
def DmGeometry.entryOf (g : DmGeometry) (r c : Nat) : Nat × Nat :=
  (r / (g.h + 2) * g.h + (r % (g.h + 2) - 1), c / (g.w + 2) * g.w + (c % (g.w + 2) - 1))

/-- The value of the fixed corner module at a matrix entry that the sweep leaves empty (44_layout_dm.md R267): dark on the diagonal. -/
def DmGeometry.fixedDark (g : DmGeometry) (row col : Nat) : Bool :=
  (decide (row + 1 = g.nrow) && decide (col + 1 = g.ncol)) || (decide (row + 2 = g.nrow) && decide (col + 2 = g.ncol))

/-- `(r, c)` is a module of the symbol. -/
def DmGeometry.inSymbol (g : DmGeometry) (r c : Nat) : Bool := decide (r < g.rows) && decide (c < g.cols)

/-- `GRID[r][c]` of the symbol (44_layout_dm.md R270) for the matrix `a` and the final-stream bytes `fsb`. -/
def DmGeometry.dark (g : DmGeometry) (a : DmMatrix) (fsb : Nat → Byte) (r c : Nat) : Bool :=
  if g.inSymbol r c then
    if g.isBorder r c then g.borderDark r c
    else
      match a.at (g.entryOf r c).1 (g.entryOf r c).2 with
      | some (k, bit) => (fsb (k - 1)).getLsbD (8 - bit)
      | none => g.fixedDark (g.entryOf r c).1 (g.entryOf r c).2
  else false

/-- `RESV[r][c]` of the symbol (44_layout_dm.md R267, R269, R270). -/
def DmGeometry.reserved (g : DmGeometry) (a : DmMatrix) (r c : Nat) : Bool :=
  g.inSymbol r c && (g.isBorder r c || (a.at (g.entryOf r c).1 (g.entryOf r c).2).isNone)

/-- The size in `DM_SIZE` as numbers (10_state.md R44). -/
def State.dmRows (s : State) : Nat := s.regs.dmSize.rows.toNat

/-- The size in `DM_SIZE` as numbers (10_state.md R44). -/
def State.dmCols (s : State) : Nat := s.regs.dmSize.cols.toNat

/-- The ROM entry of `DM_SIZE` (44_layout_dm.md R270). -/
def State.dmEntry (s : State) : Option DmGeometry := dmGeometry s.dmRows s.dmCols

/-- The effect of DM_LAYOUT for a ROM entry (44_layout_dm.md R270). -/
def State.layoutDm (s : State) (g : DmGeometry) : State :=
  let a := (dmSweep g.nrow g.ncol).a
  s.setGrid g.rows g.cols (g.dark a (s.elem .fsb)) (g.reserved a)

/-- DM_LAYOUT (44_layout_dm.md R270). -/
def execDmLayout (s : State) : Result :=
  s.command
    [(s.dmEntry.isNone, .descriptorInvalid),
     (s.dmEntry.any (fun g => decide (s.fsLenNat ≠ g.k)), .internalConsistency)]
    (fun s => match s.dmEntry with
      | some g => s.layoutDm g
      | none => s)

end Sys2Proof.Machine
end

