-- ==== Sys2Proof/Machine/Gf.lean ====
section
/-! DEFINITION. GF(256) arithmetic in the two fields (42_gf256.md R190 to R198) and the six GF commands (R200 to R205). -/

namespace Sys2Proof.Machine

/-! ### The fields and their tables -/

/-- `P_F`, the field polynomial as a 9-bit number (42_gf256.md R190, R191, R192). -/
def GField.poly : GField → Nat
  | .dm => 0x12D
  | .qr => 0x11D

/-- One turn of the table loop (42_gf256.md R192): shift left, and reduce when bit 8 of the 9-bit intermediate is 1. -/
def gfNext (f : GField) (x : Nat) : Nat :=
  if (2 * x).testBit 8 then (2 * x) ^^^ f.poly else 2 * x

/-- The next `n` entries of the antilog table, the first of them `x` (42_gf256.md R192). -/
def expEntries (f : GField) : Nat → Nat → List Nat
  | 0, _ => []
  | n + 1, x => x :: expEntries f n (gfNext f x)

/-- `EXP_F[0..254]` (42_gf256.md R192). -/
def expTable (f : GField) : List Nat := expEntries f 255 1

/-- `gf_exp_F(k) = EXP_F[k mod 255]` (42_gf256.md R197). -/
def gfExp (f : GField) (k : Nat) : Byte := BitVec.ofNat 8 ((expTable f).getD (k % 255) 0)

/-- `gf_log_F(a) = LOG_F[a]`, for `a ≠ 0` (42_gf256.md R192, R198): the index of `a` in the antilog table. -/
def gfLog (f : GField) (a : Byte) : Nat := (expTable f).idxOf a.toNat

/-! ### The operations -/

/-- `gf_add(a, b)` (42_gf256.md R194). -/
def gfAdd (a b : Byte) : Byte := a ^^^ b

/-- `gf_mul_F(a, b)` (42_gf256.md R194). -/
def gfMul (f : GField) (a b : Byte) : Byte :=
  if a = 0 ∨ b = 0 then 0 else gfExp f ((gfLog f a + gfLog f b) % 255)

/-- `gf_div_F(a, b)`, for `b ≠ 0` (42_gf256.md R195). -/
def gfDiv (f : GField) (a b : Byte) : Byte :=
  if a = 0 then 0 else gfExp f ((gfLog f a + 255 - gfLog f b) % 255)

/-- `gf_inv_F(a)`, for `a ≠ 0` (42_gf256.md R196). -/
def gfInv (f : GField) (a : Byte) : Byte := gfExp f ((255 - gfLog f a) % 255)

/-! ### The commands -/

/-- `RESULT <- zext_32(b)` (42_gf256.md section 3). -/
def State.setResult (s : State) (b : Byte) : State :=
  { s with regs := { s.regs with result := b.setWidth 32 } }

/-- GF_ADD (42_gf256.md R200). -/
def execGfAdd (a b : Byte) (s : State) : Result := s.command [] (fun s => s.setResult (gfAdd a b))

/-- GF_MUL (42_gf256.md R201). -/
def execGfMul (a b : Byte) (s : State) : Result := s.command [] (fun s => s.setResult (gfMul s.field a b))

/-- GF_DIV (42_gf256.md R202). -/
def execGfDiv (a b : Byte) (s : State) : Result :=
  s.command [(b == 0, .gfDomain)] (fun s => s.setResult (gfDiv s.field a b))

/-- GF_INV (42_gf256.md R203). -/
def execGfInv (a : Byte) (s : State) : Result :=
  s.command [(a == 0, .gfDomain)] (fun s => s.setResult (gfInv s.field a))

/-- GF_EXP (42_gf256.md R204). -/
def execGfExp (k : Nat) (s : State) : Result := s.command [] (fun s => s.setResult (gfExp s.field k))

/-- GF_LOG (42_gf256.md R205). -/
def execGfLog (a : Byte) (s : State) : Result :=
  s.command [(a == 0, .gfDomain)] (fun s => s.setResult (BitVec.ofNat 8 (gfLog s.field a)))

end Sys2Proof.Machine
end

