-- ==== Sys2Proof/Machine/QrLayout.lean ====
section
/-! DEFINITION. The QR layout engine: function patterns, format and version information, data placement, masking, QR_LAYOUT
(45_layout_qr.md R290 to R310). -/

namespace Sys2Proof.Machine

/-! ### Function patterns -/

/-- `N = 17 + 4V` (45_layout_qr.md R290). -/
def qrSize (v : Nat) : Nat := 17 + 4 * v

/-- The distance of two numbers. -/
def absDiff (a b : Nat) : Nat := if a ≤ b then b - a else a - b

/-- The Chebyshev distance of `(r, c)` from a centre (45_layout_qr.md R291). -/
def chebyshev (r c r0 c0 : Nat) : Nat := max (absDiff r r0) (absDiff c c0)

/-- The centres of the finder patterns (45_layout_qr.md R291). -/
def qrFinderCentres (v : Nat) : List (Nat × Nat) :=
  [(3, 3), (3, qrSize v - 4), (qrSize v - 4, 3)]

/-- The finder or separator value of a module; `none` where there is neither (45_layout_qr.md R291). -/
def qrFinder (v r c : Nat) : Option Bool :=
  match (qrFinderCentres v).find? (fun p => decide (chebyshev r c p.1 p.2 ≤ 4)) with
  | some p => some (decide (chebyshev r c p.1 p.2 ≠ 2) && decide (chebyshev r c p.1 p.2 ≠ 4))
  | none => none

/-- `num`, the number of alignment coordinates of a version from 2 on (45_layout_qr.md R292). -/
def qrAlignCount (v : Nat) : Nat := v / 7 + 2

/-- `step`, the distance of neighbouring alignment coordinates (45_layout_qr.md R292). -/
def qrAlignStep (v : Nat) : Nat :=
  if v = 32 then 26 else (4 * v + 2 * qrAlignCount v + 1) / (2 * qrAlignCount v - 2) * 2

/-- The alignment-pattern centre coordinates, ascending (45_layout_qr.md R292). -/
def qrAlignPositions (v : Nat) : List Nat :=
  if v ≤ 1 then []
  else 6 :: (List.range (qrAlignCount v - 1)).map (fun i => qrSize v - 7 - (qrAlignCount v - 2 - i) * qrAlignStep v)

/-- The centres of the alignment patterns: every pair of coordinates but the three over a finder (45_layout_qr.md R293). -/
def qrAlignCentres (v : Nat) : List (Nat × Nat) :=
  let pos := qrAlignPositions v
  let first := pos.headD 0
  let last := pos.getLastD 0
  (pos.flatMap (fun a => pos.map (fun b => (a, b)))).filter
    (fun p => !(p == (first, first) || p == (first, last) || p == (last, first)))

/-- The alignment value of a module; `none` where there is no alignment pattern (45_layout_qr.md R293). -/
def qrAlignment (centres : List (Nat × Nat)) (r c : Nat) : Option Bool :=
  match centres.find? (fun p => decide (chebyshev r c p.1 p.2 ≤ 2)) with
  | some p => some (decide (chebyshev r c p.1 p.2 ≠ 1))
  | none => none

/-- The timing value of a module; `none` off row 6 and column 6 (45_layout_qr.md R294). -/
def qrTiming (r c : Nat) : Option Bool :=
  if r = 6 then some (decide (c % 2 = 0)) else if c = 6 then some (decide (r % 2 = 0)) else none

/-! ### Format and version information -/

/-- The mask condition of a data module in row `i`, column `j` (45_layout_qr.md R296). -/
def qrMaskHolds (mask i j : Nat) : Bool :=
  match mask with
  | 0 => decide ((i + j) % 2 = 0)
  | 1 => decide (i % 2 = 0)
  | 2 => decide (j % 3 = 0)
  | 3 => decide ((i + j) % 3 = 0)
  | 4 => decide ((i / 2 + j / 3) % 2 = 0)
  | 5 => decide (i * j % 2 + i * j % 3 = 0)
  | 6 => decide ((i * j % 2 + i * j % 3) % 2 = 0)
  | _ => decide (((i + j) % 2 + i * j % 3) % 2 = 0)

/-- One turn of a BCH division with generator `poly` whose degree is `deg`: `(rem << 1) xor ((rem >> (deg-1)) * poly)`
(45_layout_qr.md R297, R299). -/
def bchStep (poly deg rem : Nat) : Nat := (rem <<< 1) ^^^ ((rem >>> (deg - 1)) * poly)

/-- `n` turns of a BCH division. -/
def bchSteps (poly deg : Nat) : Nat → Nat → Nat
  | 0, rem => rem
  | n + 1, rem => bchSteps poly deg n (bchStep poly deg rem)

/-- The 15-bit format word (45_layout_qr.md R297). -/
def qrFormatWord (level mask : Nat) : Nat :=
  let data := (level <<< 3) ||| mask
  ((data <<< 10) ||| bchSteps 0x537 10 10 data) ^^^ 0x5412

/-- The 18-bit version word (45_layout_qr.md R299). -/
def qrVersionWord (v : Nat) : Nat := (v <<< 12) ||| bchSteps 0x1F25 12 12 v

/-- Where bit `k` of the format word goes in the first copy (45_layout_qr.md R298). -/
def qrFormatFirst (k : Nat) : Nat × Nat :=
  if k ≤ 5 then (k, 8) else if k = 6 then (7, 8) else if k = 7 then (8, 8) else if k = 8 then (8, 7) else (8, 14 - k)

/-- Where bit `k` of the format word goes in the second copy, in a symbol of `n` modules a side (45_layout_qr.md R298). -/
def qrFormatSecond (n k : Nat) : Nat × Nat :=
  if k ≤ 7 then (8, n - 1 - k) else (n - 15 + k, 8)

/-- The format area and the dark module with their values (45_layout_qr.md R295, R298). -/
def qrFormatModules (v fmt : Nat) : List ((Nat × Nat) × Bool) :=
  (List.range 15).map (fun k => (qrFormatFirst k, fmt.testBit k))
  ++ (List.range 15).map (fun k => (qrFormatSecond (qrSize v) k, fmt.testBit k))
  ++ [((qrSize v - 8, 8), true)]

/-- The version blocks with their values, for versions from 7 on (45_layout_qr.md R300). -/
def qrVersionModules (v : Nat) : List ((Nat × Nat) × Bool) :=
  if v < 7 then []
  else
    (List.range 18).map (fun k => ((k / 3, qrSize v - 11 + k % 3), (qrVersionWord v).testBit k))
    ++ (List.range 18).map (fun k => ((qrSize v - 11 + k % 3, k / 3), (qrVersionWord v).testBit k))

/-- The value a list gives a module; `none` where it gives none. -/
def moduleValue (ms : List ((Nat × Nat) × Bool)) (r c : Nat) : Option Bool :=
  match ms.find? (fun m => m.1.1 == r && m.1.2 == c) with
  | some m => some m.2
  | none => none

/-- The first of two values. -/
def firstOf (x y : Option Bool) : Option Bool :=
  match x with
  | some b => some b
  | none => y

/-- What the layout needs of a version and a format word, computed once: the side, the alignment centres, the listed modules. -/
structure QrFrame where
  version : Nat
  side : Nat
  centres : List (Nat × Nat)
  format : List ((Nat × Nat) × Bool)
  versionInfo : List ((Nat × Nat) × Bool)
  deriving DecidableEq, Repr

/-- The function patterns of a version with a format word. -/
def qrFrame (v fmt : Nat) : QrFrame :=
  ⟨v, qrSize v, qrAlignCentres v, qrFormatModules v fmt, qrVersionModules v⟩

/-- The value of a function module after the whole drawing, `none` for a data module: a later drawing step overwrites an earlier one,
so the format and dark module (step 9) come before version (6), alignment (4), finders (3) and timing (2) (45_layout_qr.md R304). -/
def QrFrame.function (q : QrFrame) (r c : Nat) : Option Bool :=
  firstOf (moduleValue q.format r c)
    (firstOf (moduleValue q.versionInfo r c)
      (firstOf (qrAlignment q.centres r c)
        (firstOf (qrFinder q.version r c) (qrTiming r c))))

/-! ### Data placement -/

/-- `M(V)`, the number of data modules (45_layout_qr.md R301). -/
def qrDataModules (v : Nat) : Nat :=
  let a := v / 7 + 2
  (16 * v + 128) * v + 64 - (if 2 ≤ v then (25 * a - 10) * a - 55 else 0) - (if 7 ≤ v then 36 else 0)

/-- The right columns of the column pairs from `right` on, skipping the vertical timing column (45_layout_qr.md R302); the fuel bounds
the turns of the loop. -/
def qrColumnPairs : Nat → Nat → List Nat
  | 0, _ => []
  | fuel + 1, right =>
    if 1 ≤ right then
      let right := if right = 6 then 5 else right
      right :: qrColumnPairs fuel (right - 2)
    else []

/-- The modules of the column pair `(right, right - 1)` in the order of the sweep (45_layout_qr.md R302). -/
def qrPairOrder (n right : Nat) : List (Nat × Nat) :=
  (List.range n).flatMap (fun v =>
    let r := if (right + 1) &&& 2 = 0 then n - 1 - v else v
    [(r, right), (r, right - 1)])

/-- The data modules in the order in which the stream's bits are written (45_layout_qr.md R302). -/
def QrFrame.path (q : QrFrame) : List (Nat × Nat) :=
  ((qrColumnPairs q.side (q.side - 1)).flatMap (qrPairOrder q.side)).filter (fun p => (q.function p.1 p.2).isNone)

/-- Bit `t` of the final stream, most significant bit of each codeword first; 0 from the stream's end on, for the remainder modules
(45_layout_qr.md R302, R303). -/
def streamBitOr0 (fsb : Nat → Byte) (fsLen t : Nat) : Bool :=
  if t < 8 * fsLen then (fsb (t / 8)).getLsbD (7 - t % 8) else false

/-- The data modules that hold a 1 after the placement (45_layout_qr.md R302), as a bit map with `(r, c)` at `256 r + c`; `t` is the
number of modules visited before. -/
def placeBits (bit : Nat → Bool) : Nat → List (Nat × Nat) → Nat → Nat
  | _, [], m => m
  | t, p :: ps, m => placeBits bit (t + 1) ps (if bit t then m ||| 1 <<< (256 * p.1 + p.2) else m)

/-- `(r, c)` is a module of the symbol. -/
def QrFrame.inSymbol (q : QrFrame) (r c : Nat) : Bool := decide (r < q.side) && decide (c < q.side)

/-- `GRID[r][c]` of the symbol (45_layout_qr.md R310): a function module's value, or the placed bit, inverted where the mask condition
holds. -/
def QrFrame.dark (q : QrFrame) (mask bits r c : Nat) : Bool :=
  if q.inSymbol r c then
    match q.function r c with
    | some b => b
    | none => bits.testBit (256 * r + c) ^^ qrMaskHolds mask r c
  else false

/-- `RESV[r][c]` of the symbol (45_layout_qr.md R310): 1 on every function module. -/
def QrFrame.reserved (q : QrFrame) (r c : Nat) : Bool := q.inSymbol r c && (q.function r c).isSome

/-- `QR_CFG.VERSION`, `LEVEL` and `MASK` as numbers (10_state.md R47). -/
def State.qrVersion (s : State) : Nat := s.regs.qrCfg.version.toNat

/-- `QR_CFG.LEVEL` as a number (10_state.md R47). -/
def State.qrLevel (s : State) : Nat := s.regs.qrCfg.level.toNat

/-- `QR_CFG.MASK` as a number (10_state.md R47). -/
def State.qrMask (s : State) : Nat := s.regs.qrCfg.mask.toNat

/-- The effect of QR_LAYOUT (45_layout_qr.md R310). -/
def State.layoutQr (s : State) : State :=
  let q := qrFrame s.qrVersion (qrFormatWord s.qrLevel s.qrMask)
  let bits := placeBits (streamBitOr0 (s.elem .fsb) s.fsLenNat) 0 q.path 0
  s.setGrid q.side q.side (q.dark s.qrMask bits) q.reserved

/-- QR_LAYOUT (45_layout_qr.md R310). -/
def execQrLayout (s : State) : Result :=
  s.command
    [(decide (s.qrVersion = 0) || decide (40 < s.qrVersion), .descriptorInvalid),
     (decide (qrDataModules s.qrVersion < 8 * s.fsLenNat) || decide (7 < qrDataModules s.qrVersion - 8 * s.fsLenNat),
      .internalConsistency)]
    (fun s => s.layoutQr)

end Sys2Proof.Machine
end

