-- ==== Sys2Proof/Machine/ReedSolomon.lean ====
section
/-! DEFINITION. The Reed–Solomon coder and block interleaving (43_reed_solomon.md R220 to R232). -/

namespace Sys2Proof.Machine

/-! ### The code -/

/-- `b0_F`, the exponent of the first root (43_reed_solomon.md R220). -/
def GField.firstRoot : GField → Nat
  | .dm => 1
  | .qr => 0

/-- Multiply a polynomial (coefficients lowest order first) by `(x + r)` (43_reed_solomon.md R220). -/
def mulByRoot (f : GField) (r : Byte) (g : List Byte) : List Byte :=
  List.zipWith gfAdd (0 :: g) (g.map (gfMul f · r) ++ [0])

/-- `g_F,n`, the generator polynomial of degree `n`, its `n + 1` coefficients lowest order first (43_reed_solomon.md R220). -/
def genPoly (f : GField) : Nat → List Byte
  | 0 => [1]
  | n + 1 => mulByRoot f (gfExp f (f.firstRoot + n)) (genPoly f n)

/-- One turn of the division register `e` for the data codeword `d` (43_reed_solomon.md R222); `taps` is `g[n-1], ..., g[0]`. -/
def rsShift (f : GField) (taps e : List Byte) (d : Byte) : List Byte :=
  let fb := gfAdd d (e.headD 0)
  List.zipWith gfAdd (e.tail ++ [0]) (taps.map (gfMul f fb ·))

/-- The coefficients `g[n-1], ..., g[0]` of the generator polynomial. -/
def genTaps (f : GField) (n : Nat) : List Byte := ((genPoly f n).take n).reverse

/-- `rs_ecc_F(d, n)`, the `n` ECC codewords of a data sequence (43_reed_solomon.md R222). -/
def rsEcc (f : GField) (d : List Byte) (n : Nat) : List Byte :=
  d.foldl (rsShift f (genTaps f n)) (List.replicate n 0)

/-! ### Register and buffer effects -/

/-- The generator side effect (43_reed_solomon.md R232): `GEN[k]` is the coefficient of `x^k` for `k ≤ n` and 0 above, `GEN_DEG = n`. -/
def State.setGen (s : State) (f : GField) (n : Nat) : State :=
  let t := s.writeBytes Buffer.gen.base (genPoly f n ++ List.replicate (255 - n) 0)
  { t with regs := { t.regs with genDeg := BitVec.ofNat 8 n } }

/-- `FS_LEN <- n` (10_state.md R39). -/
def State.setFsLen (s : State) (n : Nat) : State :=
  { s with regs := { s.regs with fsLen := BitVec.ofNat 13 n } }

/-- Write bytes to `FSB` at the indexes `pos`, `pos + stride`, ... (43_reed_solomon.md R224). -/
def State.writeStrided (stride : Nat) : Nat → List Byte → State → State
  | _, [], s => s
  | pos, b :: bs, s => State.writeStrided stride (pos + stride) bs (s.writeBytes (Buffer.fsb.base + pos) [b])

/-! ### Interleaving -/

/-- The stream positions of the data codewords of block `b` of `blocks`: `b, b + blocks, ...` below `d` (43_reed_solomon.md R225). -/
def dmBlockIndexes (d blocks b : Nat) : List Nat :=
  (List.range ((d - b + blocks - 1) / blocks)).map (fun i => b + i * blocks)

/-- ECC codewords of several blocks in stream order: codeword 0 of every block in block order, then codeword 1, ...
(43_reed_solomon.md R225: position `D + j*B + b`; R228). -/
def interleaveEcc (n : Nat) (eccs : List (List Byte)) : List Byte :=
  (List.range n).flatMap (fun j => eccs.map (·.getD j 0))

/-- Data codewords of several blocks column by column, skipping a block that has no codeword `i` (43_reed_solomon.md R228). -/
def interleaveData (columns : Nat) (blocks : List (List Byte)) : List Byte :=
  (List.range columns).flatMap (fun i => blocks.filterMap (·[i]?))

/-- Read number 1 of the elements `b[i]` in a step: ECC_DM and ECC_QR read each `CWB` byte twice, once for the stream and once for its
block's ECC codewords (log 3 [DEDUCED, safe]). -/
def State.elemsAgain (s : State) (b : Buffer) (is : List Nat) : List Byte :=
  is.map (fun k => s.readByte 1 (b.base + k))

/-- The first index and the length of each QR block: group 1's blocks, then group 2's, as consecutive runs from `start` on
(43_reed_solomon.md R228, R229). -/
def qrRuns (q : QrBlk) : List (Nat × Nat) :=
  (List.range q.g1c.toNat).map (fun b => (b * q.g1d.toNat, q.g1d.toNat))
  ++ (List.range q.g2c.toNat).map (fun b => (q.g1c.toNat * q.g1d.toNat + b * q.g2d.toNat, q.g2d.toNat))

/-- The bound of the column loop: the greatest block length, over the groups with a nonzero block count (43_reed_solomon.md R229). -/
def qrColumns (q : QrBlk) : Nat :=
  max (if q.g1c = 0 then 0 else q.g1d.toNat) (if q.g2c = 0 then 0 else q.g2d.toNat)

/-! ### The commands -/

/-- RS_GENPOLY (43_reed_solomon.md R221). -/
def execRsGenpoly (n : Nat) (s : State) : Result :=
  s.command [(decide (n = 0), .argRange)] (fun s => s.setGen s.field n)

/-- RS_ENCODE (43_reed_solomon.md R224). -/
def execRsEncode (l n : Nat) (s : State) : Result :=
  let src := stridedBase s.regs.arg0
  let step := stridedStep s.regs.arg0
  let dst := stridedBase s.regs.arg1
  let stride := stridedStep s.regs.arg1
  s.command
    [(stridedReserved s.regs.arg0 || stridedReserved s.regs.arg1 || decide (n = 0) || decide (4096 < l)
        || decide (step = 0) || decide (stride = 0)
        || (decide (0 < l) && decide (4095 < src + (l - 1) * step)) || decide (4095 < dst + (n - 1) * stride),
      .argRange)]
    (fun s => (s.writeStrided stride dst
      (rsEcc s.field (s.elems .cwb ((List.range l).map (fun k => src + k * step))) n)).setGen s.field n)

/-- The final stream of ECC_DM (43_reed_solomon.md R225, R226): the data codewords in place, then the interleaved ECC codewords. -/
def State.dmStream (s : State) : List Byte :=
  let d := s.dmData
  let blocks := s.dmBlocks
  let n := s.dmEcc / blocks
  s.elems .cwb (List.range d)
    ++ interleaveEcc n ((List.range blocks).map (fun b => rsEcc .dm (s.elemsAgain .cwb (dmBlockIndexes d blocks b)) n))

/-- ECC_DM (43_reed_solomon.md R226). -/
def execEccDm (s : State) : Result :=
  s.command
    [(decide (s.dmBlocks = 0) || decide (s.dmEcc = 0) || decide (s.dmData = 0), .descriptorInvalid),
     (decide (4096 < s.dmData + s.dmEcc), .descriptorInvalid),
     (decide (s.dmEcc % s.dmBlocks ≠ 0), .internalConsistency),
     (decide (255 < s.dmEcc / s.dmBlocks), .descriptorInvalid),
     (decide (s.dmData < s.dmBlocks), .internalConsistency),
     (decide (s.cwLenNat ≠ s.dmData), .internalConsistency)]
    (fun s => ((s.writeBytes Buffer.fsb.base s.dmStream).setFsLen (s.dmData + s.dmEcc)).setGen .dm (s.dmEcc / s.dmBlocks))

/-- The final stream of ECC_QR (43_reed_solomon.md R228, R229): data column by column, then ECC column by column. -/
def State.qrStream (s : State) : List Byte :=
  let n := s.qrEccPerBlock
  let runs := qrRuns s.regs.qrBlk
  interleaveData (qrColumns s.regs.qrBlk)
      (runs.map (fun r => s.elems .cwb ((List.range r.2).map (r.1 + ·))))
    ++ interleaveEcc n (runs.map (fun r => rsEcc .qr (s.elemsAgain .cwb ((List.range r.2).map (r.1 + ·))) n))

/-- ECC_QR (43_reed_solomon.md R229). -/
def execEccQr (s : State) : Result :=
  let q := s.regs.qrBlk
  s.command
    [(decide (s.qrBlocks = 0), .descriptorInvalid),
     ((decide (0 < q.g1c.toNat) && decide (q.g1d.toNat = 0)) || (decide (0 < q.g2c.toNat) && decide (q.g2d.toNat = 0)),
      .descriptorInvalid),
     (decide (s.qrEccPerBlock = 0), .descriptorInvalid),
     (decide (4096 < s.qrData + s.qrEccTotal), .descriptorInvalid),
     (decide (s.cwLenNat ≠ s.qrData), .internalConsistency)]
    (fun s => ((s.writeBytes Buffer.fsb.base s.qrStream).setFsLen (s.qrData + s.qrEccTotal)).setGen .qr s.qrEccPerBlock)

end Sys2Proof.Machine
end

