-- ==== Sys2Proof/Machine/Dispatch.lean ====
section
/-! DEFINITION. One arm per constructor of Instr: the meaning of each command (30_encoding.md R114). -/

namespace Sys2Proof.Machine

def exec (i : Instr) (s : State) : Host.Outcome State Fault Refusal :=
  match i with
  | .nop => Sys2Proof.Machine.execNop s
  | .gridClear rows cols => Sys2Proof.Machine.execGridClear rows cols s
  | .bsClear => Sys2Proof.Machine.execBsClear s
  | .bsAppend w => Sys2Proof.Machine.execBsAppend w s
  | .bsAppendBytes count => Sys2Proof.Machine.execBsAppendBytes count s
  | .bsPadQr => Sys2Proof.Machine.execBsPadQr s
  | .bsToCw => Sys2Proof.Machine.execBsToCw s
  | .cwPadDm t => Sys2Proof.Machine.execCwPadDm t s
  | .gfAdd a b => Sys2Proof.Machine.execGfAdd a b s
  | .gfMul a b => Sys2Proof.Machine.execGfMul a b s
  | .gfDiv a b => Sys2Proof.Machine.execGfDiv a b s
  | .gfInv a => Sys2Proof.Machine.execGfInv a s
  | .gfExp k => Sys2Proof.Machine.execGfExp k s
  | .gfLog a => Sys2Proof.Machine.execGfLog a s
  | .rsGenpoly n => Sys2Proof.Machine.execRsGenpoly n s
  | .rsEncode l n => Sys2Proof.Machine.execRsEncode l n s
  | .eccDm => Sys2Proof.Machine.execEccDm s
  | .eccQr => Sys2Proof.Machine.execEccQr s
  | .dmLayout => Sys2Proof.Machine.execDmLayout s
  | .qrLayout => Sys2Proof.Machine.execQrLayout s

end Sys2Proof.Machine
end

