-- ==== Sys2Proof/Machine/Engine.lean ====
section
/-! DEFINITION. The engine's step (40_control.md R143) and whose turn it is: the host's next event, or the engine when the host has none
(70_reset_and_hazards.md R440; log 1 [DESIGN CHOICE, safe], log 2 [DESIGN CHOICE, safe]). -/

namespace Sys2Proof.Machine

/-- The engine's one indivisible step on the pending word (40_control.md R143): decode it, and run the command; a word that is no
command ends with ILLEGAL_COMMAND (30_encoding.md R113). -/
def State.engineStep (s : State) (w : Word) : Result :=
  match decode w with
  | .ok i => exec i s
  | .error _ => .next (s.raiseError .illegalCommand)

/-- The engine moves: it completes the pending command, or does nothing when there is none. -/
def State.engineTurn (s : State) : Result :=
  match s.pending with
  | some w => s.engineStep w
  | none => .next s

/-- The host polls `STATUS` once (30_encoding.md R117 `WAIT`). -/
def State.poll (s : State) : State := s.access (.read Reg.status.offset .four)

/-- One turn. With no host event left the pending command completes. A `WAIT` polls; it
is over when the value read has `BUSY = 0`, and while a command runs the engine moves (log 15 [DESIGN CHOICE, safe]). A check reads `STATUS`
once, and with `ERR = 1` the host does nothing more (48_host_stages.md R353, R355). -/
def State.turn (s : State) : Result :=
  match s.host with
  | [] => s.engineTurn
  | .access a :: rest => ({ s with host := rest }).hostAccess a
  | .engine :: rest => ({ s with host := rest }).engineTurn
  | .wait :: rest => if s.regs.status.busy then s.poll.engineTurn else .next ({ s with host := rest }).poll
  | .check :: rest => .next ({ s with host := if s.regs.status.err then [] else rest }).poll

/-- Nothing is pending and the host does nothing more. -/
def State.exhausted (s : State) : Bool := s.pending.isNone && s.host.isEmpty

/-- The access is a write to `CMD`. -/
def BusAccess.isCmdWrite : BusAccess → Bool
  | .read _ _ => false
  | .write off n _ => off == Reg.cmd.offset && n == .four

/-- From an idle state on, the host still writes `CMD`: the accesses before that write are made (an `ERR` that the host clears before it
checks is no error there), and a check that finds `ERR = 1` ends them. -/
def State.cmdAhead : List HostEvent → State → Bool
  | [], _ => false
  | .access a :: rest, s => a.isCmdWrite || State.cmdAhead rest (s.access a)
  | .engine :: rest, s => State.cmdAhead rest s
  | .wait :: rest, s => State.cmdAhead rest s
  | .check :: rest, s => !s.regs.status.err && State.cmdAhead rest s

/-- The state is at or after the end of the run (20_memory.md R99): `BUSY = 0`, `PENDING` is empty, and the host's last write to `CMD` is
behind it. What the host does after that write, its reads of the results and its acknowledgement, comes after the end. A run with
no write to `CMD` has ended at once (log 21 [DESIGN CHOICE, safe]). -/
def State.ended (s : State) : Bool := !s.regs.status.busy && s.pending.isNone && !State.cmdAhead s.host s

/-- The number of the next step (log 4 [DESIGN CHOICE, safe]). -/
def State.advance (s : State) : State := { s with draws := s.draws + 1 }

/-- A result, its next state advanced. -/
def advanceResult : Result → Result
  | .next s => .next s.advance
  | .fault r => .fault r
  | .refused r => .refused r

/-- The state in which the host has just written the command word and the engine moves next. -/
def State.withCommand (s : State) (w : Word) : State :=
  let t := s.start w
  { t with host := .engine :: t.host }

/-- A command word from its number as spec/opcode_table.json numbers its bits; bits above `nbits` are 0. -/
def tableWord (nbits w : Nat) : Word := BitVec.ofNat 32 (w % 2 ^ nbits)

end Sys2Proof.Machine
end

