-- ==== Sys2Proof/Machine/Step.lean ====
section
/-! DEFINITION. The step function, and how a command word is placed where the next step runs it. -/

namespace Sys2Proof.Machine

/-- One step: a host access or a whole command (00_scope.md R14, 40_control.md R143). With nothing pending and nothing more from the host the
state stays as it is. -/
def step (s : State) : Host.Outcome State Fault Refusal :=
  if s.exhausted then .next s else advanceResult s.turn

/-- `s` with a command word accepted by a `CMD` write (40_control.md R140) and the engine to move next, so that the very next step runs
it (log 1 [DESIGN CHOICE, safe]). -/
def State.withFetchWord (s : State) (nbits w : Nat) : State := s.withCommand (tableWord nbits w)

end Sys2Proof.Machine
end

