-- ==== Sys2Proof/Machine/Program.lean ====
section
/-! DEFINITION. Host programs (30_encoding.md R117 to R119): the assembler's lines, its pseudo-instructions, and the host events they
assemble to. -/

namespace Sys2Proof.Machine

/-- A line of a host program (30_encoding.md R117). -/
inductive Line where
  /-- `WR reg, v`. -/
  | wr (r : Reg) (v : Word)
  /-- `RD reg`. -/
  | rd (r : Reg)
  /-- `WRB buf[k], v`. -/
  | wrb (b : Buffer) (k : Nat) (v : Byte)
  /-- `RDB buf[k]`, `k` a byte offset in the window. -/
  | rdb (b : Buffer) (k : Nat)
  /-- `CMD mnemonic operands`. -/
  | cmd (i : Instr)
  /-- `WAIT`. -/
  | wait
  /-- The host's check of `STATUS.ERR` after a `DO` (48_host_stages.md R355), which the syntax of R117 has no line for (log 20 [DESIGN
  CHOICE, safe]). -/
  | check
  deriving DecidableEq, Repr

/-- A pseudo-instruction (30_encoding.md R119). -/
inductive Pseudo where
  /-- `DO mnemonic operands`. -/
  | run (i : Instr)
  /-- `APPEND w, v`. -/
  | append (w : Nat) (v : Word)
  /-- `APPENDB src, count`. -/
  | appendBytes (src count : Nat)
  /-- `PADQR cap`. -/
  | padQr (cap : Nat)
  /-- `RSENC src, S, dst, T, L, n`. -/
  | rsEnc (src srcStep dst dstStep l n : Nat)
  /-- `LOADCW k, b0, ..., bm`. -/
  | loadCw (k : Nat) (bytes : List Byte)
  /-- `LOADFS k, b0, ..., bm`. -/
  | loadFs (k : Nat) (bytes : List Byte)
  /-- `ACK`. -/
  | ack
  deriving DecidableEq, Repr

/-- `LOADCW` and `LOADFS`: one `WRB` a byte (30_encoding.md R119); one past the end of the buffer is refused as such a `WRB` is (log 22
[DESIGN CHOICE, safe]). -/
def loadLines (b : Buffer) : Nat → List Byte → List Line
  | _, [] => []
  | k, v :: vs => .wrb b k v :: loadLines b (k + 1) vs

/-- The expansion of a pseudo-instruction (30_encoding.md R119). An operand that does not fit its 32-bit register is cut to 32 bits and the
line is not refused, which the spec leaves open (log 18 [DESIGN CHOICE, unsafe]). -/
def Pseudo.expand : Pseudo → List Line
  | .run i => [.cmd i, .wait]
  | .append w v => [.wr .arg0 v, .cmd (.bsAppend w), .wait]
  | .appendBytes src count => [.wr .arg0 (BitVec.ofNat 32 src), .cmd (.bsAppendBytes count), .wait]
  | .padQr cap => [.wr .arg0 (BitVec.ofNat 32 cap), .cmd .bsPadQr, .wait]
  | .rsEnc src srcStep dst dstStep l n =>
    [.wr .arg0 (BitVec.ofNat 32 ((srcStep <<< 16) ||| src)), .wr .arg1 (BitVec.ofNat 32 ((dstStep <<< 16) ||| dst)),
     .cmd (.rsEncode l n), .wait]
  | .loadCw k bytes => loadLines .cwb k bytes
  | .loadFs k bytes => loadLines .fsb k bytes
  | .ack => [.wr .status 0x0000000E]

/-- The assembler accepts a line: a command's fields fit their bits (30_encoding.md R118), `WRB` names a writable buffer (R117), and the `k`
of `RDB` is a byte offset in the window (R117). The `k` of `WRB`, which R117 leaves without a bound, must be a byte of the buffer too (log 22
[DESIGN CHOICE, safe]). -/
def Line.ok : Line → Bool
  | .wr _ _ => true
  | .rd _ => true
  | .wrb b k _ => decide (k < b.size) && (b == .cwb || b == .fsb || b == .bsb)
  | .rdb b k => decide (k < b.size)
  | .cmd i => i.wf
  | .wait => true
  | .check => true

/-- What the host does for a line (30_encoding.md R117). -/
def Line.event : Line → HostEvent
  | .wr r v => .access (.write r.offset .four v)
  | .rd r => .access (.read r.offset .four)
  | .wrb b k v => .access (.write (b.base + k) .one (v.setWidth 32))
  | .rdb b k => .access (.read (b.base + k) .one)
  | .cmd i => .access (.write Reg.cmd.offset .four (encode i))
  | .wait => .wait
  | .check => .check

/-- Assemble a host program; `none` when the assembler refuses a line (30_encoding.md R118): then none of the program is run (log 22 [DESIGN
CHOICE, safe]). -/
def assemble (lines : List Line) : Option (List HostEvent) :=
  if lines.all Line.ok then some (lines.map Line.event) else none

/-- The machine with a host program to run (log 1 [DESIGN CHOICE, safe]). -/
def State.withProgram (s : State) (events : List HostEvent) : State := { s with host := events }

end Sys2Proof.Machine
end

