-- ==== Sys2Proof/Machine/Run.lean ====
section
/-! DEFINITION. Runs: the state in which a run ends (20_memory.md R99), and a host program carried through to its last access. -/

namespace Sys2Proof.Machine

/-- The end of a run (20_memory.md R99): the first state, at most `fuel` steps from here, in which the engine is idle after the host's last
write to `CMD`; `none` when no such state comes within them. -/
def State.runEnd : Nat → State → Option State
  | 0, s => if s.ended then some s else none
  | fuel + 1, s =>
    if s.ended then some s
    else
      match step s with
      | .next t => State.runEnd fuel t
      | .fault _ => none
      | .refused _ => none

/-- The state after all that the host does, when it comes within `fuel` steps. -/
def State.runHost : Nat → State → Option State
  | 0, s => if s.exhausted then some s else none
  | fuel + 1, s =>
    if s.exhausted then some s
    else
      match step s with
      | .next t => State.runHost fuel t
      | .fault _ => none
      | .refused _ => none

/-- Steps that are enough for these host events: an event takes one step, a `WAIT` one more, and the engine may move at the end. -/
def stepsFor (events : List HostEvent) : Nat := 2 * events.length + 1

/-- The machine after a host program (30_encoding.md R117); `none` when the assembler refuses a line or an access leaves the window. -/
def State.runProgram (s : State) (lines : List Line) : Option State :=
  match assemble lines with
  | some events => (s.withProgram events).runHost (stepsFor events)
  | none => none

end Sys2Proof.Machine
end

