-- ==== Sys2Proof/Machine/HostStages.lean ====
section
/-! DEFINITION. The host stages (48_host_stages.md R340 to R356): content encoding, size selection and the two pipelines. They are host
software, not engine behaviour (00_scope.md R5): functions from a content string, as code points, to a host program and to the Symbol it builds (log 16 [PRESUMED, unsafe]). -/

namespace Sys2Proof.Machine

/-- The error kinds of the source (48_host_stages.md R353). -/
inductive HostError where
  | capacityExceeded
  | invalidFixedSize
  | unsupportedInput
  | internalConsistencyFault
  deriving DecidableEq, Repr

/-- The source's kind of an engine error (48_host_stages.md R353); `none` for no error. -/
def hostErrorOf : ErrorCode → Option HostError
  | .none => none
  | .capacityExceeded => some .capacityExceeded
  | .illegalCommand => some .internalConsistencyFault
  | .argRange => some .internalConsistencyFault
  | .valueRange => some .internalConsistencyFault
  | .gfDomain => some .internalConsistencyFault
  | .alignment => some .internalConsistencyFault
  | .descriptorInvalid => some .internalConsistencyFault
  | .internalConsistency => some .internalConsistencyFault

/-- The error-correction level a caller names (48_host_stages.md R347). -/
inductive QrLevel where
  | l
  | m
  | q
  | h
  deriving DecidableEq, Repr

/-- The 2-bit code of a level (10_state.md R47). -/
def QrLevel.code : QrLevel → Nat
  | .l => 1
  | .m => 0
  | .q => 3
  | .h => 2

/-! ### Errors and the Symbol -/

/-- The host's error after a command: the source's kind of the code in `STATUS`, when `ERR = 1` (48_host_stages.md R353). -/
def State.hostError (s : State) : Option HostError :=
  if s.regs.status.err then hostErrorOf s.regs.status.errcode else none

/-- The module grid accessor of the source's Symbol (48_host_stages.md R354): `none` outside the dimensions, and after an error, when the
host reads no grid (R353). -/
def State.symbolModule (s : State) (r c : Nat) : Option Bool :=
  if s.regs.status.err = false ∧ r < s.regs.gridDim.rows.toNat ∧ c < s.regs.gridDim.cols.toNat then some (s.gridBit r c) else none

/-- The chosen size or version, which the host keeps (48_host_stages.md R354). -/
inductive SymbolSize where
  | dataMatrix (rows cols : Nat)
  | qr (version : Nat) (level : QrLevel)
  deriving DecidableEq, Repr

/-- The source's Symbol (48_host_stages.md R354): what the host keeps, the content string and the size, and what it reads from BSE, the
dimensions and the modules row by row. -/
structure Symbol where
  content : List Nat
  size : SymbolSize
  rows : Nat
  cols : Nat
  modules : List (List Bool)
  deriving DecidableEq, Repr

/-- `(row, column) -> dark/light` (48_host_stages.md R354). -/
def Symbol.dark (x : Symbol) (r c : Nat) : Option Bool := (x.modules.getD r [])[c]?

/-- What the host has prepared for one content string: what it keeps for the Symbol, and the program that drives BSE. -/
structure Job where
  content : List Nat
  size : SymbolSize
  lines : List Line
  deriving DecidableEq, Repr

/-- What a job gives in the state after its program: the host's error, or the Symbol (48_host_stages.md R353, R354). -/
def Job.result (j : Job) (s : State) : Except HostError Symbol :=
  match s.hostError with
  | some e => .error e
  | none =>
    let rows := s.regs.gridDim.rows.toNat
    let cols := s.regs.gridDim.cols.toNat
    .ok ⟨j.content, j.size, rows, cols, (List.range rows).map (fun r => (List.range cols).map (s.gridBit r))⟩

/-- Run a job's program on BSE (48_host_stages.md R355, R356); `none` only when the assembler refuses a line. -/
def Job.run (j : Job) (s : State) : Option (Except HostError Symbol) := (s.runProgram j.lines).map j.result

/-! ### Data Matrix content -/

/-- A code point is a digit '0'..'9'. -/
def isDigit (c : Nat) : Bool := decide (48 ≤ c) && decide (c ≤ 57)

/-- `FNC1_CHAR`, the marker's character and codeword (48_host_stages.md R340). -/
def fnc1 : Nat := 232

/-- The codewords of one character that begins no numeric pair (48_host_stages.md R340). -/
def dmAsciiOne (skipFnc1 : Bool) (c : Nat) : List Nat :=
  if c = fnc1 ∧ skipFnc1 then [232] else if 127 < c then [235, c - 127] else [c + 1]

/-- The ASCII encoder (48_host_stages.md R340). -/
def dmAscii (skipFnc1 : Bool) : List Nat → List Nat
  | [] => []
  | [c] => dmAsciiOne skipFnc1 c
  | c :: d :: rest =>
    if isDigit c && isDigit d then (10 * (c - 48) + (d - 48) + 130) :: dmAscii skipFnc1 rest
    else dmAsciiOne skipFnc1 c ++ dmAscii skipFnc1 (d :: rest)

/-- The codewords of a plain content string; a code point above 255 is UnsupportedInput (48_host_stages.md R341). -/
def dmEncodeText (content : List Nat) : Except HostError (List Nat) :=
  if content.all (fun c => decide (c ≤ 255)) then .ok (dmAscii false content) else .error .unsupportedInput

/-- One match of `"(" d+ ")" d+` at the head of a text: the identifier's digits, the data digits (the longest run), what follows
(48_host_stages.md R343). -/
def gs1Match : List Nat → Option (List Nat × List Nat × List Nat)
  | [] => none
  | c :: rest =>
    if c = 40 then
      match rest.span isDigit with
      | (ai, close :: after) =>
        match after.span isDigit with
        | (data, tail) => if close = 41 ∧ ai ≠ [] ∧ data ≠ [] then some (ai, data, tail) else none
      | _ => none
    else none

/-- Every match, left to right, non-overlapping (48_host_stages.md R343); the fuel bounds the turns by the text's length. -/
def gs1Matches : Nat → List Nat → List (List Nat × List Nat)
  | 0, _ => []
  | fuel + 1, t =>
    match t with
    | [] => []
    | _ :: rest =>
      match gs1Match t with
      | some (ai, data, tail) => (ai, data) :: gs1Matches fuel tail
      | none => gs1Matches fuel rest

/-- The default `GS1_AI_TABLE`: the first two identifier digits as a number, and the total length (48_host_stages.md R343). -/
def gs1DefaultTable : List (Nat × Nat) :=
  [(0, 20), (1, 16), (2, 16), (3, 16), (4, 18), (11, 8), (12, 8), (13, 8), (14, 8), (15, 8), (16, 8), (17, 8), (18, 8)]
  ++ [(19, 8), (20, 4), (31, 10), (32, 10), (33, 10), (34, 10), (35, 10), (36, 10), (41, 16)]

/-- The text of one match: identifier, data, and the delimiter of a variable field (48_host_stages.md R343). -/
def gs1Field (table : List (Nat × Nat)) (m : List Nat × List Nat) : List Nat :=
  let delimited :=
    match m.1 with
    | a :: b :: _ => (table.lookup (10 * (a - 48) + (b - 48))).any (fun n => decide (m.1.length + m.2.length ≠ n))
    | _ => false
  m.1 ++ m.2 ++ (if delimited then [fnc1] else [])

/-- `GS1_EMPTY_POLICY` (48_host_stages.md R344). -/
inductive Gs1EmptyPolicy where
  | emitFnc1
  | reject
  deriving DecidableEq, Repr

/-- The default of `GS1_EMPTY_POLICY` (48_host_stages.md R344, 92_eei_decisions.md D37). -/
def gs1DefaultPolicy : Gs1EmptyPolicy := .emitFnc1

/-- The codewords of a GS1 content string (48_host_stages.md R343, R344). -/
def gs1Encode (table : List (Nat × Nat)) (policy : Gs1EmptyPolicy) (content : List Nat) : Except HostError (List Nat) :=
  let t := content.filter (fun c => decide (c ≠ 32))
  let ms := gs1Matches t.length t
  if ms = [] ∧ policy = .reject then .error .unsupportedInput
  else .ok (dmAscii true (fnc1 :: ms.flatMap (gs1Field table)))

/-! ### Data Matrix size selection -/

/-- An entry of the host's Data Matrix table: the square size, data and ECC codewords, blocks (48_host_stages.md R350). -/
structure DmSizeEntry where
  rows : Nat
  d : Nat
  e : Nat
  b : Nat
  deriving DecidableEq, Repr

/-- The 24 square sizes in ascending order of capacity (48_host_stages.md R350, 44_layout_dm.md R260). -/
def dmSizeTable : List DmSizeEntry :=
  [⟨10, 3, 5, 1⟩, ⟨12, 5, 7, 1⟩, ⟨14, 8, 10, 1⟩, ⟨16, 12, 12, 1⟩, ⟨18, 18, 14, 1⟩, ⟨20, 22, 18, 1⟩, ⟨22, 30, 20, 1⟩,
   ⟨24, 36, 24, 1⟩, ⟨26, 44, 28, 1⟩, ⟨32, 62, 36, 1⟩, ⟨36, 86, 42, 1⟩, ⟨40, 114, 48, 1⟩, ⟨44, 144, 56, 1⟩, ⟨48, 174, 68, 1⟩]
  ++ [⟨52, 204, 84, 2⟩, ⟨64, 280, 112, 2⟩, ⟨72, 368, 144, 4⟩, ⟨80, 456, 192, 4⟩, ⟨88, 576, 224, 4⟩, ⟨96, 696, 272, 4⟩,
      ⟨104, 816, 336, 6⟩, ⟨120, 1050, 408, 6⟩, ⟨132, 1304, 496, 8⟩, ⟨144, 1558, 620, 10⟩]

/-- Size selection (48_host_stages.md R348, R349). -/
def dmSelect (len : Nat) (fixedRows : Option Nat) : Except HostError DmSizeEntry :=
  match fixedRows with
  | none =>
    match dmSizeTable.find? (fun x => decide (len ≤ x.d)) with
    | some x => .ok x
    | none => .error .capacityExceeded
  | some r =>
    match dmSizeTable.find? (fun x => x.rows == r) with
    | some x => if len ≤ x.d then .ok x else .error .capacityExceeded
    | none => .error .invalidFixedSize

/-- A pseudo-instruction with a `DO`, and the host's check of `STATUS.ERR` after it (48_host_stages.md R355). -/
def Pseudo.checked (p : Pseudo) : List Line := p.expand ++ [.check]

/-- Read the rows of a symbol from the `GRID` window (20_memory.md R85; 48_host_stages.md R355, R356): every byte that holds a module. -/
def readGridLines (rows cols : Nat) : List Line :=
  (List.range rows).flatMap (fun r => (List.range ((cols + 7) / 8)).map (fun k => .rdb .grid (32 * r + k)))

/-- The Data Matrix pipeline as a host program (48_host_stages.md R350, R355). -/
def dmProgram (cw : List Nat) (x : DmSizeEntry) : List Line :=
  (Pseudo.loadCw 0 (cw.map (BitVec.ofNat 8))).expand
  ++ [.wr .cwLen (BitVec.ofNat 32 cw.length), .wr .dmSize (BitVec.ofNat 32 ((x.rows <<< 8) ||| x.rows)),
      .wr .dmCw (BitVec.ofNat 32 ((x.e <<< 16) ||| x.d)), .wr .dmBlk (BitVec.ofNat 32 x.b)]
  ++ (Pseudo.run (.cwPadDm x.d)).checked ++ (Pseudo.run .eccDm).checked ++ (Pseudo.run .dmLayout).checked
  ++ readGridLines x.rows x.rows

/-- How the host reads the content (48_host_stages.md R340, R343); for GS1 with the parameters of R343 and R344 and their defaults. -/
inductive DmMode where
  | plain
  | gs1 (table : List (Nat × Nat) := gs1DefaultTable) (policy : Gs1EmptyPolicy := gs1DefaultPolicy)
  deriving DecidableEq, Repr

/-- The Data Matrix codewords of a content string (48_host_stages.md R340 to R344). -/
def dmCodewords : DmMode → List Nat → Except HostError (List Nat)
  | .plain, content => dmEncodeText content
  | .gs1 table policy, content => gs1Encode table policy content

/-- The source's `encode` for Data Matrix, up to the host program that drives BSE (48_host_stages.md R355). -/
def dmPipeline (mode : DmMode) (fixedRows : Option Nat) (content : List Nat) : Except HostError Job :=
  match dmCodewords mode content with
  | .error e => .error e
  | .ok cw =>
    match dmSelect cw.length fixedRows with
    | .error e => .error e
    | .ok x => .ok ⟨content, .dataMatrix x.rows x.rows, dmProgram cw x⟩

/-! ### QR content and version selection -/

/-- The UTF-8 bytes of a code point (48_host_stages.md R346; log 16 [PRESUMED, unsafe]). A code point that has no UTF-8 form, a surrogate
or one above 0x10FFFF, gets bytes by the same arithmetic and is not refused, which the spec leaves open (log 19 [DESIGN CHOICE, unsafe]). -/
def utf8 (c : Nat) : List Nat :=
  if c < 0x80 then [c]
  else if c < 0x800 then [0xC0 + c / 64, 0x80 + c % 64]
  else if c < 0x10000 then [0xE0 + c / 4096, 0x80 + c / 64 % 64, 0x80 + c % 64]
  else [0xF0 + c / 262144, 0x80 + c / 4096 % 64, 0x80 + c / 64 % 64, 0x80 + c % 64]

/-- `ECCPB(V, l)` for versions 1 to 40 (48_host_stages.md R352). -/
def qrEccTable : QrLevel → List Nat
  | .l => [7, 10, 15, 20, 26, 18, 20, 24, 30, 18, 20, 24, 26, 30, 22, 24, 28, 30, 28, 28, 28, 28, 30, 30, 26, 28, 30, 30, 30, 30,
      30, 30, 30, 30, 30, 30, 30, 30, 30, 30]
  | .m => [10, 16, 26, 18, 24, 16, 18, 22, 22, 26, 30, 22, 22, 24, 24, 28, 28, 26, 26, 26, 26, 28, 28, 28, 28, 28, 28, 28, 28, 28,
      28, 28, 28, 28, 28, 28, 28, 28, 28, 28]
  | .q => [13, 22, 18, 26, 18, 24, 18, 22, 20, 24, 28, 26, 24, 20, 30, 24, 28, 28, 26, 30, 28, 30, 30, 30, 30, 28, 30, 30, 30, 30,
      30, 30, 30, 30, 30, 30, 30, 30, 30, 30]
  | .h => [17, 28, 22, 16, 22, 28, 26, 26, 24, 28, 24, 28, 22, 24, 24, 30, 28, 28, 26, 28, 30, 24, 30, 30, 30, 30, 30, 30, 30, 30,
      30, 30, 30, 30, 30, 30, 30, 30, 30, 30]

/-- `NB(V, l)` for versions 1 to 40 (48_host_stages.md R352). -/
def qrBlockTable : QrLevel → List Nat
  | .l => [1, 1, 1, 1, 1, 2, 2, 2, 2, 4, 4, 4, 4, 4, 6, 6, 6, 6, 7, 8, 8, 9, 9, 10, 12, 12, 12, 13, 14, 15, 16, 17, 18, 19, 19, 20,
      21, 22, 24, 25]
  | .m => [1, 1, 1, 2, 2, 4, 4, 4, 5, 5, 5, 8, 9, 9, 10, 10, 11, 13, 14, 16, 17, 17, 18, 20, 21, 23, 25, 26, 28, 29, 31, 33, 35, 37,
      38, 40, 43, 45, 47, 49]
  | .q => [1, 1, 2, 2, 4, 4, 6, 6, 8, 8, 8, 10, 12, 16, 12, 17, 16, 18, 21, 20, 23, 23, 25, 27, 29, 34, 34, 35, 38, 40, 43, 45, 48,
      51, 53, 56, 59, 62, 65, 68]
  | .h => [1, 1, 2, 4, 4, 4, 5, 6, 8, 8, 11, 11, 16, 16, 18, 16, 19, 21, 25, 25, 25, 34, 30, 32, 35, 37, 40, 42, 45, 48, 51, 54, 57,
      60, 63, 66, 70, 74, 77, 81]

/-- `(G1C, G1D, G2C, G2D, ECCPB)` of a version and level (48_host_stages.md R352). -/
structure QrBlocks where
  g1c : Nat
  g1d : Nat
  g2c : Nat
  g2d : Nat
  eccpb : Nat
  deriving DecidableEq, Repr

/-- The block structure of a version and level (48_host_stages.md R352). -/
def qrBlocksOf (v : Nat) (level : QrLevel) : QrBlocks :=
  let tc := qrDataModules v / 8
  let eccpb := (qrEccTable level).getD (v - 1) 0
  let nb := (qrBlockTable level).getD (v - 1) 0
  let nlong := tc % nb
  let g1d := tc / nb - eccpb
  ⟨nb - nlong, g1d, nlong, if nlong = 0 then 0 else g1d + 1, eccpb⟩

/-- `DC`, the number of data codewords (48_host_stages.md R352). -/
def QrBlocks.dc (b : QrBlocks) : Nat := b.g1c * b.g1d + b.g2c * b.g2d

/-- `cc(V)`, the width of the character count (48_host_stages.md R346). -/
def qrCountWidth (v : Nat) : Nat := if v ≤ 9 then 8 else 16

/-- The smallest version that holds `m` bytes at a level (48_host_stages.md R347). -/
def qrSelect (m : Nat) (level : QrLevel) : Except HostError Nat :=
  match ((List.range 40).map (· + 1)).find? (fun v => decide (4 + qrCountWidth v + 8 * m ≤ 8 * (qrBlocksOf v level).dc)) with
  | some v => .ok v
  | none => .error .capacityExceeded

/-- The QR byte-mode pipeline as a host program (48_host_stages.md R346, R352, R356). -/
def qrProgram (bytes : List Nat) (v : Nat) (level : QrLevel) (mask : Fin 8) : List Line :=
  let b := qrBlocksOf v level
  [.wr .qrCfg (BitVec.ofNat 32 ((mask.val <<< 12) ||| (level.code <<< 8) ||| v)),
   .wr .qrBlk (BitVec.ofNat 32 ((b.g2d <<< 24) ||| (b.g2c <<< 16) ||| (b.g1d <<< 8) ||| b.g1c)),
   .wr .qrEcc (BitVec.ofNat 32 b.eccpb)]
  ++ (Pseudo.loadCw 0 (bytes.map (BitVec.ofNat 8))).expand
  ++ (Pseudo.run .bsClear).checked ++ (Pseudo.append 4 4).checked
  ++ (Pseudo.append (qrCountWidth v) (BitVec.ofNat 32 bytes.length)).checked
  ++ (Pseudo.appendBytes 0 bytes.length).checked ++ (Pseudo.padQr (8 * b.dc)).checked
  ++ (Pseudo.run .bsToCw).checked ++ (Pseudo.run .eccQr).checked ++ (Pseudo.run .qrLayout).checked
  ++ readGridLines (17 + 4 * v) (17 + 4 * v)

/-- The source's `encode` for QR, up to the host program that drives BSE; the level is M if the caller gives none and the mask is the
host's choice (48_host_stages.md R347, R356; 45_layout_qr.md R305). -/
def qrPipeline (level : Option QrLevel) (mask : Fin 8) (content : List Nat) : Except HostError Job :=
  let level := level.getD .m
  let bytes := content.flatMap utf8
  match qrSelect bytes.length level with
  | .error e => .error e
  | .ok v => .ok ⟨content, .qr v level, qrProgram bytes v level mask⟩

end Sys2Proof.Machine
end

