-- ==== Sys2Proof/Safety.lean ====
section
/-! DEFINITION. What counts as a safe run: the invariant of the machine, and the host events that stay inside the window. -/

namespace Sys2Proof.Machine

/-- `STATUS` agrees with itself (60_exceptions.md R384): `DONE` and `ERR` are never both 1, both are 0 while busy (40_control.md R140), and
`ERRCODE` is nonzero exactly when `ERR` is 1. -/
abbrev Status.Consistent (st : Status) : Prop :=
  ¬ (st.done = true ∧ st.err = true) ∧ (st.busy = true → st.done = false ∧ st.err = false)
    ∧ (st.errcode ≠ .none ↔ st.err = true)

/-- `PENDING` agrees with `STATUS`: it is empty exactly when `BUSY = 0` (10_state.md R34), and `LASTOP` is its opcode (10_state.md R33). -/
abbrev State.PendingConsistent (s : State) : Prop :=
  (s.pending = none ↔ s.regs.status.busy = false)
    ∧ s.pending.all (fun w => s.regs.status.lastop == BitVec.ofNat 8 (opcodeOf w)) = true

/-- The invariant of the machine: the memory and its undefined bits are in their canonical form, `STATUS` and `PENDING` are consistent, and the bit stream fits
its buffer (10_state.md R37). -/
abbrev State.Inv (s : State) : Prop :=
  s.mem.wf = true ∧ s.mem.holesWf s.holes = true ∧ s.regs.status.Consistent ∧ s.PendingConsistent ∧ s.regs.bsLen.toNat ≤ Config.bsbBits

/-- A host event that is no access, or an access inside the window (20_memory.md R80). -/
def HostEvent.inWindow : HostEvent → Bool
  | .access a => decide (a.off < Config.winBytes)
  | .engine => true
  | .wait => true
  | .check => true

/-- Every access the host still makes is inside the window. -/
abbrev State.HostInWindow (s : State) : Prop := s.host.all HostEvent.inWindow = true

/-- A step goes on: it neither faults nor is refused. -/
def Continues (r : Result) : Prop := ∃ t, r = .next t

end Sys2Proof.Machine
end

