-- ==== Sys2Proof/Certificates/Slice0/Obligations.lean ====
section
/-! DEFINITION. The statements for the provers, and the few notions they are written in. The notions say what the spec says in its own
words, apart from the model's way of computing it. -/

namespace Sys2Proof.Claim

open Sys2Proof.Machine

/-! ### Words, bytes, bits and modules -/

/-- The field of `width` bits from bit `lo` up (00_scope.md R8), as a number. -/
def field (w : Word) (lo width : Nat) : Nat := (w.extractLsb' lo width).toNat

/-- A byte of the window is defined, in every bit, and equal to `v` (10_state.md R58). -/
abbrev Holds (t : State) (off : Nat) (v : Byte) : Prop := t.mem.lookup off = some v ∧ t.holes.lookup off = none

/-- Bit `i` of the bit stream is defined and equal to `b`: bit `7 - (i mod 8)` of `BSB[i div 8]` (10_state.md R52). -/
abbrev HoldsBit (t : State) (i : Nat) (b : Bool) : Prop :=
  ∃ v, Holds t (0x3000 + i / 8) v ∧ v.getLsbD (7 - i % 8) = b

/-- The module in row `r`, column `c` of a map at `base` is defined and equal to `b` (20_memory.md R85). -/
abbrev HoldsModule (t : State) (base r c : Nat) (b : Bool) : Prop :=
  ∃ v, Holds t (base + 32 * r + c / 8) v ∧ v.getLsbD (7 - c % 8) = b

/-- `GRID[r][c] = dark` and `RESV[r][c] = reserved`. -/
abbrev HoldsCell (t : State) (r c : Nat) (dark reserved : Bool) : Prop :=
  HoldsModule t 0x4000 r c dark ∧ HoldsModule t 0x6000 r c reserved

/-! ### What a command does, and what it leaves -/

/-- `raise Error(code)` (60_exceptions.md R381): these fields of `STATUS`, `PENDING`, and nothing else. -/
def failed (s : State) (code : ErrorCode) : State :=
  { s with
    regs := { s.regs with status := { s.regs.status with errcode := code, err := true, done := false, busy := false } }
    pending := none }

/-- A byte is as it was: the same value, the same mark and the same undefined bits, so that every read of it finds what it found before. -/
def SameByte (s t : State) (off : Nat) : Prop :=
  t.mem.lookup off = s.mem.lookup off ∧ t.holes.lookup off = s.holes.lookup off ∧ ∀ n, t.readByte n off = s.readByte n off

/-- Completion without error (40_control.md R143): `DONE <- 1`, `BUSY <- 0`, `PENDING <- empty`; among the registers `update` and nothing
else; among the bytes of the window those that `stored` names and no other. -/
def Succeeds (s t : State) (update : Regs → Regs) (stored : Nat → Prop) : Prop :=
  t.regs = update { s.regs with status := { s.regs.status with done := true, busy := false } }
    ∧ t.pending = none ∧ t.host = s.host ∧ t.resp = s.resp ∧ t.draws = s.draws
    ∧ ∀ off, ¬ stored off → SameByte s t off

/-- How a command ends, its checks in the order of its rule (60_exceptions.md R382): the first cause that holds gives its code; where no cause
holds, the command answers a next state that is as `done` says. -/
def Ends (i : Instr) (s : State) : List (Prop × ErrorCode) → (State → Prop) → Prop
  | [], done => ∃ t, exec i s = .next t ∧ done t
  | (cause, code) :: rest, done => (cause → exec i s = .next (failed s code)) ∧ (¬ cause → Ends i s rest done)

/-- The encoding of a command (30_encoding.md R111, R113): a word with opcode `op` whose bits [23:lo] are 0 is the command with the fields
that `command` reads; with any of them 1 it ends with ILLEGAL_COMMAND and does nothing else. -/
def Encoded (op lo : Nat) (command : Word → Instr) : Prop :=
  ∀ w : Word, field w 24 8 = op →
    (field w lo (24 - lo) = 0 → decode w = .ok (command w))
      ∧ (field w lo (24 - lo) ≠ 0 →
          (decode w).toOption = none ∧ ∀ s : State, s.engineStep w = .next (failed s .illegalCommand))

/-! ### Windows (20_memory.md R81) -/

/-- The window of `GEN`. -/
abbrev inGen (off : Nat) : Prop := 0x100 ≤ off ∧ off < 0x200
/-- The window of `BSB`. -/
abbrev inBsb (off : Nat) : Prop := 0x3000 ≤ off ∧ off < 0x4000
/-- The windows of `GRID` and `RESV`. -/
abbrev inGridOrResv (off : Nat) : Prop := 0x4000 ≤ off ∧ off < 0x8000

/-- The host may write the window at `off`: `CWB`, `FSB`, `BSB`. -/
abbrev inWritable (off : Nat) : Prop := 0x1000 ≤ off ∧ off < 0x4000

/-- The offset is mapped: a register or a byte of a window. -/
abbrev mapped (off : Nat) : Prop := off < 0x48 ∨ inGen off ∨ (0x1000 ≤ off ∧ off < 0x8000)

/-- The causes of a bus error (20_memory.md R87). -/
abbrev badAccess (off : Nat) (n : Width) : Prop :=
  ¬ mapped off ∨ off % n.bytes ≠ 0 ∨ (off < 0x48 ∧ n.bytes ≠ 4)

/-- No command runs (10_state.md R34). -/
abbrev Idle (s : State) : Prop := s.regs.status.busy = false ∧ s.pending = none

/-- No command is pending: nothing is, or a word that is none. -/
abbrev NoCommand (s : State) : Prop := ∀ w, s.pending = some w → (decode w).toOption = none

/-- A host write leaves `t`, with or without the error response (20_memory.md R87). The data of a write's response is left open. -/
def Writes (s : State) (off : Nat) (n : Width) (v : Word) (error : Bool) (t : State) : Prop :=
  ∃ data, s.hostAccess (.write off n v) = .next { t with resp := some ⟨error, data⟩ }

/-- The event is no write to `CMD`. -/
abbrev NoCommandWrite (e : HostEvent) : Prop := ∀ v, e ≠ .access (.write 0x00C .four v)

/-- `i` is an append that leads to a stream of `last` bits: the bits from `BS_LEN` up to it are its write set in `BSB` (10_state.md R61). -/
abbrev AppendsUpTo (s : State) (i : Instr) (last : Nat) : Prop :=
  (∃ w, i = .bsAppend w ∧ last = s.regs.bsLen.toNat + w)
    ∨ (∃ count, i = .bsAppendBytes count ∧ last = s.regs.bsLen.toNat + 8 * count)
    ∨ (i = .bsPadQr ∧ last = s.regs.arg0.toNat)

/-! ### Appending to the bit stream -/

/-- The frame of an append of `n` bits: `BS_LEN` grows by `n`; only bytes that hold one of the new bits are stored to; every other bit of
the stream's buffer reads as before. -/
def Appends (s t : State) (n : Nat) : Prop :=
  Succeeds s t (fun g => { g with bsLen := BitVec.ofNat 16 (s.regs.bsLen.toNat + n) })
      (fun off => ∃ i, s.regs.bsLen.toNat ≤ i ∧ i < s.regs.bsLen.toNat + n ∧ off = 0x3000 + i / 8)
    ∧ ∀ i, i < s.regs.bsLen.toNat ∨ s.regs.bsLen.toNat + n ≤ i → t.streamBit i = s.streamBit i

/-- `dm_pad_value(P)` (41_bitstream.md R169). -/
def padValue (p : Nat) : Nat :=
  if 129 + (149 * p % 253 + 1) ≤ 254 then 129 + (149 * p % 253 + 1) else 129 + (149 * p % 253 + 1) - 254

/-! ### Polynomials over GF(2), as numbers -/

/-- The product of two polynomials of degree at most 7, bit `k` the coefficient of `x^k`. -/
def bitsProduct (a b : Nat) : Nat :=
  (List.range 8).foldl (fun acc i => if a.testBit i then acc ^^^ b <<< i else acc) 0

/-- The remainder of a polynomial of degree at most 14 modulo a polynomial of degree 8. -/
def bitsReduce (p x : Nat) : Nat :=
  [14, 13, 12, 11, 10, 9, 8].foldl (fun x d => if x.testBit d then x ^^^ p <<< (d - 8) else x) x

/-- The field polynomials (42_gf256.md R190, R191). -/
def fieldPoly : GField → Nat
  | .dm => 0x12D
  | .qr => 0x11D

/-- The exponent of the generator's first root (43_reed_solomon.md R220). -/
def firstRoot : GField → Nat
  | .dm => 1
  | .qr => 0

/-! ### Polynomials over GF(256) -/

/-- The value at `x` of the polynomial with these coefficients, lowest order first. -/
def valueLow (f : GField) (g : List Byte) (x : Byte) : Byte :=
  g.foldr (fun c acc => gfAdd c (gfMul f x acc)) 0

/-- The value at `x` of the polynomial whose coefficients are a codeword sequence, highest order first (43_reed_solomon.md R222). -/
def valueHigh (f : GField) (c : List Byte) (x : Byte) : Byte :=
  c.foldl (fun acc d => gfAdd (gfMul f acc x) d) 0

/-- The coefficient of `x^k` in the product of two polynomials, coefficients lowest order first. -/
def productCoeff (f : GField) (p q : List Byte) (k : Nat) : Byte :=
  (List.range (k + 1)).foldl (fun acc i => gfAdd acc (gfMul f (p.getD i 0) (q.getD (k - i) 0))) 0

/-- `GEN[0..255]` holds the generator polynomial of degree `n` and `GEN_DEG = n` (43_reed_solomon.md R232). -/
def HoldsGen (t : State) (f : GField) (n : Nat) : Prop :=
  t.regs.genDeg = BitVec.ofNat 8 n ∧ ∀ k, k < 256 → Holds t (0x100 + k) ((genPoly f n).getD k 0)

/-! ### Interleaving -/

/-- The data codewords of block `b` of `blocks`: those at stream positions `b, b + blocks, ...` below `d`, in rising order
(43_reed_solomon.md R225); `read` numbers the read of each byte (log 3). -/
def dmBlock (s : State) (read d blocks b : Nat) : List Byte :=
  ((List.range d).filter (fun k => k % blocks = b)).map (fun k => s.readByte read (0x1000 + k))

/-- The number of data codewords of QR block `b` (43_reed_solomon.md R229). -/
def qrLen (q : QrBlk) (b : Nat) : Nat := if b < q.g1c.toNat then q.g1d.toNat else q.g2d.toNat

/-- The first data codeword of QR block `b`: the blocks before it are consecutive runs (43_reed_solomon.md R228). -/
def qrStart (q : QrBlk) (b : Nat) : Nat := ((List.range b).map (qrLen q)).sum

/-- The data codewords of QR block `b`. -/
def qrBlock (s : State) (read b : Nat) : List Byte :=
  (List.range (qrLen s.regs.qrBlk b)).map (fun i => s.readByte read (0x1000 + qrStart s.regs.qrBlk b + i))

/-- The final-stream position of data codeword `i` of block `b` among `nb` blocks: behind every codeword of a smaller index and every
codeword `i` of an earlier block (43_reed_solomon.md R228). -/
def qrDataPos (q : QrBlk) (nb b i : Nat) : Nat :=
  ((List.range nb).map (fun b' => min (qrLen q b') i)).sum + ((List.range b).filter (fun b' => i < qrLen q b')).length

/-! ### The layouts -/

/-- The rows of the table of 44_layout_dm.md R260: ROWS, COLS, RV, RH, h, w, nrow, ncol, K. -/
def dmTable : List (List Nat) :=
  [[10, 10, 1, 1, 8, 8, 8, 8, 8], [12, 12, 1, 1, 10, 10, 10, 10, 12], [14, 14, 1, 1, 12, 12, 12, 12, 18],
   [16, 16, 1, 1, 14, 14, 14, 14, 24], [18, 18, 1, 1, 16, 16, 16, 16, 32], [20, 20, 1, 1, 18, 18, 18, 18, 40],
   [22, 22, 1, 1, 20, 20, 20, 20, 50], [24, 24, 1, 1, 22, 22, 22, 22, 60], [26, 26, 1, 1, 24, 24, 24, 24, 72]]
  ++ [[32, 32, 2, 2, 14, 14, 28, 28, 98], [36, 36, 2, 2, 16, 16, 32, 32, 128], [40, 40, 2, 2, 18, 18, 36, 36, 162],
      [44, 44, 2, 2, 20, 20, 40, 40, 200], [48, 48, 2, 2, 22, 22, 44, 44, 242], [52, 52, 2, 2, 24, 24, 48, 48, 288],
      [64, 64, 4, 4, 14, 14, 56, 56, 392], [72, 72, 4, 4, 16, 16, 64, 64, 512], [80, 80, 4, 4, 18, 18, 72, 72, 648],
      [88, 88, 4, 4, 20, 20, 80, 80, 800], [96, 96, 4, 4, 22, 22, 88, 88, 968]]
  ++ [[104, 104, 4, 4, 24, 24, 96, 96, 1152], [120, 120, 6, 6, 18, 18, 108, 108, 1458],
      [132, 132, 6, 6, 20, 20, 120, 120, 1800], [144, 144, 6, 6, 22, 22, 132, 132, 2178],
      [8, 18, 1, 1, 6, 16, 6, 16, 12], [8, 32, 1, 2, 6, 14, 6, 28, 21], [12, 26, 1, 1, 10, 24, 10, 24, 30],
      [12, 36, 1, 2, 10, 16, 10, 32, 40], [16, 36, 1, 2, 14, 16, 14, 32, 56], [16, 48, 1, 2, 14, 22, 14, 44, 77]]

/-- The value of a border module at `(y, x)` inside a region of `h` x `w` data modules (44_layout_dm.md R269). -/
abbrev borderIsDark (h w y x : Nat) : Prop :=
  (y = h + 1 ∨ x = 0) ∨ (y = 0 ∧ x % 2 = 0) ∨ (y ≠ 0 ∧ x = w + 1 ∧ y % 2 = 1)

/-- A ROM entry as a row of that table. -/
def dmRow (g : DmGeometry) : List Nat := [g.rows, g.cols, g.rv, g.rh, g.h, g.w, g.nrow, g.ncol, g.k]

/-- The sizes with the fixed corner (44_layout_dm.md R267). -/
abbrev dmCornered (g : DmGeometry) : Prop := g.rows = g.cols ∧ g.rows ∈ [12, 16, 20, 24]

/-- `M(V)` (45_layout_qr.md R301). -/
def qrModules (v : Nat) : Nat :=
  (16 * v + 128) * v + 64
    - (if 2 ≤ v then (25 * (v / 7 + 2) - 10) * (v / 7 + 2) - 55 else 0) - (if 7 ≤ v then 36 else 0)

/-- The mask conditions (45_layout_qr.md R296), row `i`, column `j`. -/
abbrev maskHolds (mask i j : Nat) : Prop :=
  (mask = 0 ∧ (i + j) % 2 = 0) ∨ (mask = 1 ∧ i % 2 = 0) ∨ (mask = 2 ∧ j % 3 = 0) ∨ (mask = 3 ∧ (i + j) % 3 = 0)
    ∨ (mask = 4 ∧ (i / 2 + j / 3) % 2 = 0) ∨ (mask = 5 ∧ i * j % 2 + i * j % 3 = 0)
    ∨ (mask = 6 ∧ (i * j % 2 + i * j % 3) % 2 = 0) ∨ (mask = 7 ∧ ((i + j) % 2 + i * j % 3) % 2 = 0)

/-- The place of a module of column `c` in row `r` in the order of 45_layout_qr.md R302, as a number: column pairs from the right, column 6
skipped, upward and downward in turn, the right column of a pair first. -/
def qrVisit (n r c : Nat) : Nat :=
  let left := if c < 6 then n - 2 - c else n - 1 - c
  let pair := left / 2
  let v := if pair % 2 = 0 then n - 1 - r else r
  pair * (2 * n) + 2 * v + left % 2

/-- Within `d` rows and columns of a centre. -/
abbrev Near (d r c r0 c0 : Nat) : Prop := r ≤ r0 + d ∧ r0 ≤ r + d ∧ c ≤ c0 + d ∧ c0 ≤ c + d

/-- At Chebyshev distance `d` from a centre. -/
abbrev AtDistance (d r c r0 c0 : Nat) : Prop := Near d r c r0 c0 ∧ (d = 0 ∨ ¬ Near (d - 1) r c r0 c0)

/-- The centres of the finder patterns (45_layout_qr.md R291). -/
def finderCentres (n : Nat) : List (Nat × Nat) := [(3, 3), (3, n - 4), (n - 4, 3)]

/-- `(r0, c0)` is the centre of an alignment pattern of the coordinates `pos` (45_layout_qr.md R293). -/
abbrev AlignmentCentre (pos : List Nat) (r0 c0 : Nat) : Prop :=
  r0 ∈ pos ∧ c0 ∈ pos ∧ ¬ (r0 = pos.headD 0 ∧ c0 = pos.headD 0) ∧ ¬ (r0 = pos.headD 0 ∧ c0 = pos.getLastD 0)
    ∧ ¬ (r0 = pos.getLastD 0 ∧ c0 = pos.headD 0)

/-- Where bit `k` of the format word goes (45_layout_qr.md R298). -/
def formatPlaces (n k : Nat) : List (Nat × Nat) :=
  if k ≤ 5 then [(k, 8), (8, n - 1 - k)]
  else if k = 6 then [(7, 8), (8, n - 7)]
  else if k = 7 then [(8, 8), (8, n - 8)]
  else if k = 8 then [(8, 7), (n - 7, 8)]
  else [(8, 14 - k), (n - 15 + k, 8)]

/-- Where bit `k` of the version word goes (45_layout_qr.md R300). -/
def versionPlaces (n k : Nat) : List (Nat × Nat) := [(k / 3, n - 11 + k % 3), (n - 11 + k % 3, k / 3)]

/-! ### Registers on the bus -/

/-- The registers a host write stores into and a read gives back, with the mask of their defined fields (10_state.md R35, R38, R39, R44 to
R49); `CTRL`, `STATUS` and `CMD` have statements of their own. -/
def storedRegisters : List (Nat × Word) :=
  [(0x010, 0xFFFFFFFF), (0x014, 0xFFFFFFFF), (0x020, 0x00001FFF), (0x024, 0x00001FFF), (0x030, 0x0000FFFF)]
  ++ [(0x034, 0x0FFF0FFF), (0x038, 0x000000FF), (0x03C, 0x0000733F), (0x040, 0xFFFFFFFF), (0x044, 0x000000FF)]

/-- The 32-bit values of the registers (10_state.md R31, R34 to R42, R44 to R49), from bit 31 down; those of `CTRL` and `STATUS` have statements
of their own. -/
def registerView (g : Regs) : List (Nat × Word) :=
  [(0x000, 0x42534501), (0x00C, 0), (0x010, g.arg0), (0x014, g.arg1), (0x018, g.result), (0x01C, 0#16 ++ g.bsLen),
   (0x020, 0#19 ++ g.cwLen), (0x024, 0#19 ++ g.fsLen), (0x028, 0#24 ++ g.genDeg)]
  ++ [(0x02C, 0#16 ++ g.gridDim.cols ++ g.gridDim.rows), (0x030, 0#16 ++ g.dmSize.cols ++ g.dmSize.rows),
      (0x034, 0#4 ++ g.dmCw.e ++ 0#4 ++ g.dmCw.d), (0x038, 0#24 ++ g.dmBlk)]
  ++ [(0x03C, 0#17 ++ g.qrCfg.mask ++ 0#2 ++ g.qrCfg.level ++ 0#2 ++ g.qrCfg.version),
      (0x040, g.qrBlk.g2d ++ g.qrBlk.g2c ++ g.qrBlk.g1d ++ g.qrBlk.g1c), (0x044, 0#24 ++ g.qrEcc)]

/-- The codes a command can raise by its own checks (60_exceptions.md R383). -/
def codesOf : Instr → List ErrorCode
  | .gridClear _ _ => [.argRange]
  | .bsAppend _ => [.argRange, .valueRange, .capacityExceeded]
  | .bsAppendBytes _ => [.argRange, .capacityExceeded]
  | .bsPadQr => [.argRange, .capacityExceeded]
  | .bsToCw => [.alignment]
  | .cwPadDm _ => [.argRange, .capacityExceeded]
  | .gfDiv _ _ => [.gfDomain]
  | .gfInv _ => [.gfDomain]
  | .gfLog _ => [.gfDomain]
  | .rsGenpoly _ => [.argRange]
  | .rsEncode _ _ => [.argRange]
  | .eccDm => [.descriptorInvalid, .internalConsistency]
  | .eccQr => [.descriptorInvalid, .internalConsistency]
  | .dmLayout => [.descriptorInvalid, .internalConsistency]
  | .qrLayout => [.descriptorInvalid, .internalConsistency]
  | .nop => []
  | .bsClear => []
  | .gfAdd _ _ => []
  | .gfMul _ _ => []
  | .gfExp _ => []

/-- The opcode map (30_encoding.md R114): match and mask of each row. -/
def opcodeTable : List (Word × Word) :=
  [(0x00000000, 0xFFFFFFFF), (0x01000000, 0xFFFF0000), (0x10000000, 0xFFFFFFFF), (0x11000000, 0xFFFFFFC0),
   (0x12000000, 0xFFFFE000), (0x13000000, 0xFFFFFFFF), (0x14000000, 0xFFFFFFFF), (0x15000000, 0xFFFFE000)]
  ++ [(0x20000000, 0xFFFF0000), (0x21000000, 0xFFFF0000), (0x22000000, 0xFFFF0000), (0x23000000, 0xFFFFFF00),
      (0x24000000, 0xFFFFFF00), (0x25000000, 0xFFFFFF00), (0x30000000, 0xFFFFFF00), (0x31000000, 0xFFE00000)]
  ++ [(0x32000000, 0xFFFFFFFF), (0x33000000, 0xFFFFFFFF), (0x40000000, 0xFFFFFFFF), (0x41000000, 0xFFFFFFFF)]

end Sys2Proof.Claim

section

open Sys2Proof Sys2Proof.Machine Sys2Proof.Claim

/-! ## Encoding -/

/-- 30_encoding.md R110 to R114, R118: assembling a command whose fields fit their bits and decoding the word gives the command back, with
every field at every value, whether the word is read as a whole or from its four bytes. -/
def Obligations.DecodeOfEncode : Prop :=
  ∀ i : Instr, i.wf = true → decode (encode i) = .ok i ∧ decodeTableWord 32 (encode i).toNat = some i

/-- 30_encoding.md R111, R113: a word has one meaning; what decodes is a command whose fields fit, and its only word is that one. -/
def Obligations.EncodeOfDecode : Prop :=
  ∀ (w : Word) (i : Instr), decode w = .ok i → i.wf = true ∧ encode i = w

/-- 30_encoding.md R113, R114, R115: a word is a command exactly when it agrees with a row of the opcode map under that row's mask, and it
agrees with at most one row; every other word ends with ILLEGAL_COMMAND and does nothing else. -/
def Obligations.OpcodeMapDecidesDecoding : Prop :=
  (∀ w : Word, (∃ i, decode w = .ok i) ↔ ∃ row ∈ opcodeTable, w &&& row.2 = row.1)
    ∧ (∀ (w : Word) (i : Instr), decode w = .ok i → w &&& i.row.mask = i.row.matchWord ∧ (i.row.matchWord, i.row.mask) ∈ opcodeTable)
    ∧ opcodeTable.Pairwise (fun a b => ∀ w : Word, ¬ (w &&& a.2 = a.1 ∧ w &&& b.2 = b.1))
    ∧ ∀ (w : Word) (s : State), (∀ row ∈ opcodeTable, w &&& row.2 ≠ row.1) →
        s.engineStep w = .next (failed s .illegalCommand)

/-- 30_encoding.md R118: words written out by hand decode to the command they stand for. -/
def Obligations.WrittenWordsDecode : Prop :=
  decode 0x11000004 = .ok (.bsAppend 4) ∧ decode 0x2100CA53 = .ok (.gfMul 0x53 0xCA)
    ∧ decode 0x3100A003 = .ok (.rsEncode 3 5) ∧ decode 0x01000A0C = .ok (.gridClear 12 10)
    ∧ decode 0x41000000 = .ok .qrLayout

/-! ## Steps -/

/-- 40_control.md R143: when the engine moves, the pending word is decoded and the command is run. What stands around that is the model's
choice: the host list and its `engine` entry, and a word placed by `withFetchWord` (log 1), the turn of the engine when the list is empty
(log 2), the advance of the step counter (log 4), and the poll of a `WAIT` in the same step (log 15). -/
def Obligations.StepRunsDecodedCommand : Prop :=
  (∀ (s : State) (w : Word) (i : Instr) (rest : List HostEvent),
      s.pending = some w → s.host = .engine :: rest → decode w = .ok i →
      step s = advanceResult (exec i { s with host := rest }))
    ∧ (∀ (s : State) (w : Word) (i : Instr),
        s.pending = some w → s.host = [] → decode w = .ok i → step s = advanceResult (exec i s))
    ∧ (∀ (s : State) (w : Word) (i : Instr) (rest : List HostEvent),
        s.pending = some w → s.regs.status.busy = true → s.host = .wait :: rest → decode w = .ok i →
        step s = advanceResult (exec i { s with resp := some (s.busRead 0x008 .four) }))
    ∧ (∀ (s : State) (nbits w : Nat) (i : Instr), decodeTableWord nbits w = some i →
        step (s.withFetchWord nbits w) = advanceResult (exec i (s.start (BitVec.ofNat 32 (w % 2 ^ nbits)))))
    ∧ ∀ t : State, advanceResult (.next t) = .next { t with draws := t.draws + 1 }

/-- 30_encoding.md R113, R115: a pending word with a reserved opcode, or with a reserved bit set, ends with ILLEGAL_COMMAND when the engine moves:
of the spec's state the step changes `STATUS` and `PENDING` and nothing else. What it does to the host list (log 1, log 2), to the step
counter (log 4) and, at a `WAIT`, to the response (log 15) is the model's choice. -/
def Obligations.StepOnIllegalWord : Prop :=
  ∀ (s : State) (w : Word) (rest : List HostEvent), s.pending = some w → (decode w).toOption = none →
    (s.host = .engine :: rest →
        step s = .next { failed { s with host := rest } .illegalCommand with draws := s.draws + 1 })
      ∧ (s.host = [] → step s = .next { failed s .illegalCommand with draws := s.draws + 1 })
      ∧ (s.regs.status.busy = true → s.host = .wait :: rest →
        step s = .next { failed { s with resp := some (s.busRead 0x008 .four) } .illegalCommand with draws := s.draws + 1 })

/-- 20_memory.md R80, R81, R91, 48_host_stages.md R353, R355: a step makes the host's next access; at a check the host reads `STATUS` and with
`ERR = 1` does nothing more; with nothing pending an `engine` entry passes; with nothing more from the host either the state stays. The model's
choices in it: the host list (log 1), the advance of the step counter (log 4), the stop at an access outside the window (log 10), the check as
an event (log 20). -/
def Obligations.StepMakesHostAccess : Prop :=
  (∀ (s : State) (a : BusAccess) (rest : List HostEvent), s.host = .access a :: rest →
      (a.off < 0x8000 → step s = .next { ({ s with host := rest }.access a) with draws := s.draws + 1 })
        ∧ (0x8000 ≤ a.off → step s = .fault (.outsideWindow a.off)))
    ∧ (∀ (s : State) (rest : List HostEvent), s.host = .check :: rest →
        step s = .next { s with
          host := if s.regs.status.err = true then [] else rest
          resp := some (s.busRead 0x008 .four)
          draws := s.draws + 1 })
    ∧ (∀ (s : State) (rest : List HostEvent), s.pending = none → s.host = .engine :: rest →
        step s = .next { s with host := rest, draws := s.draws + 1 })
    ∧ ∀ s : State, s.pending = none → s.host = [] → step s = .next s

/-- 30_encoding.md R117, 70_reset_and_hazards.md R440, R441: a `WAIT` ends. With the engine idle it is over after one read of `STATUS`; with a
command running, the command completes, with `DONE` or `ERR`, and the next read sees `BUSY = 0`. That the command completes by the first
poll is the model's choice of delay (log 15). And 20_memory.md R99: a run whose last write to `CMD` is followed by a `WAIT` ends at the first
idle state behind that write, before anything that the host does next, such as its acknowledgement: the state in which the command has
completed, `DONE` or `ERR` still set. A run with no write to `CMD` has ended where it starts, the model's choice (log 21). -/
def Obligations.WaitEnds : Prop :=
  (∀ (s : State) (rest : List HostEvent), s.Inv → s.host = .wait :: rest →
      (s.regs.status.busy = false → ∃ t d, step s = .next t ∧ t.host = rest ∧ t.regs = s.regs ∧ t.mem = s.mem ∧ t.holes = s.holes
          ∧ t.resp = some ⟨false, d⟩ ∧ d.getLsbD 0 = false)
        ∧ (s.regs.status.busy = true → ∃ u t d, step s = .next u ∧ step u = .next t
            ∧ u.regs.status.busy = false ∧ (u.regs.status.done = true ∨ u.regs.status.err = true)
            ∧ t.host = rest ∧ t.regs = u.regs ∧ t.mem = u.mem ∧ t.holes = u.holes
            ∧ t.resp = some ⟨false, d⟩ ∧ d.getLsbD 0 = false
            ∧ d.getLsbD 1 = u.regs.status.done ∧ d.getLsbD 2 = u.regs.status.err))
    ∧ (∀ (s : State) (w : Word) (rest : List HostEvent), s.Inv → s.regs.status.busy = false →
        s.host = .access (.write 0x00C .four w) :: .wait :: rest → (∀ e ∈ rest, NoCommandWrite e) →
        ∃ t, s.runEnd 2 = some t ∧ Idle t ∧ (t.regs.status.done = true ∨ t.regs.status.err = true)
          ∧ t.regs.status.lastop = w.extractLsb' 24 8 ∧ t.host = .wait :: rest
          ∧ ∀ i, decode w = .ok i → ∃ u u' : State, u.regs = (s.start w).regs ∧ u.pending = some w ∧ u.mem = s.mem ∧ u.holes = s.holes
              ∧ exec i u = .next u' ∧ t = { u' with draws := u'.draws + 1 })
    ∧ ∀ s : State, Idle s → (∀ e ∈ s.host, NoCommandWrite e) → s.runEnd 0 = some s

/-! ## The whole machine -/

/-- Every step keeps the invariant: memory and its undefined bits in their canonical form, `DONE` and `ERR` never both 1 and both 0 while busy, `ERRCODE` nonzero exactly
when `ERR` is 1 (60_exceptions.md R384), `PENDING` empty exactly when `BUSY` is 0 (10_state.md R34) and `LASTOP` its opcode, `BS_LEN` at most
32768 (R37). -/
def Obligations.StepKeepsInvariant : Prop :=
  ∀ s t : State, s.Inv → step s = .next t → t.Inv

/-- The invariant holds after power-on reset. -/
def Obligations.ResetSatisfiesInvariant : Prop := State.reset.Inv

/-- 60_exceptions.md R385: nothing stops the machine while the host stays inside the window. -/
def Obligations.StepNeverStops : Prop :=
  ∀ s : State, s.HostInWindow → ∃ t, step s = .next t ∧ t.HostInWindow

/-- Two canonical memories that hold the same bytes are the same data. -/
def Obligations.CanonicalMemoryIsItsBytes : Prop :=
  ∀ m m' : Memory, m.wf = true → m'.wf = true → (∀ off, m.lookup off = m'.lookup off) → m = m'

/-- 40_control.md R144: only the completion of a command sets `DONE`, and a command that raises no error always sets it. -/
def Obligations.DoneRisesOnlyAtCompletion : Prop :=
  (∀ s t : State, step s = .next t → s.regs.status.done = false → t.regs.status.done = true →
      ∃ w i, s.pending = some w ∧ decode w = .ok i ∧ t.pending = none ∧ t.regs.status.busy = false
        ∧ t.regs.status.err = s.regs.status.err)
    ∧ ∀ (i : Instr) (s : State), ∃ t, exec i s = .next t ∧ (t.regs.status.done = true ∨ ∃ code, t = failed s code)

/-- 10_state.md R61, R32, R35, R43: a command changes no register, no byte and no bit of a byte outside its write set but `STATUS` and
`PENDING`, and with an error nothing in it either; so no command writes `CTRL`, `ARG0`, `ARG1` or a descriptor register. The write set of an
append in `BSB` is the bits from `BS_LEN` up to the new length. (The write set is taken from the operands alone, log 6.) -/
def Obligations.CommandsStayInWriteSet : Prop :=
  (∀ (i : Instr) (s t : State), i.wf = true → s.regs.bsLen.toNat ≤ 32768 → exec i s = .next t →
      (∀ off, writesByte s off i = false → SameByte s t off)
        ∧ (∀ off j, j < 8 → (writesBits s off i).getLsbD j = false → (t.readByte 0 off).getLsbD j = (s.readByte 0 off).getLsbD j)
        ∧ (∀ r, r ≠ .status → writesReg r i = false → t.regs.read r = s.regs.read r)
        ∧ (∀ r ∈ [Reg.id, .ctrl, .arg0, .arg1, .dmSize, .dmCw, .dmBlk, .qrCfg, .qrBlk, .qrEcc], t.regs.read r = s.regs.read r)
        ∧ (t.regs.status.err = true → s.regs.status.err = false → t = failed s t.regs.status.errcode))
    ∧ (∀ (i : Instr) (s : State) (off : Nat), writesByte s off i = true ↔ writesBits s off i ≠ 0)
    ∧ ∀ (i : Instr) (s : State) (last : Nat), AppendsUpTo s i last →
        (∀ k, k < 32768 →
            ((writesBits s (0x3000 + k / 8) i).getLsbD (7 - k % 8) = true ↔ s.regs.bsLen.toNat ≤ k ∧ k < last))
          ∧ ∀ off, ¬ inBsb off → writesBits s off i = 0

/-- 60_exceptions.md R380, R381, R383: every command answers a next state, and either fails, changing `STATUS` and `PENDING` and nothing else, with
one of the codes that the table gives it, or completes. -/
def Obligations.CommandFailsOrCompletes : Prop :=
  ∀ (i : Instr) (s : State), ∃ t, exec i s = .next t
    ∧ ((∃ code ∈ codesOf i, t = failed s code)
        ∨ (t.regs.status = { s.regs.status with done := true, busy := false } ∧ t.pending = none))

/-- 40_control.md R140, 10_state.md R34: a write to `CMD` starts the command when the engine is idle and is dropped when it is busy. -/
def Obligations.CommandStart : Prop :=
  ∀ (s : State) (w : Word),
    (s.regs.status.busy = false →
      Writes s 0x00C .four w false { s with
        regs := { s.regs with status := ⟨true, false, false, s.regs.status.ovr, .none, w.extractLsb' 24 8⟩ }
        pending := some w })
      ∧ (s.regs.status.busy = true →
        Writes s 0x00C .four w false { s with regs := { s.regs with status := { s.regs.status with ovr := true } } })

/-! ## The control commands -/

/-- 40_control.md R141: NOP completes and changes nothing but `STATUS`. -/
def Obligations.NopCompletes : Prop :=
  Encoded 0x00 0 (fun _ => .nop)
    ∧ (∀ s : State, ∃ t, exec .nop s = .next t ∧ Succeeds s t (fun g => g) (fun _ => False))
    ∧ ∃ t, exec .nop (State.reset.start 0) = .next t ∧ t.regs.status.word = 2

/-- 40_control.md R142: GRID_CLEAR clears every module of the storage and sets the dimensions. -/
def Obligations.GridClearClearsEveryModule : Prop :=
  Encoded 0x01 16 (fun w => .gridClear (field w 0 8) (field w 8 8))
    ∧ ∀ (rows cols : Nat) (s : State), rows < 256 → cols < 256 →
      Ends (.gridClear rows cols) s [(rows = 0 ∨ cols = 0, .argRange)] (fun t =>
        Succeeds s t (fun g => { g with gridDim := ⟨BitVec.ofNat 8 rows, BitVec.ofNat 8 cols⟩ }) inGridOrResv
          ∧ ∀ r c, r < 256 → c < 256 → HoldsCell t r c false false)

/-! ## The bit-stream packer -/

/-- 41_bitstream.md R161: BS_CLEAR zeroes `BSB` and empties the stream. -/
def Obligations.BsClearEmptiesStream : Prop :=
  Encoded 0x10 0 (fun _ => .bsClear)
    ∧ ∀ s : State, ∃ t, exec .bsClear s = .next t ∧ Succeeds s t (fun g => { g with bsLen := 0 }) inBsb
        ∧ ∀ k, k < 4096 → Holds t (0x3000 + k) 0x00

/-- 41_bitstream.md R160, R162: BS_APPEND appends the low `w` bits of `ARG0`, most significant first, and leaves every other bit of the
buffer as it was. -/
def Obligations.BsAppendAppendsValue : Prop :=
  Encoded 0x11 6 (fun w => .bsAppend (field w 0 6))
    ∧ ∀ (w : Nat) (s : State), w < 64 →
      Ends (.bsAppend w) s
        [(w = 0 ∨ 32 < w, .argRange), (w < 32 ∧ 2 ^ w ≤ s.regs.arg0.toNat, .valueRange),
         (32768 < s.regs.bsLen.toNat + w, .capacityExceeded)]
        (fun t => Appends s t w
          ∧ ∀ k, k < w → HoldsBit t (s.regs.bsLen.toNat + k) (s.regs.arg0.getLsbD (w - 1 - k)))

/-- 41_bitstream.md R160, R163: BS_APPEND_BYTES appends `count` bytes of `CWB` from index `ARG0` on, each most significant bit first. -/
def Obligations.BsAppendBytesAppendsBytes : Prop :=
  Encoded 0x12 13 (fun w => .bsAppendBytes (field w 0 13))
    ∧ ∀ (count : Nat) (s : State), count < 8192 →
      Ends (.bsAppendBytes count) s
        [(4096 < s.regs.arg0.toNat + count, .argRange), (32768 < s.regs.bsLen.toNat + 8 * count, .capacityExceeded)]
        (fun t => Appends s t (8 * count)
          ∧ ∀ k j, k < count → j < 8 →
              HoldsBit t (s.regs.bsLen.toNat + 8 * k + j)
                ((s.readByte 0 (0x1000 + s.regs.arg0.toNat + k)).getLsbD (7 - j)))

/-- 41_bitstream.md R164: BS_APPEND of 8 bits with the value `CWB[src]` and BS_APPEND_BYTES of one byte at `src` leave the same state, apart
from `ARG0`, which names the value in one and the index in the other. -/
def Obligations.AppendByteIsAppendEightBits : Prop :=
  ∀ (s : State) (src : Nat), src < 4096 →
    ∃ t u,
      exec (.bsAppend 8) { s with regs := { s.regs with arg0 := (s.readByte 0 (0x1000 + src)).setWidth 32 } } = .next t
        ∧ exec (.bsAppendBytes 1) { s with regs := { s.regs with arg0 := BitVec.ofNat 32 src } } = .next u
        ∧ { t with regs := { t.regs with arg0 := 0 } } = { u with regs := { u.regs with arg0 := 0 } }

/-- 41_bitstream.md R166, R167: BS_PAD_QR appends a terminator of at most four zero bits, zero bits to the byte boundary, and then the pad
bytes 0xEC and 0x11 in turn up to the capacity. -/
def Obligations.BsPadQrFillsToCapacity : Prop :=
  Encoded 0x13 0 (fun _ => .bsPadQr)
    ∧ ∀ s : State,
      let cap := s.regs.arg0.toNat
      let len := s.regs.bsLen.toNat
      let byteEnd := (len + min 4 (cap - len) + 7) / 8
      Ends .bsPadQr s [(cap % 8 ≠ 0 ∨ 32768 < cap, .argRange), (cap < len, .capacityExceeded)] (fun t =>
        Appends s t (cap - len) ∧ t.regs.bsLen.toNat = cap
          ∧ (∀ i, len ≤ i → i < 8 * byteEnd → HoldsBit t i false)
          ∧ ∀ k, byteEnd ≤ k → k < cap / 8 → Holds t (0x3000 + k) (if (k - byteEnd) % 2 = 0 then 0xEC else 0x11))

/-- 41_bitstream.md R168: BS_TO_CW copies the byte-aligned stream to `CWB` and sets `CW_LEN`. -/
def Obligations.BsToCwCopiesStream : Prop :=
  Encoded 0x14 0 (fun _ => .bsToCw)
    ∧ ∀ s : State,
      let m := s.regs.bsLen.toNat / 8
      Ends .bsToCw s [(s.regs.bsLen.toNat % 8 ≠ 0, .alignment)] (fun t =>
        Succeeds s t (fun g => { g with cwLen := BitVec.ofNat 13 m }) (fun off => 0x1000 ≤ off ∧ off < 0x1000 + m)
          ∧ ∀ k, k < m → Holds t (0x1000 + k) (s.readByte 0 (0x3000 + k)))

/-- 41_bitstream.md R169, R170: CW_PAD_DM appends the fixed pad codeword 129 and then the filler of each position, every filler in 1 to 254. -/
def Obligations.CwPadDmFillsToTarget : Prop :=
  Encoded 0x15 13 (fun w => .cwPadDm (field w 0 13))
    ∧ (∀ p, (dmPadValue p).toNat = padValue p ∧ 1 ≤ padValue p ∧ padValue p ≤ 254 ∧ (padValue p = 254 ↔ p % 253 = 28))
    ∧ ∀ (target : Nat) (s : State), target < 8192 →
      let len := s.regs.cwLen.toNat
      Ends (.cwPadDm target) s [(4096 < target, .argRange), (target < len, .capacityExceeded)] (fun t =>
        Succeeds s t (fun g => { g with cwLen := BitVec.ofNat 13 target })
            (fun off => 0x1000 + len ≤ off ∧ off < 0x1000 + target)
          ∧ (len < target → Holds t (0x1000 + len) 129)
          ∧ ∀ p, len + 1 ≤ p → p < target → Holds t (0x1000 + p) (BitVec.ofNat 8 (padValue (p + 1))))

/-! ## GF(256) -/

/-- 42_gf256.md R200, R201, R204: GF_ADD, GF_MUL and GF_EXP always complete, and write their value to `RESULT` and nothing else. -/
def Obligations.GfAddMulExpWriteResult : Prop :=
  Encoded 0x20 16 (fun w => .gfAdd (w.extractLsb' 0 8) (w.extractLsb' 8 8))
    ∧ Encoded 0x21 16 (fun w => .gfMul (w.extractLsb' 0 8) (w.extractLsb' 8 8))
    ∧ Encoded 0x24 8 (fun w => .gfExp (field w 0 8))
    ∧ (∀ (a b : Byte) (s : State), ∃ t, exec (.gfAdd a b) s = .next t
        ∧ Succeeds s t (fun g => { g with result := (a ^^^ b).setWidth 32 }) (fun _ => False))
    ∧ (∀ (a b : Byte) (s : State), ∃ t, exec (.gfMul a b) s = .next t
        ∧ Succeeds s t (fun g => { g with result := (gfMul s.regs.ctrl.field a b).setWidth 32 }) (fun _ => False))
    ∧ ∀ (k : Nat) (s : State), ∃ t, exec (.gfExp k) s = .next t
        ∧ Succeeds s t (fun g => { g with result := (gfExp s.regs.ctrl.field k).setWidth 32 }) (fun _ => False)

/-- 42_gf256.md R195, R196, R198, R202, R203, R205: GF_DIV, GF_INV and GF_LOG raise GF_DOMAIN on 0 and otherwise write their value to `RESULT` and
nothing else. -/
def Obligations.GfDivInvLogWriteResult : Prop :=
  Encoded 0x22 16 (fun w => .gfDiv (w.extractLsb' 0 8) (w.extractLsb' 8 8))
    ∧ Encoded 0x23 8 (fun w => .gfInv (w.extractLsb' 0 8))
    ∧ Encoded 0x25 8 (fun w => .gfLog (w.extractLsb' 0 8))
    ∧ (∀ (a b : Byte) (s : State),
        let f := s.regs.ctrl.field
        Ends (.gfDiv a b) s [(b = 0, .gfDomain)] (fun t =>
          Succeeds s t (fun g => { g with
            result := if a = 0 then 0 else (gfExp f ((gfLog f a + 255 - gfLog f b) % 255)).setWidth 32 }) (fun _ => False)))
    ∧ (∀ (a : Byte) (s : State),
        let f := s.regs.ctrl.field
        Ends (.gfInv a) s [(a = 0, .gfDomain)] (fun t =>
          Succeeds s t (fun g => { g with result := (gfExp f ((255 - gfLog f a) % 255)).setWidth 32 }) (fun _ => False)))
    ∧ ∀ (a : Byte) (s : State),
        let f := s.regs.ctrl.field
        Ends (.gfLog a) s [(a = 0, .gfDomain)] (fun t =>
          Succeeds s t (fun g => { g with result := BitVec.ofNat 32 (gfLog f a) }) (fun _ => False)
            ∧ t.regs.result.toNat < 255)

/-- 42_gf256.md R193: the seven commands that `CTRL.FIELD` governs compute in the field it names; GF_ADD, ECC_DM and ECC_QR do the same whatever it
holds, ECC_DM with the generator and the codewords of the Data Matrix field and ECC_QR with those of the QR field. (The number of the read of
a codeword is log 3.) -/
def Obligations.FieldSelection : Prop :=
  ∀ (s : State) (f : GField),
    let s' : State := { s with regs := { s.regs with ctrl := { s.regs.ctrl with field := f } } }
    (∀ i : Instr, (i = .eccDm ∨ i = .eccQr ∨ ∃ a b, i = .gfAdd a b) →
        ∃ t, exec i s = .next t
          ∧ exec i s' = .next { t with regs := { t.regs with ctrl := { t.regs.ctrl with field := f } } })
      ∧ (∀ a b : Byte, ∃ t, exec (.gfMul a b) s' = .next t ∧ t.regs.result = (gfMul f a b).setWidth 32)
      ∧ (∀ a b : Byte, b ≠ 0 → ∃ t, exec (.gfDiv a b) s' = .next t ∧ t.regs.result = (gfDiv f a b).setWidth 32)
      ∧ (∀ a : Byte, a ≠ 0 → ∃ t, exec (.gfInv a) s' = .next t ∧ t.regs.result = (gfInv f a).setWidth 32)
      ∧ (∀ k : Nat, ∃ t, exec (.gfExp k) s' = .next t ∧ t.regs.result = (gfExp f k).setWidth 32)
      ∧ (∀ a : Byte, a ≠ 0 → ∃ t, exec (.gfLog a) s' = .next t ∧ t.regs.result = BitVec.ofNat 32 (gfLog f a))
      ∧ (∀ n : Nat, 0 < n → n < 256 → ∃ t, exec (.rsGenpoly n) s' = .next t ∧ HoldsGen t f n)
      ∧ (∀ l n : Nat, l < 8192 → n < 256 → ∃ t, exec (.rsEncode l n) s' = .next t
          ∧ (t = failed s' .argRange ∨ (HoldsGen t f n ∧ ∀ j, j < n →
              Holds t (0x2000 + field s.regs.arg1 0 13 + j * field s.regs.arg1 16 8)
                ((rsEcc f ((List.range l).map (fun k =>
                  s.readByte 0 (0x1000 + field s.regs.arg0 0 13 + k * field s.regs.arg0 16 8))) n).getD j 0))))
      ∧ (let d := s.regs.dmCw.d.toNat
        let blocks := s.regs.dmBlk.toNat
        let n := s.regs.dmCw.e.toNat / blocks
        ∃ t, exec .eccDm s' = .next t ∧ ((∃ code, t = failed s' code) ∨ (HoldsGen t .dm n ∧ ∀ b j, b < blocks → j < n →
            Holds t (0x2000 + d + j * blocks + b) ((rsEcc .dm (dmBlock s 1 d blocks b) n).getD j 0))))
      ∧ (let q := s.regs.qrBlk
        let nb := q.g1c.toNat + q.g2c.toNat
        let n := s.regs.qrEcc.toNat
        let d := q.g1c.toNat * q.g1d.toNat + q.g2c.toNat * q.g2d.toNat
        ∃ t, exec .eccQr s' = .next t ∧ ((∃ code, t = failed s' code) ∨ (HoldsGen t .qr n ∧ ∀ b j, b < nb → j < n →
            Holds t (0x2000 + d + j * nb + b) ((rsEcc .qr (qrBlock s 1 b) n).getD j 0))))

/-- 42_gf256.md R190 to R192, R197, R198: the powers of `alpha = 2`: each is the one before shifted left and reduced by the field polynomial; they
repeat after 255; every nonzero byte is exactly one of `alpha^0` to `alpha^254`, and the logarithm is its exponent. -/
def Obligations.GfPowersOfAlpha : Prop :=
  ∀ f : GField,
    gfExp f 0 = 1
      ∧ (∀ k, (gfExp f (k + 1)).toNat
          = if 128 ≤ (gfExp f k).toNat then 2 * (gfExp f k).toNat ^^^ fieldPoly f else 2 * (gfExp f k).toNat)
      ∧ (∀ k, gfExp f (k + 255) = gfExp f k)
      ∧ (∀ i j, i < 255 → j < 255 → gfExp f i = gfExp f j → i = j)
      ∧ (∀ a : Byte, a ≠ 0 → gfLog f a < 255 ∧ gfExp f (gfLog f a) = a)
      ∧ ∀ i, i < 255 → gfLog f (gfExp f i) = i

/-- 42_gf256.md R194: the product by logarithms is the product of the two polynomials over GF(2) reduced modulo the field polynomial. -/
def Obligations.GfMulIsPolynomialProduct : Prop :=
  (∀ (f : GField) (a b : Byte), (gfMul f a b).toNat = bitsReduce (fieldPoly f) (bitsProduct a.toNat b.toNat))
    ∧ (∀ (f : GField) (a b : Byte), a ≠ 0 → b ≠ 0 → gfMul f a b = gfExp f ((gfLog f a + gfLog f b) % 255))
    ∧ (∀ (f : GField) (a b : Byte), a = 0 ∨ b = 0 → gfMul f a b = 0)
    ∧ ∀ a b : Byte, gfAdd a b = a ^^^ b

/-- 42_gf256.md R196, R199: the laws of a field, in both fields. -/
def Obligations.GfFieldLaws : Prop :=
  ∀ f : GField,
    (∀ a b : Byte, gfAdd a b = gfAdd b a ∧ gfMul f a b = gfMul f b a)
      ∧ (∀ a b c : Byte, gfAdd (gfAdd a b) c = gfAdd a (gfAdd b c) ∧ gfMul f (gfMul f a b) c = gfMul f a (gfMul f b c))
      ∧ (∀ a b c : Byte, gfMul f a (gfAdd b c) = gfAdd (gfMul f a b) (gfMul f a c))
      ∧ (∀ a : Byte, gfAdd a a = 0 ∧ gfMul f a 1 = a ∧ gfMul f a 0 = 0)
      ∧ (∀ a : Byte, a ≠ 0 → gfMul f a (gfInv f a) = 1)
      ∧ (∀ a b : Byte, b ≠ 0 → gfMul f (gfDiv f a b) b = a)
      ∧ ∀ a : Byte, a ≠ 0 → gfExp f (gfLog f a) = a

/-! ## Reed–Solomon -/

/-- 43_reed_solomon.md R220: the generator polynomial is monic of degree `n`, and at every point it has the value of the product of `x - alpha^(b0 + i)`
for `i` below `n`. (Up to degree 255 the values at the 256 points determine a monic polynomial.) -/
def Obligations.GeneratorIsProductOfRoots : Prop :=
  ∀ (f : GField) (n : Nat),
    (genPoly f n).length = n + 1 ∧ (genPoly f n).getD n 0 = 1
      ∧ ∀ x : Byte, valueLow f (genPoly f n) x
          = (List.range n).foldl (fun acc i => gfMul f acc (gfAdd x (gfExp f (firstRoot f + i)))) 1

/-- 43_reed_solomon.md R222: the ECC codewords are the remainder of `D(x) x^n` modulo the generator: `D(x) x^n + R(x)` is a multiple of it and `R`
has `n` coefficients; and they are what the division register holds. -/
def Obligations.EccIsRemainder : Prop :=
  ∀ (f : GField) (d : List Byte) (n : Nat), 0 < n →
    (rsEcc f d n).length = n
      ∧ (∃ q : List Byte, ∀ k, ((d ++ rsEcc f d n).reverse).getD k 0 = productCoeff f q (genPoly f n) k)
      ∧ rsEcc f [] n = List.replicate n 0
      ∧ ∀ (x : Byte) (j : Nat), j < n →
          (rsEcc f (d ++ [x]) n).getD j 0
            = gfAdd ((rsEcc f d n).getD (j + 1) 0)
                (gfMul f (gfAdd x ((rsEcc f d n).getD 0 0)) ((genPoly f n).getD (n - 1 - j) 0))

/-- 43_reed_solomon.md R223: every syndrome of a data sequence followed by its ECC codewords is zero; an empty or all-zero sequence has all-zero
ECC codewords. -/
def Obligations.SyndromesAreZero : Prop :=
  ∀ (f : GField) (d : List Byte) (n : Nat), 0 < n → n < 256 →
    (∀ i, i < n → valueHigh f (d ++ rsEcc f d n) (gfExp f (firstRoot f + i)) = 0)
      ∧ ((∀ c ∈ d, c = 0) → rsEcc f d n = List.replicate n 0)

/-- 43_reed_solomon.md R221: RS_GENPOLY leaves the generator polynomial in `GEN` and its degree in `GEN_DEG`. -/
def Obligations.RsGenpolyWritesGenerator : Prop :=
  Encoded 0x30 8 (fun w => .rsGenpoly (field w 0 8))
    ∧ ∀ (n : Nat) (s : State), n < 256 →
      Ends (.rsGenpoly n) s [(n = 0, .argRange)] (fun t =>
        Succeeds s t (fun g => { g with genDeg := BitVec.ofNat 8 n }) inGen ∧ HoldsGen t s.regs.ctrl.field n)

/-- 43_reed_solomon.md R224, 30_encoding.md R112: RS_ENCODE writes the `n` ECC codewords of the strided data to the strided positions of `FSB`. -/
def Obligations.RsEncodeWritesStridedEcc : Prop :=
  Encoded 0x31 21 (fun w => .rsEncode (field w 0 13) (field w 13 8))
    ∧ ∀ (l n : Nat) (s : State), l < 8192 → n < 256 →
      let a := s.regs.arg0
      let b := s.regs.arg1
      let src := field a 0 13
      let step := field a 16 8
      let dst := field b 0 13
      let stride := field b 16 8
      let f := s.regs.ctrl.field
      Ends (.rsEncode l n) s
        [(field a 13 3 ≠ 0 ∨ field a 24 8 ≠ 0 ∨ field b 13 3 ≠ 0 ∨ field b 24 8 ≠ 0 ∨ n = 0 ∨ 4096 < l ∨ step = 0 ∨ stride = 0
            ∨ (0 < l ∧ 4095 < src + (l - 1) * step) ∨ 4095 < dst + (n - 1) * stride, .argRange)]
        (fun t =>
          Succeeds s t (fun g => { g with genDeg := BitVec.ofNat 8 n })
              (fun off => inGen off ∨ ∃ j, j < n ∧ off = 0x2000 + dst + j * stride)
            ∧ HoldsGen t f n
            ∧ ∀ j, j < n → Holds t (0x2000 + dst + j * stride)
                ((rsEcc f ((List.range l).map (fun k => s.readByte 0 (0x1000 + src + k * step))) n).getD j 0))

/-- 43_reed_solomon.md R225, R226: ECC_DM writes the data codewords in place and the interleaved ECC codewords of the round-robin blocks behind them.
The command reads each codeword twice, for the stream and for its block; on a byte that holds no defined value the two reads may differ
(log 3). -/
def Obligations.EccDmBuildsFinalStream : Prop :=
  Encoded 0x32 0 (fun _ => .eccDm)
    ∧ ∀ s : State,
      let d := s.regs.dmCw.d.toNat
      let e := s.regs.dmCw.e.toNat
      let blocks := s.regs.dmBlk.toNat
      let n := e / blocks
      Ends .eccDm s
        [(blocks = 0 ∨ e = 0 ∨ d = 0, .descriptorInvalid), (4096 < d + e, .descriptorInvalid),
         (e % blocks ≠ 0, .internalConsistency), (255 < e / blocks, .descriptorInvalid), (d < blocks, .internalConsistency),
         (s.regs.cwLen.toNat ≠ d, .internalConsistency)]
        (fun t =>
          Succeeds s t (fun g => { g with fsLen := BitVec.ofNat 13 (d + e), genDeg := BitVec.ofNat 8 n })
              (fun off => inGen off ∨ (0x2000 ≤ off ∧ off < 0x2000 + d + e))
            ∧ HoldsGen t .dm n
            ∧ (∀ k, k < d → Holds t (0x2000 + k) (s.readByte 0 (0x1000 + k)))
            ∧ ∀ b j, b < blocks → j < n →
                Holds t (0x2000 + d + j * blocks + b) ((rsEcc .dm (dmBlock s 1 d blocks b) n).getD j 0))

/-- 43_reed_solomon.md R228, R229: ECC_QR writes the data codewords of the blocks column by column and their ECC codewords column by column behind
them. The two reads of a codeword are as for ECC_DM (log 3). -/
def Obligations.EccQrBuildsFinalStream : Prop :=
  Encoded 0x33 0 (fun _ => .eccQr)
    ∧ ∀ s : State,
      let q := s.regs.qrBlk
      let nb := q.g1c.toNat + q.g2c.toNat
      let n := s.regs.qrEcc.toNat
      let d := q.g1c.toNat * q.g1d.toNat + q.g2c.toNat * q.g2d.toNat
      let e := nb * n
      Ends .eccQr s
        [(nb = 0, .descriptorInvalid),
         ((0 < q.g1c.toNat ∧ q.g1d.toNat = 0) ∨ (0 < q.g2c.toNat ∧ q.g2d.toNat = 0), .descriptorInvalid),
         (n = 0, .descriptorInvalid), (4096 < d + e, .descriptorInvalid), (s.regs.cwLen.toNat ≠ d, .internalConsistency)]
        (fun t =>
          Succeeds s t (fun g => { g with fsLen := BitVec.ofNat 13 (d + e), genDeg := BitVec.ofNat 8 n })
              (fun off => inGen off ∨ (0x2000 ≤ off ∧ off < 0x2000 + d + e))
            ∧ HoldsGen t .qr n
            ∧ (∀ b i, b < nb → i < qrLen q b →
                Holds t (0x2000 + qrDataPos q nb b i) (s.readByte 0 (0x1000 + qrStart q b + i)))
            ∧ ∀ b j, b < nb → j < n →
                Holds t (0x2000 + d + j * nb + b) ((rsEcc .qr (qrBlock s 1 b) n).getD j 0))

/-- 43_reed_solomon.md R230: what ECC_DM writes for a block, and what ECC_QR writes for its only block, RS_ENCODE writes with the strides of that
block. The codewords hold defined values. -/
def Obligations.RsEncodeBuildsEveryBlock : Prop :=
  (∀ (s : State) (b : Nat),
      let d := s.regs.dmCw.d.toNat
      let e := s.regs.dmCw.e.toNat
      let blocks := s.regs.dmBlk.toNat
      let n := e / blocks
      b < blocks → e ≠ 0 → d + e ≤ 4096 → e % blocks = 0 → n ≤ 255 → blocks ≤ d → s.regs.cwLen.toNat = d →
      (∀ k, k < d → ∃ v, Holds s (0x1000 + k) v) →
      ∃ t u, exec .eccDm s = .next t
        ∧ exec (.rsEncode (dmBlock s 0 d blocks b).length n) { s with regs := { s.regs with
            arg0 := BitVec.ofNat 32 (blocks * 2 ^ 16 + b)
            arg1 := BitVec.ofNat 32 (blocks * 2 ^ 16 + (d + b))
            ctrl := { s.regs.ctrl with field := .dm } } } = .next u
        ∧ ∀ j, j < n → ∃ v, Holds t (0x2000 + d + j * blocks + b) v ∧ Holds u (0x2000 + d + j * blocks + b) v)
    ∧ ∀ s : State,
      let q := s.regs.qrBlk
      let n := s.regs.qrEcc.toNat
      let d := qrLen q 0
      q.g1c.toNat + q.g2c.toNat = 1 → d ≠ 0 → n ≠ 0 → s.regs.cwLen.toNat = d →
      (∀ k, k < d → ∃ v, Holds s (0x1000 + k) v) →
      ∃ t u, exec .eccQr s = .next t
        ∧ exec (.rsEncode d n) { s with regs := { s.regs with
            arg0 := BitVec.ofNat 32 (2 ^ 16)
            arg1 := BitVec.ofNat 32 (2 ^ 16 + d)
            ctrl := { s.regs.ctrl with field := .qr } } } = .next u
        ∧ ∀ j, j < n → ∃ v, Holds t (0x2000 + d + j) v ∧ Holds u (0x2000 + d + j) v

/-- 43_reed_solomon.md R232: RS_GENPOLY, RS_ENCODE, ECC_DM and ECC_QR leave the generator they used in `GEN` and its degree in `GEN_DEG`; with an
error they change neither. -/
def Obligations.GeneratorSideEffect : Prop :=
  ∀ (s : State) (i : Instr) (f : GField) (n : Nat),
    (n < 256 ∧ f = s.regs.ctrl.field ∧ (i = .rsGenpoly n ∨ ∃ l, i = .rsEncode l n))
      ∨ (i = .eccDm ∧ f = .dm ∧ n = s.regs.dmCw.e.toNat / s.regs.dmBlk.toNat)
      ∨ (i = .eccQr ∧ f = .qr ∧ n = s.regs.qrEcc.toNat) →
    ∃ t, exec i s = .next t ∧ ((∃ code, t = failed s code) ∨ HoldsGen t f n)

/-! ## The Data Matrix layout -/

/-- 44_layout_dm.md R260, R271: the geometry ROM is the table, the host's capacities agree with it, and the mapping matrix of the 10 x 10 size is
the figure. -/
def Obligations.DataMatrixTables : Prop :=
  dmRom.map dmRow = dmTable
    ∧ (∀ x ∈ dmSizeTable, ∃ g ∈ dmRom, g.rows = x.rows ∧ g.cols = x.rows ∧ x.d + x.e = g.k ∧ x.e % x.b = 0)
    ∧ (List.range 8).map (fun row => (List.range 8).map (fun col =>
          ((dmSweep 8 8).a.at row col).map (fun p => 10 * p.1 + p.2)))
      = [[21, 22, 36, 37, 38, 43, 44, 45].map some, [23, 24, 25, 51, 52, 46, 47, 48].map some,
         [26, 27, 28, 53, 54, 55, 11, 12].map some, [15, 61, 62, 56, 57, 58, 13, 14].map some,
         [18, 63, 64, 65, 81, 82, 16, 17].map some, [72, 66, 67, 68, 83, 84, 85, 71].map some,
         [74, 75, 31, 32, 86, 87, 88, 73].map some, [77, 78, 33, 34, 35, 41, 42, 76].map some]

/-- 44_layout_dm.md R260, R262, R266, R267: for every size of the ROM the sweep places exactly `K` codewords; every module call lands inside the
matrix on an empty entry; every bit of every codeword is placed once; what is left empty is the fixed corner, for the four sizes that
have one, and nothing else. -/
def Obligations.SweepFillsMatrix : Prop :=
  ∀ g ∈ dmRom,
    let w := dmSweep g.nrow g.ncol
    w.k = g.k + 1 ∧ w.a.length = 8 * g.k
      ∧ (∀ x ∈ w.a, x.row < g.nrow ∧ x.col < g.ncol ∧ 1 ≤ x.k ∧ x.k ≤ g.k ∧ 1 ≤ x.bit ∧ x.bit ≤ 8)
      ∧ (w.a.map (fun x => (x.row, x.col))).Nodup ∧ (w.a.map (fun x => (x.k, x.bit))).Nodup
      ∧ ∀ row col, row < g.nrow → col < g.ncol →
          (w.a.at row col = none ↔ dmCornered g ∧ g.nrow ≤ row + 2 ∧ g.ncol ≤ col + 2)

/-- 44_layout_dm.md R261, R267 to R270: DM_LAYOUT accepts the sizes of the ROM with a stream of exactly `K` codewords, and builds the symbol: each data
module from its codeword bit, the fixed corner, the borders of every region, and nothing outside. -/
def Obligations.DmLayoutBuildsSymbol : Prop :=
  Encoded 0x40 0 (fun _ => .dmLayout)
    ∧ (∀ s : State, (∀ g ∈ dmRom, ¬ (g.rows = s.regs.dmSize.rows.toNat ∧ g.cols = s.regs.dmSize.cols.toNat)) →
        exec .dmLayout s = .next (failed s .descriptorInvalid))
    ∧ ∀ (s : State) (g : DmGeometry), g ∈ dmRom → g.rows = s.regs.dmSize.rows.toNat → g.cols = s.regs.dmSize.cols.toNat →
      Ends .dmLayout s [(s.regs.fsLen.toNat ≠ g.k, .internalConsistency)] (fun t =>
        Succeeds s t (fun r => { r with gridDim := ⟨s.regs.dmSize.rows, s.regs.dmSize.cols⟩ }) inGridOrResv
          ∧ (∀ row col, row < g.nrow → col < g.ncol →
              let r := row + 2 * (row / g.h) + 1
              let c := col + 2 * (col / g.w) + 1
              (∀ k bit, (dmSweep g.nrow g.ncol).a.at row col = some (k, bit) →
                  HoldsCell t r c ((s.readByte 0 (0x2000 + (k - 1))).getLsbD (8 - bit)) false)
                ∧ ((dmSweep g.nrow g.ncol).a.at row col = none →
                  HoldsCell t r c (decide ((row + 1 = g.nrow ∧ col + 1 = g.ncol) ∨ (row + 2 = g.nrow ∧ col + 2 = g.ncol))) true))
          ∧ (∀ i j y x, i < g.rv → j < g.rh → y ≤ g.h + 1 → x ≤ g.w + 1 →
              (y = 0 ∨ y = g.h + 1 ∨ x = 0 ∨ x = g.w + 1) →
              HoldsCell t (i * (g.h + 2) + y) (j * (g.w + 2) + x) (decide (borderIsDark g.h g.w y x)) true)
          ∧ ∀ r c, r < 256 → c < 256 → (g.rows ≤ r ∨ g.cols ≤ c) → HoldsCell t r c false false)

/-! ## The QR layout -/

/-- 45_layout_qr.md R292, R297, R299: the alignment coordinates of the forty versions, the 32 format words and the 34 version words are those of the
tables. -/
def Obligations.QrTables : Prop :=
  (List.range 40).map (fun v => qrAlignPositions (v + 1))
      = [[], [6, 18], [6, 22], [6, 26], [6, 30], [6, 34], [6, 22, 38], [6, 24, 42], [6, 26, 46], [6, 28, 50]]
        ++ [[6, 30, 54], [6, 32, 58], [6, 34, 62], [6, 26, 46, 66], [6, 26, 48, 70], [6, 26, 50, 74], [6, 30, 54, 78],
            [6, 30, 56, 82], [6, 30, 58, 86], [6, 34, 62, 90]]
        ++ [[6, 28, 50, 72, 94], [6, 26, 50, 74, 98], [6, 30, 54, 78, 102], [6, 28, 54, 80, 106], [6, 32, 58, 84, 110],
            [6, 30, 58, 86, 114], [6, 34, 62, 90, 118], [6, 26, 50, 74, 98, 122], [6, 30, 54, 78, 102, 126],
            [6, 26, 52, 78, 104, 130]]
        ++ [[6, 30, 56, 82, 108, 134], [6, 34, 60, 86, 112, 138], [6, 30, 58, 86, 114, 142], [6, 34, 62, 90, 118, 146],
            [6, 30, 54, 78, 102, 126, 150], [6, 24, 50, 76, 102, 128, 154], [6, 28, 54, 80, 106, 132, 158],
            [6, 32, 58, 84, 110, 136, 162], [6, 26, 54, 82, 110, 138, 166], [6, 30, 58, 86, 114, 142, 170]]
    ∧ [1, 0, 3, 2].map (fun level => (List.range 8).map (qrFormatWord level))
      = [[0x77C4, 0x72F3, 0x7DAA, 0x789D, 0x662F, 0x6318, 0x6C41, 0x6976],
         [0x5412, 0x5125, 0x5E7C, 0x5B4B, 0x45F9, 0x40CE, 0x4F97, 0x4AA0],
         [0x355F, 0x3068, 0x3F31, 0x3A06, 0x24B4, 0x2183, 0x2EDA, 0x2BED],
         [0x1689, 0x13BE, 0x1CE7, 0x19D0, 0x0762, 0x0255, 0x0D0C, 0x083B]]
    ∧ (List.range 34).map (fun v => qrVersionWord (v + 7))
      = [0x07C94, 0x085BC, 0x09A99, 0x0A4D3, 0x0BBF6, 0x0C762, 0x0D847, 0x0E60D, 0x0F928, 0x10B78]
        ++ [0x1145D, 0x12A17, 0x13532, 0x149A6, 0x15683, 0x168C9, 0x177EC, 0x18EC4, 0x191E1, 0x1AFAB]
        ++ [0x1B08E, 0x1CC1A, 0x1D33F, 0x1ED75, 0x1F250, 0x209D5, 0x216F0, 0x228BA, 0x2379F, 0x24B0B] ++ [0x2542E, 0x26A64, 0x27541, 0x28C69]

/-- 45_layout_qr.md R290, R291, R293 to R295, R298, R300, R304: in every version, which modules are function modules, and their values: finders and
separators, alignment patterns, timing, format areas, dark module, version blocks; every other module is a data module. -/
def Obligations.QrFunctionModules : Prop :=
  ∀ v fmt r c : Nat, 1 ≤ v → v ≤ 40 →
    let n := 17 + 4 * v
    let value := (qrFrame v fmt).function r c
    r < n → c < n →
    (∀ p ∈ finderCentres n, ∀ d, d ≤ 4 → AtDistance d r c p.1 p.2 → value = some (decide (d ≠ 2 ∧ d ≠ 4)))
      ∧ (∀ r0 c0 d, AlignmentCentre (qrAlignPositions v) r0 c0 → d ≤ 2 → AtDistance d r c r0 c0 → value = some (decide (d ≠ 1)))
      ∧ ((∀ p ∈ finderCentres n, ¬ Near 4 r c p.1 p.2) →
          (r = 6 → value = some (decide (c % 2 = 0))) ∧ (c = 6 → value = some (decide (r % 2 = 0))))
      ∧ (∀ k, k < 15 → (r, c) ∈ formatPlaces n k → value = some (fmt.testBit k))
      ∧ ((r, c) = (n - 8, 8) → value = some true)
      ∧ (7 ≤ v → ∀ k, k < 18 → (r, c) ∈ versionPlaces n k → value = some ((qrVersionWord v).testBit k))
      ∧ ((∀ p ∈ finderCentres n, ¬ Near 4 r c p.1 p.2) →
          (∀ r0 c0, AlignmentCentre (qrAlignPositions v) r0 c0 → ¬ Near 2 r c r0 c0) → r ≠ 6 → c ≠ 6 →
          (∀ k, k < 15 → (r, c) ∉ formatPlaces n k) → (r, c) ≠ (n - 8, 8) →
          (7 ≤ v → ∀ k, k < 18 → (r, c) ∉ versionPlaces n k) → value = none)

/-- 45_layout_qr.md R302: the placement visits every data module exactly once and no function module, in the zig-zag order of column pairs. -/
def Obligations.QrPlacementOrder : Prop :=
  ∀ v fmt : Nat, 1 ≤ v → v ≤ 40 →
    let q := qrFrame v fmt
    let n := 17 + 4 * v
    (∀ r c, (r, c) ∈ q.path ↔ r < n ∧ c < n ∧ q.function r c = none)
      ∧ q.path.Pairwise (fun a b => qrVisit n a.1 a.2 < qrVisit n b.1 b.2)

/-- 45_layout_qr.md R301: in every version the number of modules that are no function module, and the number of modules that the placement visits,
is `M(V)`; divided by 8 it leaves 0, 3, 4 or 7 remainder bits. -/
def Obligations.QrDataModuleCount : Prop :=
  (∀ v fmt : Nat, 1 ≤ v → v ≤ 40 →
      let q := qrFrame v fmt
      let rows := List.range (17 + 4 * v)
      (rows.map (fun r => (rows.filter (fun c => (q.function r c).isNone)).length)).sum = qrModules v
        ∧ q.path.length = qrModules v
        ∧ qrModules v % 8 ∈ [0, 3, 4, 7])
    ∧ [1, 2, 40].map (fun v => (qrModules v, qrModules v / 8, qrModules v % 8)) = [(208, 26, 0), (359, 44, 7), (29648, 3706, 0)]

/-- 45_layout_qr.md R296, R302, R303, R310: QR_LAYOUT accepts the versions 1 to 40 with a stream that fills the symbol up to the remainder, and builds
the symbol: function modules, masked stream bits in placement order, masked zeros behind the stream, and nothing outside. -/
def Obligations.QrLayoutBuildsSymbol : Prop :=
  Encoded 0x41 0 (fun _ => .qrLayout)
    ∧ ∀ s : State,
      let v := s.regs.qrCfg.version.toNat
      let mask := s.regs.qrCfg.mask.toNat
      let len := s.regs.fsLen.toNat
      let n := 17 + 4 * v
      let q := qrFrame v (qrFormatWord s.regs.qrCfg.level.toNat mask)
      Ends .qrLayout s
        [(v = 0 ∨ 40 < v, .descriptorInvalid), (qrModules v < 8 * len ∨ 7 < qrModules v - 8 * len, .internalConsistency)]
        (fun t =>
          Succeeds s t (fun g => { g with gridDim := ⟨BitVec.ofNat 8 n, BitVec.ofNat 8 n⟩ }) inGridOrResv
            ∧ (∀ r c b, r < n → c < n → q.function r c = some b → HoldsCell t r c b true)
            ∧ (∀ k r c, q.path[k]? = some (r, c) →
                HoldsCell t r c
                  ((if k < 8 * len then (s.readByte 0 (0x2000 + k / 8)).getLsbD (7 - k % 8) else false)
                    ^^ decide (maskHolds mask r c)) false)
            ∧ ∀ r c, r < 256 → c < 256 → (n ≤ r ∨ n ≤ c) → HoldsCell t r c false false)

/-! ## The host's side -/

/-- 20_memory.md R81, R82, R87, R90, 60_exceptions.md R386: which accesses are bus errors; a bus error answers with the error flag, reads 0 and
changes nothing; every other access is accepted; no read has a side effect. -/
def Obligations.BusErrors : Prop :=
  ∀ (s : State) (off : Nat) (n : Width) (v : Word), off < 0x8000 →
    (badAccess off n →
        s.hostAccess (.read off n) = .next { s with resp := some ⟨true, 0⟩ }
          ∧ Writes s off n v true s)
      ∧ (¬ badAccess off n →
          (∃ data, s.hostAccess (.read off n) = .next { s with resp := some ⟨false, data⟩ })
            ∧ ∃ t, Writes s off n v false t)

/-- 20_memory.md R84: the bus is little-endian, and a wider read sees the same bytes as the reads of one byte. -/
def Obligations.WiderReadsAreBytes : Prop :=
  ∀ (s : State) (off : Nat), mapped off → 0x48 ≤ off →
    let byte (j : Nat) : Byte := (s.busRead (off + j) .one).data.setWidth 8
    (s.busRead off .one).data = (byte 0).setWidth 32
      ∧ (off % 2 = 0 → (s.busRead off .two).data = (byte 1 ++ byte 0).setWidth 32)
      ∧ (off % 4 = 0 → (s.busRead off .four).data = byte 3 ++ byte 2 ++ byte 1 ++ byte 0)

/-- 20_memory.md R83, R84, R91: with the engine idle, a write to `CWB`, `FSB` or `BSB` stores its bytes at its offsets and nothing else, and a read of
the same place gives the value written. -/
def Obligations.BufferWriteThenRead : Prop :=
  ∀ (s : State) (off : Nat) (n : Width) (v : Word), Idle s → inWritable off → off % n.bytes = 0 →
    ∃ t, s.hostAccess (.write off n v) = .next t
      ∧ t.regs = s.regs ∧ t.pending = none ∧ t.host = s.host ∧ t.draws = s.draws
      ∧ (∀ j, j < n.bytes → Holds t (off + j) (v.extractLsb' (8 * j) 8))
      ∧ (∀ a, a < off ∨ off + n.bytes ≤ a → SameByte s t a)
      ∧ t.busRead off n = ⟨false, (v.setWidth (8 * n.bytes)).setWidth 32⟩

/-- 20_memory.md R88, 10_state.md R42: with the engine idle, a write to a read-only register or window is accepted and changes nothing, a write to
`STATUS` leaves its read-only fields, and a reserved bit of a write has no effect. -/
def Obligations.ReadOnlyIgnoresWrites : Prop :=
  ∀ (s : State) (v : Word), s.regs.status.busy = false →
    (∀ (off : Nat) (n : Width),
        ((off ∈ [0x000, 0x018, 0x01C, 0x028, 0x02C] ∧ n = .four) ∨ ((inGen off ∨ inGridOrResv off) ∧ off % n.bytes = 0)) →
        Writes s off n v false s)
      ∧ (∃ t, s.hostAccess (.write 0x008 .four v) = .next t ∧ t.regs.status.busy = s.regs.status.busy
          ∧ t.regs.status.lastop = s.regs.status.lastop
          ∧ (v.getLsbD 2 = false → t.regs.status.errcode = s.regs.status.errcode))
      ∧ ∀ p ∈ storedRegisters, s.hostAccess (.write p.1 .four v) = s.hostAccess (.write p.1 .four (v &&& p.2))

/-- 10_state.md R30, R35, R38, R39, R42, R44 to R49: with the engine idle, a read of a read-write register gives what was written in its defined fields
and 0 in its reserved bits; no other register, and no byte of memory, is changed by the write. -/
def Obligations.StoredRegisterWriteThenRead : Prop :=
  ∀ (s : State) (v : Word), Idle s → ∀ p ∈ storedRegisters,
    ∃ t, s.hostAccess (.write p.1 .four v) = .next t
      ∧ t.busRead p.1 .four = ⟨false, v &&& p.2⟩
      ∧ (∀ off, off < 0x48 → off % 4 = 0 → off ≠ p.1 → t.busRead off .four = s.busRead off .four)
      ∧ t.mem = s.mem ∧ t.holes = s.holes ∧ t.pending = none ∧ t.host = s.host ∧ t.draws = s.draws

/-- 10_state.md R32, 70_reset_and_hazards.md R431: a write to `CTRL` stores `IE` always, and `FIELD` unless a command runs; with `SRST` it resets and its
other bits are discarded; a read shows the two fields and 0; no command writes `CTRL`. -/
def Obligations.CtrlWrites : Prop :=
  (∀ (s : State) (v : Word), v.getLsbD 1 = false →
      Writes s 0x004 .four v false { s with
        regs := { s.regs with ctrl := ⟨v.getLsbD 0,
          if s.regs.status.busy = true then s.regs.ctrl.field else if v.getLsbD 2 = true then .qr else .dm⟩ } })
    ∧ (∀ (s : State) (v : Word), v.getLsbD 1 = true →
        ∃ t, s.hostAccess (.write 0x004 .four v) = .next t ∧ t.regs = Regs.reset ∧ t.pending = none)
    ∧ (∀ s : State, s.busRead 0x004 .four
        = ⟨false, (if s.regs.ctrl.ie = true then 1 else 0) ||| (if s.regs.ctrl.field = .qr then 4 else 0)⟩)
    ∧ ∀ (i : Instr) (s t : State), exec i s = .next t → t.regs.ctrl = s.regs.ctrl

/-- 10_state.md R33, 60_exceptions.md R383, R392: the bits of `STATUS`; a write of 1 to `DONE`, `ERR` or `OVR` clears it, busy or idle, and clearing `ERR`
clears `ERRCODE`; the interrupt line is `IE and (DONE or ERR)`, so that acknowledging both drops it. -/
def Obligations.StatusReadAndAcknowledge : Prop :=
  (∀ s : State, ∃ d, s.busRead 0x008 .four = ⟨false, d⟩
      ∧ d.getLsbD 0 = s.regs.status.busy ∧ d.getLsbD 1 = s.regs.status.done ∧ d.getLsbD 2 = s.regs.status.err
      ∧ d.getLsbD 3 = s.regs.status.ovr ∧ field d 4 4 = 0 ∧ d.extractLsb' 8 8 = s.regs.status.errcode.code
      ∧ d.extractLsb' 16 8 = s.regs.status.lastop ∧ field d 24 8 = 0)
    ∧ (∀ (s : State) (v : Word), ∃ t, Writes s 0x008 .four v false t
        ∧ t = { s with regs := { s.regs with status := { s.regs.status with
            done := s.regs.status.done && !v.getLsbD 1
            err := s.regs.status.err && !v.getLsbD 2
            ovr := s.regs.status.ovr && !v.getLsbD 3
            errcode := if v.getLsbD 2 = true then .none else s.regs.status.errcode } } }
        ∧ (v.getLsbD 1 = true → v.getLsbD 2 = true → t.irq = false))
    ∧ (∀ s : State, s.irq = true ↔ s.regs.ctrl.ie = true ∧ (s.regs.status.done = true ∨ s.regs.status.err = true))
    ∧ [ErrorCode.none, .illegalCommand, .argRange, .valueRange, .capacityExceeded, .gfDomain, .alignment, .descriptorInvalid,
        .internalConsistency].map ErrorCode.code = [0, 1, 2, 3, 4, 5, 6, 7, 8]

/-- 70_reset_and_hazards.md R430, 60_exceptions.md R387: while a command runs, a host write is dropped and sets `OVR`, but for writes to `CTRL` and `STATUS`;
the write to `STATUS` can clear only `OVR`; a bus error does not set it. -/
def Obligations.BusyWritesAreDropped : Prop :=
  ∀ (s : State) (off : Nat) (n : Width) (v : Word), s.regs.status.busy = true → s.regs.status.Consistent → off < 0x8000 →
    (¬ badAccess off n → off ≠ 0x004 → off ≠ 0x008 →
        Writes s off n v false { s with regs := { s.regs with status := { s.regs.status with ovr := true } } })
      ∧ (off = 0x008 → n = .four →
        Writes s off n v false { s with
          regs := { s.regs with status := { s.regs.status with ovr := s.regs.status.ovr && !v.getLsbD 3 } } })
      ∧ (badAccess off n → Writes s off n v true s)

/-- 70_reset_and_hazards.md R422: a soft reset, at any time, gives every register its reset value and empties `PENDING`; the bits in the write set
of a running command hold no defined value any more, and every other bit is kept; when no command runs it keeps every byte. (Log 6 says how the
write set is taken, log 7 how its bits read.) -/
def Obligations.SoftReset : Prop :=
  ∀ (s : State) (v : Word), v.getLsbD 1 = true →
    ∃ t, s.hostAccess (.write 0x004 .four v) = .next t
      ∧ t.regs = Regs.reset ∧ t.pending = none ∧ t.irq = false ∧ t.host = s.host ∧ t.draws = s.draws
      ∧ (NoCommand s → t.mem = s.mem ∧ t.holes = s.holes)
      ∧ ∀ w i, s.pending = some w → decode w = .ok i →
          (∀ n off j, j < 8 → (writesBits s off i).getLsbD j = false → (t.readByte n off).getLsbD j = (s.readByte n off).getLsbD j)
            ∧ (∀ n off j, j < 8 → (writesBits s off i).getLsbD j = true →
                (t.readByte n off).getLsbD j = (Config.freeByte s.draws n off).getLsbD j)
            ∧ (∀ off, writesBits s off i ≠ 0 → ∀ b, ¬ Holds t off b)
            ∧ ∀ off b, writesBits s off i = 0 → Holds s off b → Holds t off b

/-- 70_reset_and_hazards.md R420, 10_state.md R30, R31, R62: after power-on reset `ID` reads 0x42534501, every other register reads 0, nothing is pending,
the interrupt line is low, and no byte of a buffer holds a defined value. -/
def Obligations.ResetValues : Prop :=
  State.reset.busRead 0x000 .four = ⟨false, 0x42534501⟩
    ∧ (∀ off, off < 0x48 → off % 4 = 0 → off ≠ 0 → State.reset.busRead off .four = ⟨false, 0⟩)
    ∧ State.reset.pending = none ∧ State.reset.irq = false ∧ ∀ off, State.reset.mem.lookup off = none

/-- 70_reset_and_hazards.md R423: with the registers as after reset (apart from `STATUS`, which the command's start writes), ECC_DM, ECC_QR, DM_LAYOUT and
QR_LAYOUT end in DESCRIPTOR_INVALID, and BS_TO_CW succeeds with `CW_LEN = 0`. -/
def Obligations.CommandsAfterReset : Prop :=
  ∀ s : State, { s.regs with status := Regs.reset.status } = Regs.reset →
    exec .eccDm s = .next (failed s .descriptorInvalid) ∧ exec .eccQr s = .next (failed s .descriptorInvalid)
      ∧ exec .dmLayout s = .next (failed s .descriptorInvalid) ∧ exec .qrLayout s = .next (failed s .descriptorInvalid)
      ∧ ∃ t, exec .bsToCw s = .next t ∧ t.regs.status.done = true ∧ t.regs.cwLen = 0 ∧ ∀ off, SameByte s t off

/-- 20_memory.md R84, R85, R91, R98, 10_state.md R31, R34 to R42, R44 to R49, 70_reset_and_hazards.md R432: what a host read gives. With no command
pending, every register reads its 32-bit view and every byte of the six windows its value, at every width; a byte that is defined reads that
value. While a command runs, `ID`, `CTRL`, `STATUS` and everything outside the command's write set, to the bit, read their current values.
(What is inside it reads as a constant of which nothing is known, log 6; a byte that is not defined reads as the constant of log 3.) -/
def Obligations.ReadsWhileBusy : Prop :=
  (∀ s : State, NoCommand s →
      (∀ p ∈ registerView s.regs, s.hostAccess (.read p.1 .four) = .next { s with resp := some ⟨false, p.2⟩ })
        ∧ (∀ (off : Nat) (n : Width), mapped off → 0x48 ≤ off → off % n.bytes = 0 →
            ∃ data, s.hostAccess (.read off n) = .next { s with resp := some ⟨false, data⟩ }
              ∧ (∀ j, j < n.bytes → data.extractLsb' (8 * j) 8 = s.readByte 0 (off + j)) ∧ data.toNat < 2 ^ (8 * n.bytes))
        ∧ ∀ (off : Nat) (b : Byte), mapped off → 0x48 ≤ off → Holds s off b → s.busRead off .one = ⟨false, b.setWidth 32⟩)
    ∧ ∀ (s : State) (w : Word) (i : Instr), s.pending = some w → decode w = .ok i →
      (∀ r : Reg, r = .id ∨ r = .ctrl ∨ r = .status ∨ writesReg r i = false →
          s.busRead r.offset .four = ⟨false, s.regs.read r⟩)
        ∧ (∀ off, mapped off → 0x48 ≤ off → writesByte s off i = false →
            s.busRead off .one = ⟨false, (s.readByte 0 off).setWidth 32⟩)
        ∧ ∀ off j, mapped off → 0x48 ≤ off → j < 8 → (writesBits s off i).getLsbD j = false →
            (s.busRead off .one).data.getLsbD j = (s.readByte 0 off).getLsbD j

end
end

