-- ==== Sys2Proof/Laws/Memory.lean ====
section
/-! SUPPORT. The laws of the memory: what a read finds after a write or an unmarking, and that both keep the canonical form. -/

namespace Sys2Proof.Machine.Memory

@[simp] theorem lookup_nil (a : Nat) : lookup [] a = none := rfl

theorem lookup_cons (k : Nat) (b : Byte) (m : Memory) (a : Nat) :
    lookup ((k, b) :: m) a = if k = a then some b else lookup m a := rfl

theorem lookup_append (m n : Memory) (a : Nat) :
    lookup (m ++ n) a = (lookup m a).or (lookup n a) := by
  induction m with
  | nil => simp [lookup]
  | cons c m ih =>
    obtain ⟨k, b⟩ := c
    by_cases h : k = a <;> simp [lookup_cons, h, ih]

/-- Dropping cells by their offset drops exactly the reads at those offsets. -/
theorem lookup_filter (p : Nat → Bool) (m : Memory) (a : Nat) :
    lookup (m.filter (fun c => p c.1)) a = if p a then lookup m a else none := by
  induction m with
  | nil => simp [lookup]
  | cons c m ih =>
    obtain ⟨k, b⟩ := c
    by_cases hk : p k
    · by_cases h : k = a
      · subst h; simp [lookup_cons, hk]
      · simp [lookup_cons, hk, h, ih]
    · by_cases h : k = a
      · subst h; simp [hk, ih]
      · simp [lookup_cons, hk, h, ih]

theorem lookup_cellsFrom (off : Nat) (bytes : List Byte) (a : Nat) :
    lookup (cellsFrom off bytes) a = if off ≤ a then bytes[a - off]? else none := by
  induction bytes generalizing off with
  | nil => simp [cellsFrom]
  | cons b bs ih =>
    rw [cellsFrom, lookup_cons, ih]
    by_cases h : off = a
    · subst h; simp
    · by_cases hlt : off ≤ a
      · have h1 : off + 1 ≤ a := by omega
        have h2 : a - off = (a - (off + 1)) + 1 := by omega
        simp [h, h1, hlt, h2]
      · have h1 : ¬ off + 1 ≤ a := by omega
        simp [h, h1, hlt]

/-- A write lands on its own bytes and leaves every other byte alone. -/
theorem lookup_splice (m : Memory) (off : Nat) (bytes : List Byte) (a : Nat) :
    (m.splice off bytes).lookup a
      = if off ≤ a ∧ a < off + bytes.length then bytes[a - off]? else m.lookup a := by
  unfold splice
  rw [lookup_append, lookup_append, lookup_filter (fun k => decide (k < off)),
    lookup_filter (fun k => decide (off + bytes.length ≤ k)), lookup_cellsFrom]
  by_cases h1 : off ≤ a
  · by_cases h2 : a < off + bytes.length
    · have h3 : ¬ a < off := by omega
      have h4 : ¬ off + bytes.length ≤ a := by omega
      simp [h1, h2, h3, h4]
    · have h3 : ¬ a < off := by omega
      have h4 : off + bytes.length ≤ a := by omega
      have h5 : bytes[a - off]? = none := List.getElem?_eq_none (by omega)
      simp [h1, h2, h3, h4, h5]
  · have h3 : a < off := by omega
    have h4 : ¬ off + bytes.length ≤ a := by omega
    simp [h1, h3, h4]

theorem lookup_splice_inside (m : Memory) (off : Nat) (bytes : List Byte) (k : Nat) (h : k < bytes.length) :
    (m.splice off bytes).lookup (off + k) = some bytes[k] := by
  rw [lookup_splice]
  simp [h]

theorem lookup_splice_outside (m : Memory) (off : Nat) (bytes : List Byte) (a : Nat)
    (h : a < off ∨ off + bytes.length ≤ a) : (m.splice off bytes).lookup a = m.lookup a := by
  rw [lookup_splice]
  have : ¬ (off ≤ a ∧ a < off + bytes.length) := by omega
  simp [this]

/-- Unmarked bytes hold nothing, the others what they held (70_reset_and_hazards.md R422). -/
theorem lookup_unmark (m : Memory) (p : Nat → Bool) (a : Nat) :
    (m.unmark p).lookup a = if p a then none else m.lookup a := by
  unfold unmark
  rw [lookup_filter (fun k => !p k)]
  by_cases h : p a <;> simp [h]

/-- Changing the bytes and no offset changes each read by itself. -/
theorem lookup_map (f : Nat → Byte → Byte) (m : Memory) (a : Nat) :
    lookup (m.map (fun c => (c.1, f c.1 c.2))) a = (lookup m a).map (f a) := by
  induction m with
  | nil => rfl
  | cons c m ih =>
    obtain ⟨k, b⟩ := c
    by_cases h : k = a
    · subst h; simp [lookup_cons]
    · simp [lookup_cons, h, ih]

/-! ### The canonical form -/

theorem risingFrom_mono {lo lo' : Nat} {m : Memory} (h : risingFrom lo m = true) (hle : lo' ≤ lo) :
    risingFrom lo' m = true := by
  cases m with
  | nil => rfl
  | cons c m =>
    obtain ⟨k, b⟩ := c
    simp only [risingFrom, Bool.and_eq_true, decide_eq_true_eq] at h ⊢
    exact ⟨by omega, h.2⟩

theorem risingFrom_filter (p : Nat → Bool) {lo : Nat} {m : Memory} (h : risingFrom lo m = true) :
    risingFrom lo (m.filter (fun c => p c.1)) = true := by
  induction m generalizing lo with
  | nil => rfl
  | cons c m ih =>
    obtain ⟨k, b⟩ := c
    simp only [risingFrom, Bool.and_eq_true, decide_eq_true_eq] at h
    by_cases hk : p k
    · simp [hk, risingFrom, h.1, ih h.2]
    · simpa [hk] using risingFrom_mono (ih h.2) (by omega : lo ≤ k + 1)

theorem risingFrom_map (f : Nat → Byte → Byte) {lo : Nat} {m : Memory} (h : risingFrom lo m = true) :
    risingFrom lo (m.map (fun c => (c.1, f c.1 c.2))) = true := by
  induction m generalizing lo with
  | nil => rfl
  | cons c m ih =>
    simp only [risingFrom, Bool.and_eq_true, decide_eq_true_eq, List.map_cons] at h ⊢
    exact ⟨h.1, ih h.2⟩

/-- Every offset of a rising list is at least its lower bound. -/
theorem risingFrom_le {lo : Nat} {m : Memory} (h : risingFrom lo m = true) :
    ∀ c ∈ m, lo ≤ c.1 := by
  induction m generalizing lo with
  | nil => simp
  | cons c m ih =>
    obtain ⟨k, b⟩ := c
    simp only [risingFrom, Bool.and_eq_true, decide_eq_true_eq] at h
    intro c hc
    rcases List.mem_cons.mp hc with rfl | hc
    · exact h.1
    · have := ih h.2 c hc
      omega

/-- Two rising lists, the first below `mid` and the second from `mid` on, join to a rising list. -/
theorem risingFrom_append {lo mid : Nat} {m n : Memory} (hm : risingFrom lo m = true) (hlo : lo ≤ mid)
    (hbelow : ∀ c ∈ m, c.1 < mid) (hn : risingFrom mid n = true) : risingFrom lo (m ++ n) = true := by
  induction m generalizing lo with
  | nil => exact risingFrom_mono hn hlo
  | cons c m ih =>
    obtain ⟨k, b⟩ := c
    simp only [risingFrom, Bool.and_eq_true, decide_eq_true_eq] at hm
    have hk : k < mid := hbelow (k, b) (by simp)
    simp only [List.cons_append, risingFrom, Bool.and_eq_true, decide_eq_true_eq]
    exact ⟨hm.1, ih hm.2 (by omega) (fun c hc => hbelow c (by simp [hc]))⟩

theorem risingFrom_of_ge {lo mid : Nat} {m : Memory} (h : risingFrom lo m = true)
    (hge : ∀ c ∈ m, mid ≤ c.1) : risingFrom mid m = true := by
  cases m with
  | nil => rfl
  | cons c m =>
    obtain ⟨k, b⟩ := c
    simp only [risingFrom, Bool.and_eq_true, decide_eq_true_eq] at h ⊢
    exact ⟨hge (k, b) (by simp), h.2⟩

theorem risingFrom_cellsFrom (off : Nat) (bytes : List Byte) : risingFrom off (cellsFrom off bytes) = true := by
  induction bytes generalizing off with
  | nil => rfl
  | cons b bs ih => simp [cellsFrom, risingFrom, ih]

theorem mem_cellsFrom {off : Nat} {bytes : List Byte} {c : Host.Cell} (h : c ∈ cellsFrom off bytes) :
    off ≤ c.1 ∧ c.1 < off + bytes.length := by
  induction bytes generalizing off with
  | nil => simp [cellsFrom] at h
  | cons b bs ih =>
    rcases List.mem_cons.mp h with rfl | h
    · simp
    · have := ih h
      simp only [List.length_cons]
      omega

theorem wf_iff (m : Memory) : m.wf = true ↔ risingFrom 0 m = true ∧ ∀ c ∈ m, isBufferOffset c.1 = true := by
  unfold wf
  rw [Bool.and_eq_true, List.all_eq_true]

@[simp] theorem wf_nil : wf [] = true := rfl

/-- A write inside the buffers keeps the canonical form. -/
theorem wf_splice {m : Memory} (h : m.wf = true) {off : Nat} {bytes : List Byte}
    (hin : ∀ k, k < bytes.length → isBufferOffset (off + k) = true) : (m.splice off bytes).wf = true := by
  rw [wf_iff] at h ⊢
  refine ⟨?_, ?_⟩
  · unfold splice
    have hlow : ∀ c ∈ m.filter (fun c => decide (c.1 < off)) ++ cellsFrom off bytes, c.1 < off + bytes.length := by
      intro c hc
      rcases List.mem_append.mp hc with hc | hc
      · have := (List.mem_filter.mp hc).2
        simp only [decide_eq_true_eq] at this
        omega
      · exact (mem_cellsFrom hc).2
    refine risingFrom_append (mid := off + bytes.length) ?_ (by omega) hlow ?_
    · refine risingFrom_append (mid := off) (risingFrom_filter (fun k => decide (k < off)) h.1) (by omega) ?_
        (risingFrom_cellsFrom off bytes)
      intro c hc
      simpa using (List.mem_filter.mp hc).2
    · refine risingFrom_of_ge (risingFrom_filter (fun k => decide (off + bytes.length ≤ k)) h.1) ?_
      intro c hc
      simpa using (List.mem_filter.mp hc).2
  · intro c hc
    unfold splice at hc
    rcases List.mem_append.mp hc with hc | hc
    · rcases List.mem_append.mp hc with hc | hc
      · exact h.2 c (List.mem_filter.mp hc).1
      · have hc' := mem_cellsFrom hc
        have := hin (c.1 - off) (by omega)
        rwa [show off + (c.1 - off) = c.1 by omega] at this
    · exact h.2 c (List.mem_filter.mp hc).1

/-- Clearing marks keeps the canonical form. -/
theorem wf_unmark {m : Memory} (h : m.wf = true) (p : Nat → Bool) : (m.unmark p).wf = true := by
  rw [wf_iff] at h ⊢
  exact ⟨risingFrom_filter (fun k => !p k) h.1, fun c hc => h.2 c (List.mem_filter.mp hc).1⟩

/-- Dropping cells by their offset keeps the canonical form. -/
theorem wf_filter {m : Memory} (h : m.wf = true) (p : Nat → Bool) : wf (m.filter (fun c => p c.1)) = true := by
  rw [wf_iff] at h ⊢
  exact ⟨risingFrom_filter p h.1, fun c hc => h.2 c (List.mem_filter.mp hc).1⟩

/-- Changing the bytes and no offset keeps the canonical form. -/
theorem wf_map {m : Memory} (h : m.wf = true) (f : Nat → Byte → Byte) : wf (m.map (fun c => (c.1, f c.1 c.2))) = true := by
  rw [wf_iff] at h ⊢
  refine ⟨risingFrom_map f h.1, fun c hc => ?_⟩
  obtain ⟨d, hd, rfl⟩ := List.mem_map.mp hc
  exact h.2 d hd

/-- In a canonical memory a byte that is read is a byte that is listed at that offset. -/
theorem lookup_of_mem {m : Memory} (h : m.wf = true) {a : Nat} {b : Byte} (hm : (a, b) ∈ m) : m.lookup a = some b := by
  rw [wf_iff] at h
  obtain ⟨hr, -⟩ := h
  generalize 0 = lo at hr
  induction m generalizing lo with
  | nil => simp at hm
  | cons c m ih =>
    obtain ⟨k, d⟩ := c
    simp only [risingFrom, Bool.and_eq_true, decide_eq_true_eq] at hr
    rcases List.mem_cons.mp hm with heq | hm
    · cases heq; simp [lookup_cons]
    · have hlt := risingFrom_le hr.2 _ hm
      have hne : k ≠ a := by
        have : k + 1 ≤ a := hlt
        omega
      simp [lookup_cons, hne, ih hm _ hr.2]

/-- What is read is listed. -/
theorem mem_of_lookup {m : Memory} {a : Nat} {b : Byte} (h : m.lookup a = some b) : (a, b) ∈ m := by
  induction m with
  | nil => simp at h
  | cons c m ih =>
    obtain ⟨k, d⟩ := c
    rw [lookup_cons] at h
    split at h
    · next hk => subst hk; cases h; simp
    · simp [ih h]

/-! ### The undefined bits -/

/-- The canonical form of the undefined bits, mask by mask. -/
theorem holesWf_iff (m holes : Memory) :
    m.holesWf holes = true
      ↔ holes.wf = true ∧ ∀ c ∈ holes, c.2 ≠ 0 ∧ c.2 ≠ 0xFF ∧ ∃ b, m.lookup c.1 = some b ∧ b &&& c.2 = 0 := by
  unfold holesWf
  rw [Bool.and_eq_true, List.all_eq_true]
  refine and_congr_right fun _ => forall₂_congr fun c _ => ?_
  cases m.lookup c.1 <;> simp [and_assoc]

@[simp] theorem holesWf_nil (m : Memory) : m.holesWf [] = true := rfl

/-- A write, which defines every bit of its bytes, keeps the canonical form of the undefined bits. -/
theorem holesWf_splice {m holes : Memory} (h : m.holesWf holes = true) (off : Nat) (bytes : List Byte) :
    (m.splice off bytes).holesWf (holes.unmark (fun a => decide (off ≤ a) && decide (a < off + bytes.length))) = true := by
  rw [holesWf_iff] at h ⊢
  refine ⟨wf_unmark h.1 _, fun c hc => ?_⟩
  obtain ⟨hmem, hout⟩ := List.mem_filter.mp hc
  have hout' : c.1 < off ∨ off + bytes.length ≤ c.1 := by
    simp only [Bool.not_eq_true', Bool.and_eq_false_iff, decide_eq_false_iff_not] at hout
    omega
  obtain ⟨h0, hff, b, hb, hand⟩ := h.2 c hmem
  exact ⟨h0, hff, b, by rw [lookup_splice_outside m off bytes c.1 hout', hb], hand⟩

end Sys2Proof.Machine.Memory
end

