-- ==== Sys2Proof/Laws/State.lean ====
section
/-! SUPPORT. What each update of the state does to each field, by definition, so that no proof unfolds a record update. -/

namespace Sys2Proof.Machine.State

variable (s : State)

/-! ### `writeBytes` -/

@[simp] theorem writeBytes_regs (off : Nat) (bytes : List Byte) : (s.writeBytes off bytes).regs = s.regs := rfl
@[simp] theorem writeBytes_pending (off : Nat) (bytes : List Byte) : (s.writeBytes off bytes).pending = s.pending := rfl
@[simp] theorem writeBytes_mem (off : Nat) (bytes : List Byte) : (s.writeBytes off bytes).mem = s.mem.splice off bytes := rfl
@[simp] theorem writeBytes_holes (off : Nat) (bytes : List Byte) :
    (s.writeBytes off bytes).holes = s.holes.unmark (fun a => decide (off ≤ a) && decide (a < off + bytes.length)) := rfl
@[simp] theorem writeBytes_host (off : Nat) (bytes : List Byte) : (s.writeBytes off bytes).host = s.host := rfl
@[simp] theorem writeBytes_resp (off : Nat) (bytes : List Byte) : (s.writeBytes off bytes).resp = s.resp := rfl
@[simp] theorem writeBytes_draws (off : Nat) (bytes : List Byte) : (s.writeBytes off bytes).draws = s.draws := rfl

/-! ### `setBsLen` -/

@[simp] theorem setBsLen_regs (n : Nat) : (s.setBsLen n).regs = { s.regs with bsLen := BitVec.ofNat 16 n } := rfl
@[simp] theorem setBsLen_pending (n : Nat) : (s.setBsLen n).pending = s.pending := rfl
@[simp] theorem setBsLen_mem (n : Nat) : (s.setBsLen n).mem = s.mem := rfl
@[simp] theorem setBsLen_holes (n : Nat) : (s.setBsLen n).holes = s.holes := rfl
@[simp] theorem setBsLen_host (n : Nat) : (s.setBsLen n).host = s.host := rfl
@[simp] theorem setBsLen_resp (n : Nat) : (s.setBsLen n).resp = s.resp := rfl
@[simp] theorem setBsLen_draws (n : Nat) : (s.setBsLen n).draws = s.draws := rfl

/-! ### `setCwLen` -/

@[simp] theorem setCwLen_regs (n : Nat) : (s.setCwLen n).regs = { s.regs with cwLen := BitVec.ofNat 13 n } := rfl
@[simp] theorem setCwLen_pending (n : Nat) : (s.setCwLen n).pending = s.pending := rfl
@[simp] theorem setCwLen_mem (n : Nat) : (s.setCwLen n).mem = s.mem := rfl
@[simp] theorem setCwLen_holes (n : Nat) : (s.setCwLen n).holes = s.holes := rfl
@[simp] theorem setCwLen_host (n : Nat) : (s.setCwLen n).host = s.host := rfl
@[simp] theorem setCwLen_resp (n : Nat) : (s.setCwLen n).resp = s.resp := rfl
@[simp] theorem setCwLen_draws (n : Nat) : (s.setCwLen n).draws = s.draws := rfl

/-! ### `setFsLen` -/

@[simp] theorem setFsLen_regs (n : Nat) : (s.setFsLen n).regs = { s.regs with fsLen := BitVec.ofNat 13 n } := rfl
@[simp] theorem setFsLen_pending (n : Nat) : (s.setFsLen n).pending = s.pending := rfl
@[simp] theorem setFsLen_mem (n : Nat) : (s.setFsLen n).mem = s.mem := rfl
@[simp] theorem setFsLen_holes (n : Nat) : (s.setFsLen n).holes = s.holes := rfl
@[simp] theorem setFsLen_host (n : Nat) : (s.setFsLen n).host = s.host := rfl
@[simp] theorem setFsLen_resp (n : Nat) : (s.setFsLen n).resp = s.resp := rfl
@[simp] theorem setFsLen_draws (n : Nat) : (s.setFsLen n).draws = s.draws := rfl

/-! ### `setResult` -/

@[simp] theorem setResult_regs (b : Byte) : (s.setResult b).regs = { s.regs with result := b.setWidth 32 } := rfl
@[simp] theorem setResult_pending (b : Byte) : (s.setResult b).pending = s.pending := rfl
@[simp] theorem setResult_mem (b : Byte) : (s.setResult b).mem = s.mem := rfl
@[simp] theorem setResult_holes (b : Byte) : (s.setResult b).holes = s.holes := rfl
@[simp] theorem setResult_host (b : Byte) : (s.setResult b).host = s.host := rfl
@[simp] theorem setResult_resp (b : Byte) : (s.setResult b).resp = s.resp := rfl
@[simp] theorem setResult_draws (b : Byte) : (s.setResult b).draws = s.draws := rfl

/-! ### `setGen` -/

@[simp] theorem setGen_regs (f : GField) (n : Nat) : (s.setGen f n).regs = { s.regs with genDeg := BitVec.ofNat 8 n } := rfl
@[simp] theorem setGen_pending (f : GField) (n : Nat) : (s.setGen f n).pending = s.pending := rfl
@[simp] theorem setGen_mem (f : GField) (n : Nat) :
    (s.setGen f n).mem = s.mem.splice Buffer.gen.base (genPoly f n ++ List.replicate (255 - n) 0) := rfl
@[simp] theorem setGen_holes (f : GField) (n : Nat) :
    (s.setGen f n).holes = (s.writeBytes Buffer.gen.base (genPoly f n ++ List.replicate (255 - n) 0)).holes := rfl
@[simp] theorem setGen_host (f : GField) (n : Nat) : (s.setGen f n).host = s.host := rfl
@[simp] theorem setGen_resp (f : GField) (n : Nat) : (s.setGen f n).resp = s.resp := rfl
@[simp] theorem setGen_draws (f : GField) (n : Nat) : (s.setGen f n).draws = s.draws := rfl

/-! ### `setGrid` -/

@[simp] theorem setGrid_regs (rows cols : Nat) (grid resv : Nat → Nat → Bool) :
    (s.setGrid rows cols grid resv).regs = { s.regs with gridDim := ⟨BitVec.ofNat 8 rows, BitVec.ofNat 8 cols⟩ } := rfl
@[simp] theorem setGrid_pending (rows cols : Nat) (grid resv : Nat → Nat → Bool) :
    (s.setGrid rows cols grid resv).pending = s.pending := rfl
@[simp] theorem setGrid_mem (rows cols : Nat) (grid resv : Nat → Nat → Bool) :
    (s.setGrid rows cols grid resv).mem = (s.mem.splice Buffer.grid.base (packMap grid)).splice Buffer.resv.base (packMap resv) := rfl
@[simp] theorem setGrid_holes (rows cols : Nat) (grid resv : Nat → Nat → Bool) :
    (s.setGrid rows cols grid resv).holes
      = ((s.writeBytes Buffer.grid.base (packMap grid)).writeBytes Buffer.resv.base (packMap resv)).holes := rfl
@[simp] theorem setGrid_host (rows cols : Nat) (grid resv : Nat → Nat → Bool) :
    (s.setGrid rows cols grid resv).host = s.host := rfl
@[simp] theorem setGrid_resp (rows cols : Nat) (grid resv : Nat → Nat → Bool) :
    (s.setGrid rows cols grid resv).resp = s.resp := rfl
@[simp] theorem setGrid_draws (rows cols : Nat) (grid resv : Nat → Nat → Bool) :
    (s.setGrid rows cols grid resv).draws = s.draws := rfl

/-! ### `complete` -/

@[simp] theorem complete_regs : (s.complete).regs = { s.regs with status := s.regs.status.completed } := rfl
@[simp] theorem complete_pending : (s.complete).pending = none := rfl
@[simp] theorem complete_mem : (s.complete).mem = s.mem := rfl
@[simp] theorem complete_holes : (s.complete).holes = s.holes := rfl
@[simp] theorem complete_host : (s.complete).host = s.host := rfl
@[simp] theorem complete_resp : (s.complete).resp = s.resp := rfl
@[simp] theorem complete_draws : (s.complete).draws = s.draws := rfl

/-! ### `raiseError` -/

@[simp] theorem raiseError_regs (code : ErrorCode) :
    (s.raiseError code).regs = { s.regs with status := s.regs.status.failed code } := rfl
@[simp] theorem raiseError_pending (code : ErrorCode) : (s.raiseError code).pending = none := rfl
@[simp] theorem raiseError_mem (code : ErrorCode) : (s.raiseError code).mem = s.mem := rfl
@[simp] theorem raiseError_holes (code : ErrorCode) : (s.raiseError code).holes = s.holes := rfl
@[simp] theorem raiseError_host (code : ErrorCode) : (s.raiseError code).host = s.host := rfl
@[simp] theorem raiseError_resp (code : ErrorCode) : (s.raiseError code).resp = s.resp := rfl
@[simp] theorem raiseError_draws (code : ErrorCode) : (s.raiseError code).draws = s.draws := rfl

/-! ### `acknowledge` -/

@[simp] theorem acknowledge_regs (v : Word) :
    (s.acknowledge v).regs = { s.regs with status := s.regs.status.acknowledged v } := rfl
@[simp] theorem acknowledge_pending (v : Word) : (s.acknowledge v).pending = s.pending := rfl
@[simp] theorem acknowledge_mem (v : Word) : (s.acknowledge v).mem = s.mem := rfl
@[simp] theorem acknowledge_holes (v : Word) : (s.acknowledge v).holes = s.holes := rfl
@[simp] theorem acknowledge_host (v : Word) : (s.acknowledge v).host = s.host := rfl
@[simp] theorem acknowledge_resp (v : Word) : (s.acknowledge v).resp = s.resp := rfl
@[simp] theorem acknowledge_draws (v : Word) : (s.acknowledge v).draws = s.draws := rfl

/-! ### `start` -/

@[simp] theorem start_regs (w : Word) : (s.start w).regs = { s.regs with status := s.regs.status.started w } := rfl
@[simp] theorem start_pending (w : Word) : (s.start w).pending = some w := rfl
@[simp] theorem start_mem (w : Word) : (s.start w).mem = s.mem := rfl
@[simp] theorem start_holes (w : Word) : (s.start w).holes = s.holes := rfl
@[simp] theorem start_host (w : Word) : (s.start w).host = s.host := rfl
@[simp] theorem start_resp (w : Word) : (s.start w).resp = s.resp := rfl
@[simp] theorem start_draws (w : Word) : (s.start w).draws = s.draws := rfl

/-! ### `abandon` -/

@[simp] theorem abandon_regs (set : Nat → Byte) : (s.abandon set).regs = s.regs := rfl
@[simp] theorem abandon_pending (set : Nat → Byte) : (s.abandon set).pending = s.pending := rfl
@[simp] theorem abandon_host (set : Nat → Byte) : (s.abandon set).host = s.host := rfl
@[simp] theorem abandon_resp (set : Nat → Byte) : (s.abandon set).resp = s.resp := rfl
@[simp] theorem abandon_draws (set : Nat → Byte) : (s.abandon set).draws = s.draws := rfl

/-! ### `softReset` -/

/-- Abandoning the running command touches the bytes of the buffers and nothing else. -/
theorem abandonRunning_frame :
    s.abandonRunning.regs = s.regs ∧ s.abandonRunning.pending = s.pending ∧ s.abandonRunning.host = s.host
      ∧ s.abandonRunning.resp = s.resp ∧ s.abandonRunning.draws = s.draws := by
  unfold State.abandonRunning
  split <;> exact ⟨rfl, rfl, rfl, rfl, rfl⟩

@[simp] theorem softReset_regs : (s.softReset).regs = Regs.reset := rfl
@[simp] theorem softReset_pending : (s.softReset).pending = none := rfl
@[simp] theorem softReset_mem : (s.softReset).mem = s.abandonRunning.mem := rfl
@[simp] theorem softReset_holes : (s.softReset).holes = s.abandonRunning.holes := rfl
@[simp] theorem softReset_host : (s.softReset).host = s.host := s.abandonRunning_frame.2.2.1
@[simp] theorem softReset_resp : (s.softReset).resp = s.resp := s.abandonRunning_frame.2.2.2.1
@[simp] theorem softReset_draws : (s.softReset).draws = s.draws := s.abandonRunning_frame.2.2.2.2

/-! ### `advance` -/

@[simp] theorem advance_regs : (s.advance).regs = s.regs := rfl
@[simp] theorem advance_pending : (s.advance).pending = s.pending := rfl
@[simp] theorem advance_mem : (s.advance).mem = s.mem := rfl
@[simp] theorem advance_holes : (s.advance).holes = s.holes := rfl
@[simp] theorem advance_host : (s.advance).host = s.host := rfl
@[simp] theorem advance_resp : (s.advance).resp = s.resp := rfl
@[simp] theorem advance_draws : (s.advance).draws = s.draws + 1 := rfl

/-! ### `withCommand` -/

@[simp] theorem withCommand_regs (w : Word) : (s.withCommand w).regs = { s.regs with status := s.regs.status.started w } := rfl
@[simp] theorem withCommand_pending (w : Word) : (s.withCommand w).pending = some w := rfl
@[simp] theorem withCommand_mem (w : Word) : (s.withCommand w).mem = s.mem := rfl
@[simp] theorem withCommand_holes (w : Word) : (s.withCommand w).holes = s.holes := rfl
@[simp] theorem withCommand_host (w : Word) : (s.withCommand w).host = .engine :: s.host := rfl
@[simp] theorem withCommand_resp (w : Word) : (s.withCommand w).resp = s.resp := rfl
@[simp] theorem withCommand_draws (w : Word) : (s.withCommand w).draws = s.draws := rfl

/-! ### `appendBit` -/

@[simp] theorem appendBit_regs (b : Bool) :
    (s.appendBit b).regs = { s.regs with bsLen := BitVec.ofNat 16 (s.bsLenNat + 1) } := rfl
@[simp] theorem appendBit_pending (b : Bool) : (s.appendBit b).pending = s.pending := rfl
@[simp] theorem appendBit_mem (b : Bool) :
    (s.appendBit b).mem
      = s.mem.splice (Buffer.bsb.base + s.bsLenNat / 8) [setBit (s.elem .bsb (s.bsLenNat / 8)) (7 - s.bsLenNat % 8) b] := rfl
@[simp] theorem appendBit_holes (b : Bool) :
    (s.appendBit b).holes
      = (s.writeBytes (Buffer.bsb.base + s.bsLenNat / 8) [setBit (s.elem .bsb (s.bsLenNat / 8)) (7 - s.bsLenNat % 8) b]).holes := rfl
@[simp] theorem appendBit_host (b : Bool) : (s.appendBit b).host = s.host := rfl
@[simp] theorem appendBit_resp (b : Bool) : (s.appendBit b).resp = s.resp := rfl
@[simp] theorem appendBit_draws (b : Bool) : (s.appendBit b).draws = s.draws := rfl

end Sys2Proof.Machine.State

namespace Sys2Proof.Machine

/-! ### `STATUS` -/

variable (st : Status)

@[simp] theorem Status.started_busy (w : Word) : (st.started w).busy = true := rfl
@[simp] theorem Status.started_done (w : Word) : (st.started w).done = false := rfl
@[simp] theorem Status.started_err (w : Word) : (st.started w).err = false := rfl
@[simp] theorem Status.started_ovr (w : Word) : (st.started w).ovr = st.ovr := rfl
@[simp] theorem Status.started_errcode (w : Word) : (st.started w).errcode = .none := rfl
@[simp] theorem Status.started_lastop (w : Word) : (st.started w).lastop = BitVec.ofNat 8 (opcodeOf w) := rfl

@[simp] theorem Status.completed_busy : (st.completed).busy = false := rfl
@[simp] theorem Status.completed_done : (st.completed).done = true := rfl
@[simp] theorem Status.completed_err : (st.completed).err = st.err := rfl
@[simp] theorem Status.completed_ovr : (st.completed).ovr = st.ovr := rfl
@[simp] theorem Status.completed_errcode : (st.completed).errcode = st.errcode := rfl
@[simp] theorem Status.completed_lastop : (st.completed).lastop = st.lastop := rfl

@[simp] theorem Status.failed_busy (code : ErrorCode) : (st.failed code).busy = false := rfl
@[simp] theorem Status.failed_done (code : ErrorCode) : (st.failed code).done = false := rfl
@[simp] theorem Status.failed_err (code : ErrorCode) : (st.failed code).err = true := rfl
@[simp] theorem Status.failed_ovr (code : ErrorCode) : (st.failed code).ovr = st.ovr := rfl
@[simp] theorem Status.failed_errcode (code : ErrorCode) : (st.failed code).errcode = code := rfl
@[simp] theorem Status.failed_lastop (code : ErrorCode) : (st.failed code).lastop = st.lastop := rfl

@[simp] theorem Status.overrun_busy : (st.overrun).busy = st.busy := rfl
@[simp] theorem Status.overrun_done : (st.overrun).done = st.done := rfl
@[simp] theorem Status.overrun_err : (st.overrun).err = st.err := rfl
@[simp] theorem Status.overrun_ovr : (st.overrun).ovr = true := rfl
@[simp] theorem Status.overrun_errcode : (st.overrun).errcode = st.errcode := rfl
@[simp] theorem Status.overrun_lastop : (st.overrun).lastop = st.lastop := rfl

@[simp] theorem Status.acknowledged_busy (v : Word) : (st.acknowledged v).busy = st.busy := rfl
@[simp] theorem Status.acknowledged_done (v : Word) : (st.acknowledged v).done = (st.done && !v.getLsbD 1) := rfl
@[simp] theorem Status.acknowledged_err (v : Word) : (st.acknowledged v).err = (st.err && !v.getLsbD 2) := rfl
@[simp] theorem Status.acknowledged_ovr (v : Word) : (st.acknowledged v).ovr = (st.ovr && !v.getLsbD 3) := rfl
@[simp] theorem Status.acknowledged_errcode (v : Word) : (st.acknowledged v).errcode = if v.getLsbD 2 then .none else st.errcode := rfl
@[simp] theorem Status.acknowledged_lastop (v : Word) : (st.acknowledged v).lastop = st.lastop := rfl

/-! ### The state after reset -/

@[simp] theorem reset_regs : State.reset.regs = Regs.reset := rfl
@[simp] theorem reset_pending : State.reset.pending = none := rfl
@[simp] theorem reset_mem : State.reset.mem = [] := rfl
@[simp] theorem reset_holes : State.reset.holes = [] := rfl
@[simp] theorem reset_host : State.reset.host = [] := rfl
@[simp] theorem reset_status : Regs.reset.status = ⟨false, false, false, false, .none, 0⟩ := rfl

end Sys2Proof.Machine
end

