-- ==== Sys2Proof/Laws/Bytes.lean ====
section
/-! SUPPORT. Reads of buffer bytes after writes (20_memory.md R91), and the append primitives of the bit stream (41_bitstream.md R160). -/

namespace Sys2Proof.Machine

/-! ### Byte reads -/

theorem readByte_of_lookup {s : State} {n off : Nat} {b : Byte} (h : s.mem.lookup off = some b) (hh : s.holes.lookup off = none) :
    s.readByte n off = b := by
  simp [State.readByte, h, hh]

theorem readByte_unmarked {s : State} {n off : Nat} (h : s.mem.lookup off = none) :
    s.readByte n off = Config.freeByte s.draws n off := by
  simp [State.readByte, h]

/-- A read depends on the memory and its undefined bits at its byte, and on the step number, only. -/
theorem readByte_congr {s t : State} {off : Nat} (hm : t.mem.lookup off = s.mem.lookup off)
    (hh : t.holes.lookup off = s.holes.lookup off) (hd : t.draws = s.draws) (n : Nat) :
    t.readByte n off = s.readByte n off := by
  simp [State.readByte, hm, hh, hd]

theorem lookup_writeBytes_inside (s : State) (off : Nat) (bytes : List Byte) (k : Nat) (h : k < bytes.length) :
    (s.writeBytes off bytes).mem.lookup (off + k) = some bytes[k] :=
  Memory.lookup_splice_inside s.mem off bytes k h

theorem lookup_writeBytes_outside (s : State) (off : Nat) (bytes : List Byte) (a : Nat)
    (h : a < off ∨ off + bytes.length ≤ a) : (s.writeBytes off bytes).mem.lookup a = s.mem.lookup a :=
  Memory.lookup_splice_outside s.mem off bytes a h

/-- A write defines every bit of its bytes and no bit of another byte. -/
theorem holes_writeBytes (s : State) (off : Nat) (bytes : List Byte) (a : Nat) :
    (s.writeBytes off bytes).holes.lookup a = if off ≤ a ∧ a < off + bytes.length then none else s.holes.lookup a := by
  rw [State.writeBytes_holes, Memory.lookup_unmark]
  simp

theorem holes_writeBytes_inside (s : State) (off : Nat) (bytes : List Byte) (k : Nat) (h : k < bytes.length) :
    (s.writeBytes off bytes).holes.lookup (off + k) = none := by
  rw [holes_writeBytes, if_pos (by omega)]

theorem holes_writeBytes_outside (s : State) (off : Nat) (bytes : List Byte) (a : Nat)
    (h : a < off ∨ off + bytes.length ≤ a) : (s.writeBytes off bytes).holes.lookup a = s.holes.lookup a := by
  rw [holes_writeBytes, if_neg (by omega)]

theorem readByte_writeBytes_inside (s : State) (n off : Nat) (bytes : List Byte) (k : Nat) (h : k < bytes.length) :
    (s.writeBytes off bytes).readByte n (off + k) = bytes[k] :=
  readByte_of_lookup (s := s.writeBytes off bytes) (lookup_writeBytes_inside s off bytes k h) (holes_writeBytes_inside s off bytes k h)

theorem readByte_writeBytes_outside (s : State) (n off : Nat) (bytes : List Byte) (a : Nat)
    (h : a < off ∨ off + bytes.length ≤ a) : (s.writeBytes off bytes).readByte n a = s.readByte n a :=
  readByte_congr (s := s) (t := s.writeBytes off bytes) (lookup_writeBytes_outside s off bytes a h)
    (holes_writeBytes_outside s off bytes a h) rfl n

/-! ### Undefined bits -/

theorem getLsbD_mixByte (mask x b : Byte) (j : Nat) :
    (mixByte mask x b).getLsbD j = if mask.getLsbD j then x.getLsbD j else b.getLsbD j := by
  unfold mixByte
  by_cases hj : j < 8
  · rw [BitVec.getLsbD_or, BitVec.getLsbD_and, BitVec.getLsbD_and, BitVec.getLsbD_not]
    cases mask.getLsbD j <;> simp [hj]
  · have hge : 8 ≤ j := Nat.le_of_not_lt hj
    rw [BitVec.getLsbD_of_ge _ j hge, BitVec.getLsbD_of_ge mask j hge, BitVec.getLsbD_of_ge b j hge]
    rfl

@[simp] theorem mixByte_zero (x b : Byte) : mixByte 0 x b = b := by
  apply BitVec.eq_of_getLsbD_eq
  intro j _
  simp [getLsbD_mixByte]

/-- One bit of a read: the free value where the byte is unmarked or the bit is undefined, else the byte's bit. -/
theorem getLsbD_readByte (s : State) (n off j : Nat) :
    (s.readByte n off).getLsbD j
      = match s.mem.lookup off with
        | none => (Config.freeByte s.draws n off).getLsbD j
        | some b => if ((s.holes.lookup off).getD 0).getLsbD j then (Config.freeByte s.draws n off).getLsbD j else b.getLsbD j := by
  unfold State.readByte
  cases s.mem.lookup off with
  | none => rfl
  | some b =>
    cases s.holes.lookup off with
    | none => simp
    | some mask => exact getLsbD_mixByte _ _ _ _

/-- The bytes after some bits have become undefined: those with no defined bit left are unmarked, the others keep their other bits. -/
theorem lookup_abandon (s : State) (set : Nat → Byte) (a : Nat) :
    (s.abandon set).mem.lookup a
      = if s.holeWith set a = 0xFF then none else (s.mem.lookup a).map (fun b => b &&& ~~~s.holeWith set a) := by
  show Memory.lookup ((s.mem.filter (fun c => s.holeWith set c.1 != 0xFF)).map (fun c => (c.1, c.2 &&& ~~~s.holeWith set c.1))) a = _
  rw [Memory.lookup_map (fun k b => b &&& ~~~s.holeWith set k), Memory.lookup_filter (fun k => s.holeWith set k != 0xFF)]
  by_cases h : s.holeWith set a = 0xFF
  · rw [if_neg (by rw [h]; decide), if_pos h, Option.map_none]
  · rw [if_pos (bne_iff_ne.mpr h), if_neg h]

/-- The undefined bits after it. -/
theorem holes_abandon (s : State) (set : Nat → Byte) (a : Nat) :
    (s.abandon set).holes.lookup a
      = if s.holeWith set a = 0 ∨ s.holeWith set a = 0xFF then none else (s.mem.lookup a).map (fun _ => s.holeWith set a) := by
  show Memory.lookup ((((s.mem.filter (fun c => s.holeWith set c.1 != 0xFF)).map (fun c => (c.1, c.2 &&& ~~~s.holeWith set c.1))).map
    (fun c => (c.1, s.holeWith set c.1))).filter (fun c => s.holeWith set c.1 != 0)) a = _
  rw [Memory.lookup_filter (fun k => s.holeWith set k != 0), Memory.lookup_map (fun k _ => s.holeWith set k),
    Memory.lookup_map (fun k b => b &&& ~~~s.holeWith set k), Memory.lookup_filter (fun k => s.holeWith set k != 0xFF)]
  by_cases h0 : s.holeWith set a = 0
  · rw [if_neg (by rw [h0]; decide), if_pos (.inl h0)]
  · rw [if_pos (bne_iff_ne.mpr h0)]
    by_cases hff : s.holeWith set a = 0xFF
    · rw [if_neg (by rw [hff]; decide), if_pos (.inr hff), Option.map_none, Option.map_none]
    · rw [if_pos (bne_iff_ne.mpr hff), if_neg (not_or.mpr ⟨h0, hff⟩), Option.map_map]
      rfl

/-- One bit of a read after some bits have become undefined: those read as the free value, and every other bit as before
(70_reset_and_hazards.md R422). -/
theorem getLsbD_readByte_abandon (s : State) (set : Nat → Byte) (n off j : Nat) (hj : j < 8) :
    ((s.abandon set).readByte n off).getLsbD j
      = if (set off).getLsbD j then (Config.freeByte s.draws n off).getLsbD j else (s.readByte n off).getLsbD j := by
  have hole : (s.holeWith set off).getLsbD j = (((s.holes.lookup off).getD 0).getLsbD j || (set off).getLsbD j) := by
    rw [State.holeWith, BitVec.getLsbD_or]
  have all (h : s.holeWith set off = 0xFF) : (s.holeWith set off).getLsbD j = true := by
    rw [h]
    interval_cases j <;> rfl
  have zero (h : s.holeWith set off = 0) : (s.holeWith set off).getLsbD j = false := by
    rw [h]
    exact BitVec.getLsbD_zero
  rw [getLsbD_readByte, getLsbD_readByte, lookup_abandon, holes_abandon, State.abandon_draws]
  cases hm : s.mem.lookup off with
  | none => simp
  | some b =>
    by_cases hff : s.holeWith set off = 0xFF
    · have := all hff
      rw [hole] at this
      simp only [hff, if_true]
      cases hs : (set off).getLsbD j <;> simp_all
    · by_cases h0 : s.holeWith set off = 0
      · have := zero h0
        rw [hole, Bool.or_eq_false_iff] at this
        rw [if_neg hff, if_pos (.inl h0), this.1, this.2, h0, Option.map_some,
          show b &&& ~~~(0 : Byte) = b from BitVec.and_allOnes]
        simp
      · simp only [hff, h0, or_self, if_false, Option.map_some, Option.getD_some, BitVec.getLsbD_and, BitVec.getLsbD_not, hole]
        cases hs : (set off).getLsbD j <;> cases ((s.holes.lookup off).getD 0).getLsbD j <;> simp [hj]

/-- A byte of which some bit has become undefined holds no defined value. -/
theorem undefined_abandon (s : State) (set : Nat → Byte) (off : Nat) (h : set off ≠ 0) (v : Byte) :
    ¬ ((s.abandon set).mem.lookup off = some v ∧ (s.abandon set).holes.lookup off = none) := by
  rintro ⟨hm, hh⟩
  have h0 : s.holeWith set off ≠ 0 := by
    intro hz
    apply h
    apply BitVec.eq_of_getLsbD_eq
    intro j _
    have := congrArg (fun x => BitVec.getLsbD x j) hz
    simp [State.holeWith, BitVec.getLsbD_or] at this
    simpa using this.2
  rw [lookup_abandon] at hm
  rw [holes_abandon] at hh
  split at hm
  · cases hm
  · next hff =>
    rw [if_neg (not_or.mpr ⟨h0, hff⟩)] at hh
    cases hl : s.mem.lookup off <;> simp [hl] at hm hh

/-! ### The canonical form -/

/-- A write inside the buffers keeps the canonical form of the memory and of its undefined bits. -/
theorem wf_writeBytes {s : State} (h : s.mem.wf = true) (hh : s.mem.holesWf s.holes = true) {off : Nat} {bytes : List Byte}
    (hin : ∀ k, k < bytes.length → isBufferOffset (off + k) = true) :
    (s.writeBytes off bytes).mem.wf = true ∧ (s.writeBytes off bytes).mem.holesWf (s.writeBytes off bytes).holes = true :=
  ⟨Memory.wf_splice h hin, Memory.holesWf_splice hh off bytes⟩

/-- Making bits undefined keeps it too. -/
theorem wf_abandon {s : State} (h : s.mem.wf = true) (set : Nat → Byte) :
    (s.abandon set).mem.wf = true ∧ (s.abandon set).mem.holesWf (s.abandon set).holes = true := by
  have hm : (s.abandon set).mem.wf = true :=
    Memory.wf_map (Memory.wf_filter h (fun k => s.holeWith set k != 0xFF)) (fun k b => b &&& ~~~s.holeWith set k)
  have hw : (s.abandon set).holes.wf = true :=
    Memory.wf_filter (Memory.wf_map hm (fun k _ => s.holeWith set k)) (fun k => s.holeWith set k != 0)
  refine ⟨hm, (Memory.holesWf_iff _ _).mpr ⟨hw, fun c hc => ?_⟩⟩
  have hl := Memory.lookup_of_mem hw hc
  rw [holes_abandon] at hl
  split at hl
  · cases hl
  · next hne =>
    rw [not_or] at hne
    obtain ⟨b, hb, hc2⟩ := Option.map_eq_some_iff.mp hl
    refine ⟨hc2 ▸ hne.1, hc2 ▸ hne.2, b &&& ~~~s.holeWith set c.1, ?_, ?_⟩
    · rw [lookup_abandon, if_neg hne.2, hb, Option.map_some]
    · rw [← hc2, BitVec.and_assoc, BitVec.and_comm (~~~_)]
      simp

/-! ### One bit of a byte -/

theorem getLsbD_setBit (x : Byte) (i : Nat) (b : Bool) (hi : i < 8) (j : Nat) :
    (setBit x i b).getLsbD j = if j = i then b else x.getLsbD j := by
  unfold setBit
  by_cases hj : j < 8
  · by_cases h : j = i
    · subst h
      cases b <;> simp [hj]
    · cases b <;> simp [hj, h]
  · have hne : j ≠ i := by omega
    rw [if_neg hne, BitVec.getLsbD_of_ge x j (by omega), BitVec.getLsbD_of_ge _ j (by omega)]

/-! ### What the host reads of a byte -/

/-- With no command running the host reads the byte itself. -/
theorem hostByte_idle {s : State} (h : s.running = none) (off : Nat) : s.hostByte off = s.readByte 0 off := by
  rw [State.hostByte, State.unsettledBits, h, mixByte_zero]

/-- While a command runs, a bit outside its write set reads as it is (70_reset_and_hazards.md R432). -/
theorem getLsbD_hostByte {s : State} {i : Instr} (h : s.running = some i) (off j : Nat) :
    (s.hostByte off).getLsbD j
      = if (writesBits s off i).getLsbD j then (Config.freeByte s.draws 2 off).getLsbD j else (s.readByte 0 off).getLsbD j := by
  rw [State.hostByte, State.unsettledBits, h, getLsbD_mixByte]

/-! ### Appending one bit -/

theorem appendBit_bsLen (s : State) (b : Bool) (h : s.bsLenNat < 32768) : (s.appendBit b).bsLenNat = s.bsLenNat + 1 := by
  show (BitVec.ofNat 16 (s.bsLenNat + 1)).toNat = _
  rw [BitVec.toNat_ofNat]
  omega

/-- The stream bit that `append_bit` writes, and every other one. -/
theorem streamBit_appendBit (s : State) (b : Bool) (i : Nat) :
    (s.appendBit b).streamBit i = if i = s.bsLenNat then b else s.streamBit i := by
  unfold State.streamBit State.elem
  by_cases hq : i / 8 = s.bsLenNat / 8
  · have hr : (s.appendBit b).readByte 0 (Buffer.bsb.base + i / 8)
        = setBit (s.elem .bsb (s.bsLenNat / 8)) (7 - s.bsLenNat % 8) b := by
      rw [hq]
      exact readByte_writeBytes_inside s 0 (Buffer.bsb.base + s.bsLenNat / 8)
        [setBit (s.elem .bsb (s.bsLenNat / 8)) (7 - s.bsLenNat % 8) b] 0 (by simp)
    rw [hr, getLsbD_setBit _ _ _ (by omega)]
    by_cases h : i = s.bsLenNat
    · simp [h]
    · have : 7 - i % 8 ≠ 7 - s.bsLenNat % 8 := by omega
      simp [h, this, State.elem, hq]
  · have h : i ≠ s.bsLenNat := fun h => hq (by rw [h])
    have hr : (s.appendBit b).readByte 0 (Buffer.bsb.base + i / 8) = s.readByte 0 (Buffer.bsb.base + i / 8) :=
      readByte_writeBytes_outside s 0 (Buffer.bsb.base + s.bsLenNat / 8)
        [setBit (s.elem .bsb (s.bsLenNat / 8)) (7 - s.bsLenNat % 8) b] _ (by simp; omega)
    rw [hr]
    simp [h]

/-- `append_bit` writes one byte of `BSB`. -/
theorem readByte_appendBit_outside (s : State) (b : Bool) (n a : Nat) (h : a ≠ Buffer.bsb.base + s.bsLenNat / 8) :
    (s.appendBit b).readByte n a = s.readByte n a :=
  readByte_writeBytes_outside s n (Buffer.bsb.base + s.bsLenNat / 8)
    [setBit (s.elem .bsb (s.bsLenNat / 8)) (7 - s.bsLenNat % 8) b] a (by simp; omega)

end Sys2Proof.Machine
end

