-- ==== Sys2Proof/Laws/Append.lean ====
section
/-! SUPPORT. Every append of the bit-stream packer (41_bitstream.md R160 to R166) as the append of one list of bits, and what that does, said
once. -/

namespace Sys2Proof.Machine

/-- Append bits one after another. -/
def State.appendAll (s : State) (bits : List Bool) : State := bits.foldl State.appendBit s

theorem appendAll_append (s : State) (xs ys : List Bool) : s.appendAll (xs ++ ys) = (s.appendAll xs).appendAll ys := by
  simp [State.appendAll]

/-! ### What an append does -/

theorem appendAll_bsLen (s : State) (bits : List Bool) (h : s.bsLenNat + bits.length ≤ 32768) :
    (s.appendAll bits).bsLenNat = s.bsLenNat + bits.length := by
  induction bits generalizing s with
  | nil => rfl
  | cons b bits ih =>
    rw [List.length_cons] at h ⊢
    have h1 := appendBit_bsLen s b (by omega)
    show ((s.appendBit b).appendAll bits).bsLenNat = _
    rw [ih _ (by omega), h1]
    omega

/-- Appending touches the memory and `BS_LEN` and nothing else. -/
theorem appendAll_frame (s : State) (bits : List Bool) :
    (s.appendAll bits).regs = { s.regs with bsLen := (s.appendAll bits).regs.bsLen }
      ∧ (s.appendAll bits).pending = s.pending ∧ (s.appendAll bits).host = s.host
      ∧ (s.appendAll bits).resp = s.resp ∧ (s.appendAll bits).draws = s.draws := by
  induction bits generalizing s with
  | nil => exact ⟨rfl, rfl, rfl, rfl, rfl⟩
  | cons b bits ih =>
    obtain ⟨h1, h2, h3, h4, h5⟩ := ih (s.appendBit b)
    exact ⟨h1, h2, h3, h4, h5⟩

theorem appendAll_regs (s : State) (bits : List Bool) (h : s.bsLenNat + bits.length ≤ 32768) :
    (s.appendAll bits).regs = { s.regs with bsLen := BitVec.ofNat 16 (s.bsLenNat + bits.length) } := by
  have hlen : (s.appendAll bits).regs.bsLen = BitVec.ofNat 16 (s.bsLenNat + bits.length) := by
    apply BitVec.eq_of_toNat_eq
    have : (s.appendAll bits).regs.bsLen.toNat = s.bsLenNat + bits.length := appendAll_bsLen s bits h
    rw [this, BitVec.toNat_ofNat]
    omega
  exact (appendAll_frame s bits).1.trans (by rw [hlen])

/-- The bits of the stream after an append: the new ones at the cursor, every other one as before. -/
theorem appendAll_streamBit (s : State) (bits : List Bool) (h : s.bsLenNat + bits.length ≤ 32768) (i : Nat) :
    (s.appendAll bits).streamBit i
      = if s.bsLenNat ≤ i ∧ i < s.bsLenNat + bits.length then bits.getD (i - s.bsLenNat) false else s.streamBit i := by
  induction bits generalizing s with
  | nil =>
    rw [if_neg (by simp only [List.length_nil]; omega)]
    rfl
  | cons b bits ih =>
    rw [List.length_cons] at h ⊢
    have h1 := appendBit_bsLen s b (by omega)
    show ((s.appendBit b).appendAll bits).streamBit i = _
    rw [ih _ (by omega), h1, streamBit_appendBit]
    by_cases hi : i = s.bsLenNat
    · subst hi
      simp
    · by_cases hr : s.bsLenNat ≤ i ∧ i < s.bsLenNat + (bits.length + 1)
      · have h2 : s.bsLenNat + 1 ≤ i ∧ i < s.bsLenNat + 1 + bits.length := by omega
        rw [if_pos h2, if_pos hr, show i - s.bsLenNat = (i - (s.bsLenNat + 1)) + 1 by omega, List.getD_cons_succ]
      · have h2 : ¬ (s.bsLenNat + 1 ≤ i ∧ i < s.bsLenNat + 1 + bits.length) := by omega
        rw [if_neg h2, if_neg hr, if_neg hi]

theorem lookup_appendBit (s : State) (b : Bool) (a : Nat) :
    (s.appendBit b).mem.lookup a
      = if a = Buffer.bsb.base + s.bsLenNat / 8 then some (setBit (s.elem .bsb (s.bsLenNat / 8)) (7 - s.bsLenNat % 8) b)
        else s.mem.lookup a := by
  show (s.mem.splice (Buffer.bsb.base + s.bsLenNat / 8) [setBit (s.elem .bsb (s.bsLenNat / 8)) (7 - s.bsLenNat % 8) b]).lookup a = _
  rw [Memory.lookup_splice]
  by_cases h : a = Buffer.bsb.base + s.bsLenNat / 8
  · subst h
    simp
  · rw [if_neg h, if_neg (by simp only [List.length_singleton]; omega)]

theorem holes_appendBit (s : State) (b : Bool) (a : Nat) :
    (s.appendBit b).holes.lookup a = if a = Buffer.bsb.base + s.bsLenNat / 8 then none else s.holes.lookup a := by
  rw [State.appendBit_holes, holes_writeBytes]
  by_cases h : a = Buffer.bsb.base + s.bsLenNat / 8
  · rw [if_pos h, if_pos (by simp only [List.length_singleton]; omega)]
  · rw [if_neg h, if_neg (by simp only [List.length_singleton]; omega)]

/-- A byte that an append has marked stays marked. -/
theorem appendAll_marked (s : State) (bits : List Bool) (a : Nat) (h : (s.mem.lookup a).isSome) :
    ((s.appendAll bits).mem.lookup a).isSome := by
  induction bits generalizing s with
  | nil => exact h
  | cons b bits ih =>
    refine ih (s.appendBit b) ?_
    rw [lookup_appendBit]
    split
    · rfl
    · exact h

/-- The bytes of the new bits are marked. -/
theorem appendAll_marks (s : State) (bits : List Bool) (h : s.bsLenNat + bits.length ≤ 32768) (i : Nat)
    (hi : s.bsLenNat ≤ i) (hi' : i < s.bsLenNat + bits.length) :
    ((s.appendAll bits).mem.lookup (Buffer.bsb.base + i / 8)).isSome := by
  induction bits generalizing s with
  | nil => simp at hi'; omega
  | cons b bits ih =>
    rw [List.length_cons] at h hi'
    have h1 := appendBit_bsLen s b (by omega)
    show (((s.appendBit b).appendAll bits).mem.lookup _).isSome
    by_cases he : i = s.bsLenNat
    · subst he
      refine appendAll_marked _ _ _ ?_
      rw [lookup_appendBit, if_pos rfl]
      rfl
    · exact ih (s.appendBit b) (by omega) (by omega) (by omega)

/-- Appending leaves no byte with more undefined bits. -/
theorem appendAll_holes_of_none (s : State) (bits : List Bool) (a : Nat) (h : s.holes.lookup a = none) :
    (s.appendAll bits).holes.lookup a = none := by
  induction bits generalizing s with
  | nil => exact h
  | cons b bits ih =>
    refine ih (s.appendBit b) ?_
    rw [holes_appendBit, h, ite_self]

/-- Every bit of the bytes of the new bits is defined. -/
theorem appendAll_defines (s : State) (bits : List Bool) (h : s.bsLenNat + bits.length ≤ 32768) (i : Nat)
    (hi : s.bsLenNat ≤ i) (hi' : i < s.bsLenNat + bits.length) :
    (s.appendAll bits).holes.lookup (Buffer.bsb.base + i / 8) = none := by
  induction bits generalizing s with
  | nil => simp at hi'; omega
  | cons b bits ih =>
    rw [List.length_cons] at h hi'
    have h1 := appendBit_bsLen s b (by omega)
    show ((s.appendBit b).appendAll bits).holes.lookup _ = none
    by_cases he : i = s.bsLenNat
    · subst he
      exact appendAll_holes_of_none _ _ _ (by rw [holes_appendBit, if_pos rfl])
    · exact ih (s.appendBit b) (by omega) (by omega) (by omega)

/-- A byte that holds no new bit is as it was. -/
theorem appendAll_outside (s : State) (bits : List Bool) (h : s.bsLenNat + bits.length ≤ 32768) (a : Nat)
    (ha : ∀ i, s.bsLenNat ≤ i → i < s.bsLenNat + bits.length → a ≠ Buffer.bsb.base + i / 8) :
    (s.appendAll bits).mem.lookup a = s.mem.lookup a ∧ (s.appendAll bits).holes.lookup a = s.holes.lookup a := by
  induction bits generalizing s with
  | nil => exact ⟨rfl, rfl⟩
  | cons b bits ih =>
    rw [List.length_cons] at h ha
    have h1 := appendBit_bsLen s b (by omega)
    show ((s.appendBit b).appendAll bits).mem.lookup a = _ ∧ ((s.appendBit b).appendAll bits).holes.lookup a = _
    obtain ⟨hm, hh⟩ := ih (s.appendBit b) (by omega) (fun i hi hi' => ha i (by omega) (by omega))
    have hne := ha s.bsLenNat (by omega) (by omega)
    exact ⟨by rw [hm, lookup_appendBit, if_neg hne], by rw [hh, holes_appendBit, if_neg hne]⟩

/-! ### The appends of the commands -/

/-- The low `w` bits of a value, most significant first. -/
def bitsOf : Nat → Word → List Bool
  | 0, _ => []
  | w + 1, v => v.getLsbD w :: bitsOf w v

theorem bitsOf_length (w : Nat) (v : Word) : (bitsOf w v).length = w := by
  induction w with
  | zero => rfl
  | succ w ih => rw [bitsOf, List.length_cons, ih]

theorem bitsOf_getD (w : Nat) (v : Word) (k : Nat) (h : k < w) : (bitsOf w v).getD k false = v.getLsbD (w - 1 - k) := by
  induction w generalizing k with
  | zero => omega
  | succ w ih =>
    cases k with
    | zero => simp [bitsOf]
    | succ k =>
      rw [bitsOf, List.getD_cons_succ, ih k (by omega)]
      congr 1
      omega

theorem appendBits_eq (w : Nat) (v : Word) (s : State) : State.appendBits w v s = s.appendAll (bitsOf w v) := by
  induction w generalizing s with
  | zero => rfl
  | succ w ih => exact ih (s.appendBit (v.getLsbD w))

/-- The bits of a list of bytes, each most significant bit first. -/
def bitsOfBytes (bytes : List Byte) : List Bool := bytes.flatMap (fun b => bitsOf 8 (b.setWidth 32))

theorem bitsOfBytes_cons (b : Byte) (bytes : List Byte) :
    bitsOfBytes (b :: bytes) = bitsOf 8 (b.setWidth 32) ++ bitsOfBytes bytes := by
  rw [bitsOfBytes, List.flatMap_cons]
  rfl

theorem bitsOfBytes_length (bytes : List Byte) : (bitsOfBytes bytes).length = 8 * bytes.length := by
  induction bytes with
  | nil => rfl
  | cons b bytes ih =>
    rw [bitsOfBytes_cons, List.length_append, bitsOf_length, List.length_cons, ih]
    omega

/-- Bit `8 k + j` is bit `7 - j` of byte `k`. -/
theorem bitsOfBytes_getD (bytes : List Byte) (k j : Nat) (hj : j < 8) :
    (bitsOfBytes bytes).getD (8 * k + j) false = (bytes.getD k 0).getLsbD (7 - j) := by
  induction bytes generalizing k with
  | nil => simp [bitsOfBytes]
  | cons b bytes ih =>
    rw [bitsOfBytes_cons, List.getD_eq_getElem?_getD]
    cases k with
    | zero =>
      rw [List.getElem?_append_left (by rw [bitsOf_length]; omega), ← List.getD_eq_getElem?_getD, bitsOf_getD _ _ _ (by omega),
        List.getD_cons_zero, BitVec.getLsbD_setWidth, show 8 - 1 - (8 * 0 + j) = 7 - j by omega]
      simp [show 7 - j < 32 by omega]
    | succ k =>
      rw [List.getElem?_append_right (by rw [bitsOf_length]; omega), bitsOf_length, ← List.getD_eq_getElem?_getD,
        show 8 * (k + 1) + j - 8 = 8 * k + j by omega, ih, List.getD_cons_succ]

theorem appendBytes_eq (bytes : List Byte) (s : State) : State.appendBytes bytes s = s.appendAll (bitsOfBytes bytes) := by
  induction bytes generalizing s with
  | nil => rfl
  | cons b bytes ih =>
    rw [bitsOfBytes_cons, appendAll_append, ← appendBits_eq]
    exact ih _

theorem appendZeros_eq (t : Nat) (s : State) : State.appendZeros t s = s.appendAll (List.replicate t false) := by
  induction t generalizing s with
  | zero => rfl
  | succ t ih => exact ih (s.appendBit false)

/-- The byte-boundary loop appends what is missing to the boundary. -/
theorem padToByte_eq (fuel : Nat) (s : State) (h : s.bsLenNat + 7 ≤ 32775) (hf : (8 - s.bsLenNat % 8) % 8 ≤ fuel) :
    State.padToByte fuel s = s.appendAll (List.replicate ((8 - s.bsLenNat % 8) % 8) false) := by
  induction fuel generalizing s with
  | zero =>
    have : (8 - s.bsLenNat % 8) % 8 = 0 := by omega
    rw [this]
    rfl
  | succ fuel ih =>
    rw [State.padToByte]
    by_cases hz : s.bsLenNat % 8 = 0
    · rw [if_pos hz, hz]
      rfl
    · have h1 := appendBit_bsLen s false (by omega)
      rw [if_neg hz, ih (s.appendBit false) (by omega) (by omega), h1]
      have hk : (8 - s.bsLenNat % 8) % 8 = (8 - (s.bsLenNat + 1) % 8) % 8 + 1 := by omega
      rw [hk, List.replicate_succ]
      rfl

/-- The pad bytes number `k` to `k + m - 1`. -/
def padList (k m : Nat) : List Byte := (List.range m).map (fun j => qrPadByte (k + j))

theorem padList_succ (k m : Nat) : padList k (m + 1) = qrPadByte k :: padList (k + 1) m := by
  simp only [padList, List.range_succ_eq_map, List.map_cons, List.map_map, Nat.add_zero]
  congr 1
  apply List.map_congr_left
  intro j _
  show qrPadByte (k + (j + 1)) = qrPadByte (k + 1 + j)
  congr 1
  omega

/-- The pad-byte loop appends the pad bytes up to the capacity. -/
theorem padBytes_eq (cap fuel k : Nat) (s : State) (hcap : cap ≤ 32768) (h8 : cap % 8 = 0) (hs : s.bsLenNat % 8 = 0)
    (hle : s.bsLenNat ≤ cap) (hf : (cap - s.bsLenNat) / 8 ≤ fuel) :
    State.padBytes cap fuel k s = s.appendAll (bitsOfBytes (padList k ((cap - s.bsLenNat) / 8))) := by
  induction fuel generalizing k s with
  | zero =>
    have : (cap - s.bsLenNat) / 8 = 0 := by omega
    rw [this]
    rfl
  | succ fuel ih =>
    show (if s.bsLenNat < cap then State.padBytes cap fuel (k + 1) (State.appendBits 8 ((qrPadByte k).setWidth 32) s) else s) = _
    rw [appendBits_eq]
    by_cases hlt : s.bsLenNat < cap
    · have hlen : (s.appendAll (bitsOf 8 ((qrPadByte k).setWidth 32))).bsLenNat = s.bsLenNat + 8 := by
        rw [appendAll_bsLen _ _ (by rw [bitsOf_length]; omega), bitsOf_length]
      have hm : (cap - s.bsLenNat) / 8 = (cap - (s.bsLenNat + 8)) / 8 + 1 := by omega
      rw [if_pos hlt, ih (k + 1) _ (by rw [hlen]; omega) (by rw [hlen]; omega) (by rw [hlen]; omega), hlen, hm,
        padList_succ, bitsOfBytes_cons, appendAll_append]
    · have : (cap - s.bsLenNat) / 8 = 0 := by omega
      rw [if_neg hlt, this]
      rfl

end Sys2Proof.Machine
end

