-- ==== Sys2Proof/Laws/Command.lean ====
section
/-! SUPPORT. What a command can do (40_control.md R143, 60_exceptions.md R381, R382): it raises the error of its first failing check, or it has its
effect and completes; it never stops the machine. -/

namespace Sys2Proof.Machine

theorem firstFailing_nil : firstFailing [] = none := rfl

theorem firstFailing_cons (fails : Bool) (code : ErrorCode) (rest : List (Bool × ErrorCode)) :
    firstFailing ((fails, code) :: rest) = if fails then some code else firstFailing rest := rfl

/-- No check fails exactly when every one of them is false. -/
theorem firstFailing_eq_none (checks : List (Bool × ErrorCode)) :
    firstFailing checks = none ↔ ∀ c ∈ checks, c.1 = false := by
  induction checks with
  | nil => simp [firstFailing]
  | cons c rest ih =>
    obtain ⟨fails, code⟩ := c
    cases fails <;> simp [firstFailing_cons, ih]

/-- The reported code is the code of a check. -/
theorem firstFailing_mem {checks : List (Bool × ErrorCode)} {code : ErrorCode} (h : firstFailing checks = some code) :
    (true, code) ∈ checks := by
  induction checks with
  | nil => simp [firstFailing] at h
  | cons c rest ih =>
    obtain ⟨fails, d⟩ := c
    cases fails with
    | true =>
      simp only [firstFailing_cons, if_true, Option.some.injEq] at h
      simp [h]
    | false => simp [ih (by simpa [firstFailing_cons] using h)]

/-- Everything a command can do. -/
theorem command_cases {s t : State} {checks : List (Bool × ErrorCode)} {effect : State → State}
    (h : s.command checks effect = .next t) :
    (∃ code, firstFailing checks = some code ∧ t = s.raiseError code)
      ∨ (firstFailing checks = none ∧ t = (effect s).complete) := by
  unfold State.command at h
  split at h
  · next code hc => injection h with h; exact .inl ⟨code, hc, h.symm⟩
  · next hc => injection h with h; exact .inr ⟨hc, h.symm⟩

theorem command_of_failing {s : State} {checks : List (Bool × ErrorCode)} {effect : State → State} {code : ErrorCode}
    (h : firstFailing checks = some code) : s.command checks effect = .next (s.raiseError code) := by
  simp [State.command, h]

theorem command_of_passing {s : State} {checks : List (Bool × ErrorCode)} {effect : State → State}
    (h : firstFailing checks = none) : s.command checks effect = .next (effect s).complete := by
  simp [State.command, h]

/-- A command answers a next state whatever happens (60_exceptions.md R385). -/
theorem command_continues (s : State) (checks : List (Bool × ErrorCode)) (effect : State → State) :
    ∃ t, s.command checks effect = .next t := by
  cases h : firstFailing checks with
  | none => exact ⟨_, command_of_passing h⟩
  | some code => exact ⟨_, command_of_failing h⟩

/-- Every meaning is a command: a list of checks and an effect. -/
theorem exec_is_command (i : Instr) (s : State) : ∃ checks effect, exec i s = s.command checks effect := by
  cases i with
  | nop => exact ⟨_, _, by rw [exec, execNop]⟩
  | gridClear rows cols => exact ⟨_, _, by rw [exec, execGridClear]⟩
  | bsClear => exact ⟨_, _, by rw [exec, execBsClear]⟩
  | bsAppend w => exact ⟨_, _, by rw [exec, execBsAppend]⟩
  | bsAppendBytes count => exact ⟨_, _, by rw [exec, execBsAppendBytes]⟩
  | bsPadQr => exact ⟨_, _, by rw [exec, execBsPadQr]⟩
  | bsToCw => exact ⟨_, _, by rw [exec, execBsToCw]⟩
  | cwPadDm t => exact ⟨_, _, by rw [exec, execCwPadDm]⟩
  | gfAdd a b => exact ⟨_, _, by rw [exec, execGfAdd]⟩
  | gfMul a b => exact ⟨_, _, by rw [exec, execGfMul]⟩
  | gfDiv a b => exact ⟨_, _, by rw [exec, execGfDiv]⟩
  | gfInv a => exact ⟨_, _, by rw [exec, execGfInv]⟩
  | gfExp k => exact ⟨_, _, by rw [exec, execGfExp]⟩
  | gfLog a => exact ⟨_, _, by rw [exec, execGfLog]⟩
  | rsGenpoly n => exact ⟨_, _, by rw [exec, execRsGenpoly]⟩
  | rsEncode l n => exact ⟨_, _, by rw [exec, execRsEncode]⟩
  | eccDm => exact ⟨_, _, by rw [exec, execEccDm]⟩
  | eccQr => exact ⟨_, _, by rw [exec, execEccQr]⟩
  | dmLayout => exact ⟨_, _, by rw [exec, execDmLayout]⟩
  | qrLayout => exact ⟨_, _, by rw [exec, execQrLayout]⟩

/-- Every meaning answers a next state. -/
theorem exec_continues (i : Instr) (s : State) : ∃ t, exec i s = .next t := by
  obtain ⟨checks, effect, h⟩ := exec_is_command i s
  rw [h]
  exact command_continues s checks effect

end Sys2Proof.Machine
end

