-- ==== Sys2Proof/Laws/Coder.lean ====
section
/-! SUPPORT. The Reed–Solomon coder: the lengths of its sequences (43_reed_solomon.md R220, R222), the places of interleaved codewords (R225, R228),
and what the buffer effects of its commands write. -/

namespace Sys2Proof.Machine

/-! ### Lengths -/

@[simp] theorem mulByRoot_length (f : GField) (r : Byte) (g : List Byte) : (mulByRoot f r g).length = g.length + 1 := by
  simp [mulByRoot]

@[simp] theorem genPoly_length (f : GField) (n : Nat) : (genPoly f n).length = n + 1 := by
  induction n with
  | zero => rfl
  | succ n ih => rw [genPoly, mulByRoot_length, ih]

@[simp] theorem genTaps_length (f : GField) (n : Nat) : (genTaps f n).length = n := by
  simp [genTaps]

theorem rsShift_length (f : GField) (taps e : List Byte) (d : Byte) (h : taps.length = e.length) (hpos : 0 < e.length) :
    (rsShift f taps e d).length = e.length := by
  simp [rsShift]
  omega

theorem rsEcc_fold_length (f : GField) (taps : List Byte) (d e : List Byte) (h : taps.length = e.length) (hpos : 0 < e.length) :
    (d.foldl (rsShift f taps) e).length = e.length := by
  induction d generalizing e with
  | nil => rfl
  | cons x d ih =>
    have hl := rsShift_length f taps e x h hpos
    rw [List.foldl_cons, ih _ (by omega) (by omega), hl]

/-- `n` ECC codewords (43_reed_solomon.md R222). -/
theorem rsEcc_length (f : GField) (d : List Byte) (n : Nat) (hn : 0 < n) : (rsEcc f d n).length = n := by
  unfold rsEcc
  rw [rsEcc_fold_length] <;> simp [hn]

/-! ### Interleaving -/

/-- A run of `m` equal-length rows: element `c` of row `j` is at `j * m + c`. -/
theorem getElem?_flatMap_rows {α : Type} (row : Nat → List α) (m : Nat) (hrow : ∀ j, (row j).length = m) (n j c : Nat)
    (hj : j < n) (hc : c < m) : ((List.range n).flatMap row)[j * m + c]? = (row j)[c]? := by
  induction n with
  | zero => omega
  | succ n ih =>
    have hlen : ∀ n, ((List.range n).flatMap row).length = n * m := by
      intro n
      induction n with
      | zero => simp
      | succ n ih => rw [List.range_succ, List.flatMap_append, List.length_append, ih]; simp [hrow]; ring
    rw [List.range_succ, List.flatMap_append]
    by_cases hlt : j < n
    · have : j * m + c < n * m := by nlinarith
      rw [List.getElem?_append_left (by rw [hlen]; exact this), ih hlt]
    · have hjn : j = n := by omega
      subst hjn
      rw [List.getElem?_append_right (by rw [hlen]; omega), hlen, show j * m + c - j * m = c by omega]
      simp

theorem length_flatMap_rows {α : Type} (row : Nat → List α) (m : Nat) (hrow : ∀ j, (row j).length = m) (n : Nat) :
    ((List.range n).flatMap row).length = n * m := by
  induction n with
  | zero => simp
  | succ n ih => rw [List.range_succ, List.flatMap_append, List.length_append, ih]; simp [hrow]; ring

theorem interleaveEcc_length (n : Nat) (eccs : List (List Byte)) : (interleaveEcc n eccs).length = n * eccs.length :=
  length_flatMap_rows _ _ (fun _ => by simp) n

/-- Codeword `j` of block `b` is at `j * blocks + b` (43_reed_solomon.md R225, R228). -/
theorem interleaveEcc_getElem? (n : Nat) (eccs : List (List Byte)) (j b : Nat) (hj : j < n) (hb : b < eccs.length) :
    (interleaveEcc n eccs)[j * eccs.length + b]? = some ((eccs[b]).getD j 0) := by
  unfold interleaveEcc
  rw [getElem?_flatMap_rows _ eccs.length (fun _ => by simp) n j b hj hb]
  simp [hb]

/-! ### Buffer effects -/

/-- `GEN` after the generator side effect (43_reed_solomon.md R232). -/
theorem lookup_setGen_inside (s : State) (f : GField) (n k : Nat) (hn : n < 256) (hk : k < 256) :
    (s.setGen f n).mem.lookup (0x100 + k) = some ((genPoly f n).getD k 0) := by
  have hlen : k < (genPoly f n ++ List.replicate (255 - n) 0).length := by simp; omega
  have h := lookup_writeBytes_inside s Buffer.gen.base (genPoly f n ++ List.replicate (255 - n) 0) k hlen
  show (s.writeBytes Buffer.gen.base (genPoly f n ++ List.replicate (255 - n) 0)).mem.lookup (Buffer.gen.base + k) = _
  rw [h]
  congr 1
  by_cases hk' : k < n + 1
  · rw [List.getElem_append_left (by simp; omega)]
    simp [List.getD_eq_getElem?_getD, hk']
  · rw [List.getElem_append_right (by simp; omega)]
    simp [List.getD_eq_getElem?_getD, hk']

theorem lookup_setGen_outside (s : State) (f : GField) (n a : Nat) (hn : n < 256) (h : a < 0x100 ∨ 0x200 ≤ a) :
    (s.setGen f n).mem.lookup a = s.mem.lookup a := by
  refine lookup_writeBytes_outside s Buffer.gen.base (genPoly f n ++ List.replicate (255 - n) 0) a ?_
  simp [Buffer.base]
  omega

/-- The undefined bits after it: none in `GEN`, and elsewhere as they were. -/
theorem holes_setGen (s : State) (f : GField) (n a : Nat) (hn : n < 256) :
    (s.setGen f n).holes.lookup a = if 0x100 ≤ a ∧ a < 0x200 then none else s.holes.lookup a := by
  rw [State.setGen_holes, holes_writeBytes]
  have : (genPoly f n ++ List.replicate (255 - n) 0).length = 256 := by simp; omega
  rw [this]
  rfl

theorem writeStrided_frame (stride pos : Nat) (bytes : List Byte) (s : State) :
    (State.writeStrided stride pos bytes s).regs = s.regs ∧ (State.writeStrided stride pos bytes s).pending = s.pending
      ∧ (State.writeStrided stride pos bytes s).host = s.host ∧ (State.writeStrided stride pos bytes s).resp = s.resp
      ∧ (State.writeStrided stride pos bytes s).draws = s.draws := by
  induction bytes generalizing pos s with
  | nil => exact ⟨rfl, rfl, rfl, rfl, rfl⟩
  | cons b bytes ih => exact ih (pos + stride) (s.writeBytes (Buffer.fsb.base + pos) [b])

/-- A byte at none of the strided positions is as it was (43_reed_solomon.md R224). -/
theorem lookup_writeStrided_outside (stride pos : Nat) (bytes : List Byte) (s : State) (a : Nat)
    (h : ∀ j, j < bytes.length → a ≠ 0x2000 + pos + j * stride) :
    (State.writeStrided stride pos bytes s).mem.lookup a = s.mem.lookup a := by
  induction bytes generalizing pos s with
  | nil => rfl
  | cons b bytes ih =>
    rw [List.length_cons] at h
    show (State.writeStrided stride (pos + stride) bytes (s.writeBytes (Buffer.fsb.base + pos) [b])).mem.lookup a = _
    have h0 := h 0 (by omega)
    rw [ih (pos + stride) _ (fun j hj => ?_), lookup_writeBytes_outside _ _ _ _ ?_]
    · simp only [List.length_singleton, Buffer.base]
      omega
    · have := h (j + 1) (by omega)
      rw [Nat.succ_mul] at this
      omega

/-- Byte `j` is at the strided position `j` (43_reed_solomon.md R224). -/
theorem lookup_writeStrided_inside (stride pos : Nat) (bytes : List Byte) (s : State) (hs : 0 < stride) (j : Nat)
    (hj : j < bytes.length) :
    (State.writeStrided stride pos bytes s).mem.lookup (0x2000 + pos + j * stride) = some bytes[j] := by
  induction bytes generalizing pos s j with
  | nil => simp at hj
  | cons b bytes ih =>
    show (State.writeStrided stride (pos + stride) bytes (s.writeBytes (Buffer.fsb.base + pos) [b])).mem.lookup _ = _
    cases j with
    | zero =>
      rw [lookup_writeStrided_outside]
      · simpa [Buffer.base] using lookup_writeBytes_inside s (Buffer.fsb.base + pos) [b] 0 (by simp)
      · intro j _
        omega
    | succ j =>
      rw [List.length_cons] at hj
      have := ih (pos + stride) (s.writeBytes (Buffer.fsb.base + pos) [b]) j (by omega)
      rw [Nat.succ_mul, show 0x2000 + pos + (j * stride + stride) = 0x2000 + (pos + stride) + j * stride by omega, this]
      rfl

/-- The undefined bits after the strided writes: none in the bytes written, and elsewhere as they were. -/
theorem holes_writeStrided (stride pos : Nat) (bytes : List Byte) (s : State) (a : Nat) :
    (State.writeStrided stride pos bytes s).holes.lookup a
      = if ∃ j, j < bytes.length ∧ a = 0x2000 + pos + j * stride then none else s.holes.lookup a := by
  induction bytes generalizing pos s with
  | nil =>
    rw [if_neg (by simp)]
    rfl
  | cons b bytes ih =>
    show (State.writeStrided stride (pos + stride) bytes (s.writeBytes (Buffer.fsb.base + pos) [b])).holes.lookup a = _
    rw [ih, holes_writeBytes]
    by_cases h0 : a = 0x2000 + pos
    · have hin : ∃ j, j < (b :: bytes).length ∧ a = 0x2000 + pos + j * stride := ⟨0, by simp, by omega⟩
      rw [if_pos hin, if_pos (show Buffer.fsb.base + pos ≤ a ∧ a < Buffer.fsb.base + pos + [b].length by
        simp only [Buffer.base, List.length_singleton]; omega), ite_self]
    · have hout : ¬ (Buffer.fsb.base + pos ≤ a ∧ a < Buffer.fsb.base + pos + [b].length) := by
        simp only [Buffer.base, List.length_singleton]; omega
      rw [if_neg hout]
      refine if_congr ⟨?_, ?_⟩ rfl rfl
      · rintro ⟨j, hj, ha⟩
        exact ⟨j + 1, by simpa using hj, by rw [Nat.succ_mul]; omega⟩
      · rintro ⟨j, hj, ha⟩
        cases j with
        | zero => omega
        | succ j => exact ⟨j, by simpa using hj, by rw [Nat.succ_mul] at ha; omega⟩

end Sys2Proof.Machine
end

