-- ==== Sys2Proof/Laws/Decode.lean ====
section
/-! SUPPORT. Bit fields, the bytes of a word, and the decoder (00_scope.md R8, 20_memory.md R84, 30_encoding.md R113). -/

namespace Sys2Proof

/-- A bit field is the extraction of its bits. -/
theorem bitField_eq_extract (w : Word) (lo width : Nat) (h : 0 < width) :
    bitField w (lo + width - 1) lo = (w.extractLsb' lo width).toNat := by
  rw [bitField, BitVec.extractLsb'_toNat, Nat.shiftRight_eq_div_pow, show lo + width - 1 + 1 - lo = width by omega]

/-- A bit field fits its bits. -/
theorem bitField_lt {n : Nat} (v : BitVec n) (hi lo : Nat) : bitField v hi lo < 2 ^ (hi + 1 - lo) :=
  Nat.mod_lt _ (Nat.two_pow_pos _)

/-- A word read back from its four bytes. -/
@[simp] theorem wordOfBytes_byteOfWord (v : Word) :
    wordOfBytes (byteOfWord v 0) (byteOfWord v 1) (byteOfWord v 2) (byteOfWord v 3) = v := by
  refine BitVec.eq_of_toNat_eq ?_
  simp only [wordOfBytes, byteOfWord, BitVec.toNat_ofNat]
  omega

/-- The decoder on a table word is the decoder on that word: its bytes in the order of the bus are read back. -/
theorem decodeTableWord_eq (nbits w : Nat) : decodeTableWord nbits w = (decode (BitVec.ofNat 32 (w % 2 ^ nbits))).toOption := by
  simp [decodeTableWord, decodeBytes]

/-- With its reserved bits 0 a word is the command. -/
theorem withReservedZero_of_zero {w : Word} {lo : Nat} (h : bitField w 23 lo = 0) (i : Instr) : withReservedZero w lo i = .ok i :=
  if_pos h

/-- With a reserved bit 1 a word is rejected by name. -/
theorem withReservedZero_of_nonzero {w : Word} {lo : Nat} (h : bitField w 23 lo ≠ 0) (i : Instr) :
    withReservedZero w lo i = .error (.reservedBits (opcodeOf w)) :=
  if_neg h

/-- What a word under `withReservedZero` is, when it is a command. -/
theorem withReservedZero_ok {w : Word} {lo : Nat} {i j : Instr} (h : withReservedZero w lo i = .ok j) :
    bitField w 23 lo = 0 ∧ j = i := by
  unfold withReservedZero at h
  split at h
  · exact ⟨‹_›, (Except.ok.inj h).symm⟩
  · cases h

end Sys2Proof
end

