-- ==== Sys2Proof/Laws/Grid.lean ====
section
/-! SUPPORT. What `setGrid` leaves in memory: every module of both maps, packed as 20_memory.md R85 says, and nothing outside them. -/

namespace Sys2Proof.Machine

/-! ### A packed byte -/

theorem packedBits : ∀ b0 b1 b2 b3 b4 b5 b6 b7 : Bool,
    let v := BitVec.ofNat 8 (128 * bitNat b0 + 64 * bitNat b1 + 32 * bitNat b2 + 16 * bitNat b3 + 8 * bitNat b4
      + 4 * bitNat b5 + 2 * bitNat b6 + bitNat b7)
    v.getLsbD 7 = b0 ∧ v.getLsbD 6 = b1 ∧ v.getLsbD 5 = b2 ∧ v.getLsbD 4 = b3 ∧ v.getLsbD 3 = b4 ∧ v.getLsbD 2 = b5
      ∧ v.getLsbD 1 = b6 ∧ v.getLsbD 0 = b7 := by
  decide +kernel

/-- Bit `7 - j` of a packed byte is module `j`. -/
theorem getLsbD_packByte (f : Nat → Bool) (j : Nat) (h : j < 8) : (packByte f).getLsbD (7 - j) = f j := by
  have hb := packedBits (f 0) (f 1) (f 2) (f 3) (f 4) (f 5) (f 6) (f 7)
  unfold packByte
  obtain ⟨h0, h1, h2, h3, h4, h5, h6, h7⟩ := hb
  interval_cases j <;> assumption

theorem packMap_length (f : Nat → Nat → Bool) : (packMap f).length = 8192 := by
  simp [packMap]

theorem packMap_getElem (f : Nat → Nat → Bool) (k : Nat) (h : k < (packMap f).length) :
    (packMap f)[k] = packByte (fun j => f (k / 32) (8 * (k % 32) + j)) := by
  simp [packMap]

/-- The bit of a packed map at a module. -/
theorem bit_of_packMap (f : Nat → Nat → Bool) (r c : Nat) (hc : c < 256)
    (h : 32 * r + c / 8 < (packMap f).length) : ((packMap f)[32 * r + c / 8]).getLsbD (7 - c % 8) = f r c := by
  rw [packMap_getElem, getLsbD_packByte _ _ (by omega)]
  have h1 : (32 * r + c / 8) / 32 = r := by omega
  have h2 : 8 * ((32 * r + c / 8) % 32) + c % 8 = c := by omega
  rw [h1, h2]

/-! ### The two windows -/

theorem lookup_setGrid_grid (s : State) (rows cols : Nat) (grid resv : Nat → Nat → Bool) (r c : Nat) (hr : r < 256) (hc : c < 256) :
    ((s.setGrid rows cols grid resv).mem.lookup (0x4000 + 32 * r + c / 8)).map (fun v => v.getLsbD (7 - c % 8))
      = some (grid r c) := by
  have hk : 32 * r + c / 8 < (packMap grid).length := by rw [packMap_length]; omega
  have hlook : (s.setGrid rows cols grid resv).mem.lookup (0x4000 + (32 * r + c / 8)) = some (packMap grid)[32 * r + c / 8] := by
    show ((s.writeBytes Buffer.grid.base (packMap grid)).writeBytes Buffer.resv.base (packMap resv)).mem.lookup _ = _
    rw [lookup_writeBytes_outside _ _ _ _ (.inl (by simp only [Buffer.base]; omega))]
    exact lookup_writeBytes_inside s 0x4000 (packMap grid) _ hk
  rw [Nat.add_assoc, hlook, Option.map_some, bit_of_packMap grid r c hc]

theorem lookup_setGrid_resv (s : State) (rows cols : Nat) (grid resv : Nat → Nat → Bool) (r c : Nat) (hr : r < 256) (hc : c < 256) :
    ((s.setGrid rows cols grid resv).mem.lookup (0x6000 + 32 * r + c / 8)).map (fun v => v.getLsbD (7 - c % 8))
      = some (resv r c) := by
  have hk : 32 * r + c / 8 < (packMap resv).length := by rw [packMap_length]; omega
  have hlook : (s.setGrid rows cols grid resv).mem.lookup (0x6000 + (32 * r + c / 8)) = some (packMap resv)[32 * r + c / 8] :=
    lookup_writeBytes_inside (s.writeBytes Buffer.grid.base (packMap grid)) 0x6000 (packMap resv) _ hk
  rw [Nat.add_assoc, hlook, Option.map_some, bit_of_packMap resv r c hc]

theorem lookup_setGrid_outside (s : State) (rows cols : Nat) (grid resv : Nat → Nat → Bool) (a : Nat) (h : a < 0x4000 ∨ 0x8000 ≤ a) :
    (s.setGrid rows cols grid resv).mem.lookup a = s.mem.lookup a := by
  show ((s.writeBytes Buffer.grid.base (packMap grid)).writeBytes Buffer.resv.base (packMap resv)).mem.lookup _ = _
  rw [lookup_writeBytes_outside _ _ _ _ (by rw [packMap_length]; simp only [Buffer.base]; omega),
    lookup_writeBytes_outside _ _ _ _ (by rw [packMap_length]; simp only [Buffer.base]; omega)]

/-- The undefined bits after a grid write: none in the two windows, and elsewhere as they were. -/
theorem holes_setGrid (s : State) (rows cols : Nat) (grid resv : Nat → Nat → Bool) (a : Nat) :
    (s.setGrid rows cols grid resv).holes.lookup a = if 0x4000 ≤ a ∧ a < 0x8000 then none else s.holes.lookup a := by
  rw [State.setGrid_holes, holes_writeBytes, holes_writeBytes, packMap_length, packMap_length]
  have hg : Buffer.grid.base = 0x4000 := rfl
  have hr : Buffer.resv.base = 0x6000 := rfl
  by_cases h : 0x4000 ≤ a ∧ a < 0x8000
  · rw [if_pos h]
    by_cases h6 : 0x6000 ≤ a
    · rw [if_pos (by omega)]
    · rw [if_neg (by omega), if_pos (by omega)]
  · rw [if_neg h, if_neg (by omega), if_neg (by omega)]

end Sys2Proof.Machine
end

