-- ==== Sys2Proof/Laws/PerInstr.lean ====
section
/-! SUPPORT. A statement about every command, one lemma a constructor: the word of a well-formed command agrees with the command's row of the
opcode map (30_encoding.md R114). -/

namespace Sys2Proof

/-- Under a mask that clears the low `k` bits, a word is its opcode's word and nothing else, whatever its fields (30_encoding.md R114). -/
theorem commandWord_mask (op imm k : Nat) (hk : k ≤ 24) (himm : imm < 2 ^ k) :
    commandWord op imm &&& BitVec.allOnes 32 <<< k = BitVec.ofNat 32 (op * 2 ^ 24) := by
  refine BitVec.eq_of_getLsbD_eq fun i hi => ?_
  have hop : op * 2 ^ 24 = 2 ^ k * (op * 2 ^ (24 - k)) := by
    rw [Nat.mul_left_comm, ← Nat.pow_add, Nat.add_sub_cancel' hk]
  simp only [commandWord, BitVec.getLsbD_and, BitVec.getLsbD_shiftLeft, BitVec.getLsbD_ofNat, BitVec.getLsbD_allOnes, hop, hi,
    Nat.testBit_two_pow_mul_add _ himm, Nat.testBit_two_pow_mul]
  by_cases h : i < k
  · simp [h, Nat.not_le.mpr h]
  · simp [h, Nat.le_of_not_lt h, show i - k < 32 by omega]

namespace Laws.EncodingRow

/-- The word of a well-formed command has, under the mask of the command's row of the opcode map, the value that row gives
(30_encoding.md R114). -/
def Statement (i : Instr) : Prop := i.wf = true → encode i &&& i.row.mask = i.row.matchWord

theorem nop : Statement .nop := fun _ => by decide

theorem gridClear (rows cols : Nat) : Statement (.gridClear rows cols) := fun h => by
  simp only [Instr.wf, Bool.and_eq_true, decide_eq_true_eq] at h
  exact commandWord_mask 0x01 _ 16 (by omega) (by omega)

theorem bsClear : Statement .bsClear := fun _ => by decide

theorem bsAppend (w : Nat) : Statement (.bsAppend w) := fun h => by
  simp only [Instr.wf, decide_eq_true_eq] at h
  exact commandWord_mask 0x11 w 6 (by omega) (by omega)

theorem bsAppendBytes (count : Nat) : Statement (.bsAppendBytes count) := fun h => by
  simp only [Instr.wf, decide_eq_true_eq] at h
  exact commandWord_mask 0x12 count 13 (by omega) (by omega)

theorem bsPadQr : Statement .bsPadQr := fun _ => by decide

theorem bsToCw : Statement .bsToCw := fun _ => by decide

theorem cwPadDm (t : Nat) : Statement (.cwPadDm t) := fun h => by
  simp only [Instr.wf, decide_eq_true_eq] at h
  exact commandWord_mask 0x15 t 13 (by omega) (by omega)

theorem gfAdd (a b : Byte) : Statement (.gfAdd a b) := fun _ => commandWord_mask 0x20 _ 16 (by omega) (by omega)

theorem gfMul (a b : Byte) : Statement (.gfMul a b) := fun _ => commandWord_mask 0x21 _ 16 (by omega) (by omega)

theorem gfDiv (a b : Byte) : Statement (.gfDiv a b) := fun _ => commandWord_mask 0x22 _ 16 (by omega) (by omega)

theorem gfInv (a : Byte) : Statement (.gfInv a) := fun _ => commandWord_mask 0x23 _ 8 (by omega) (by omega)

theorem gfExp (k : Nat) : Statement (.gfExp k) := fun h => by
  simp only [Instr.wf, decide_eq_true_eq] at h
  exact commandWord_mask 0x24 k 8 (by omega) (by omega)

theorem gfLog (a : Byte) : Statement (.gfLog a) := fun _ => commandWord_mask 0x25 _ 8 (by omega) (by omega)

theorem rsGenpoly (n : Nat) : Statement (.rsGenpoly n) := fun h => by
  simp only [Instr.wf, decide_eq_true_eq] at h
  exact commandWord_mask 0x30 n 8 (by omega) (by omega)

theorem rsEncode (l n : Nat) : Statement (.rsEncode l n) := fun h => by
  simp only [Instr.wf, Bool.and_eq_true, decide_eq_true_eq] at h
  exact commandWord_mask 0x31 _ 21 (by omega) (by omega)

theorem eccDm : Statement .eccDm := fun _ => by decide

theorem eccQr : Statement .eccQr := fun _ => by decide

theorem dmLayout : Statement .dmLayout := fun _ => by decide

theorem qrLayout : Statement .qrLayout := fun _ => by decide

end Laws.EncodingRow

end Sys2Proof
end

