-- ==== Sys2Proof/Laws/Step.lean ====
section
/-! SUPPORT. Everything a step can do, said once (40_control.md R143, 20_memory.md R91): later proofs take a step apart with these lemmas and
unfold neither `step` nor `State.turn`. -/

namespace Sys2Proof.Machine

/-- A step is nothing, when nothing is pending and the host does nothing more, or one turn and the next step number. -/
theorem step_cases {s t : State} (h : step s = .next t) :
    (s.exhausted = true ∧ t = s) ∨ (s.exhausted = false ∧ ∃ u, s.turn = .next u ∧ t = u.advance) := by
  unfold step at h
  split at h
  · exact .inl ⟨‹_›, (Host.Outcome.next.inj h).symm⟩
  · refine .inr ⟨by simpa using ‹¬ s.exhausted = true›, ?_⟩
    cases hu : s.turn with
    | next u => rw [hu] at h; exact ⟨u, rfl, (Host.Outcome.next.inj h).symm⟩
    | fault r => rw [hu] at h; cases h
    | refused r => rw [hu] at h; cases h

/-- The engine's turn: nothing pending and nothing done, or the pending command run, or the pending word rejected. -/
theorem engineTurn_cases {s u : State} (h : s.engineTurn = .next u) :
    (s.pending = none ∧ u = s)
      ∨ ∃ w, s.pending = some w
          ∧ ((∃ i, decode w = .ok i ∧ exec i s = .next u) ∨ ((decode w).toOption = none ∧ u = s.raiseError .illegalCommand)) := by
  unfold State.engineTurn at h
  split at h
  · rename_i w hw
    refine .inr ⟨w, hw, ?_⟩
    unfold State.engineStep at h
    split at h
    · exact .inl ⟨_, ‹_›, h⟩
    · rename_i e he
      exact .inr ⟨by rw [he]; rfl, (Host.Outcome.next.inj h).symm⟩
  · exact .inl ⟨‹_›, (Host.Outcome.next.inj h).symm⟩

/-- A host access goes on exactly when it is inside the window (20_memory.md R81). -/
theorem hostAccess_cases {s u : State} {a : BusAccess} (h : s.hostAccess a = .next u) :
    a.off < Config.winBytes ∧ u = s.access a := by
  unfold State.hostAccess at h
  split at h
  · cases h
  · exact ⟨Nat.lt_of_not_le ‹_›, (Host.Outcome.next.inj h).symm⟩

/-- A turn is a host access, a poll that ends a `WAIT` or makes a check, or the engine's turn in a state that differs in the host's side
only. -/
theorem turn_cases {s u : State} (h : s.turn = .next u) :
    (∃ a rest, s.host = .access a :: rest ∧ a.off < Config.winBytes ∧ u = ({ s with host := rest }).access a)
      ∨ (∃ rest, s.host = .wait :: rest ∧ s.regs.status.busy = false ∧ u = ({ s with host := rest }).poll)
      ∨ (∃ rest, s.host = .check :: rest ∧ u = ({ s with host := if s.regs.status.err then [] else rest }).poll)
      ∨ (∃ rest, (s.host = .engine :: rest ∨ (s.host = [] ∧ rest = [])) ∧ ({ s with host := rest }).engineTurn = .next u)
      ∨ (∃ rest, s.host = .wait :: rest ∧ s.regs.status.busy = true ∧ s.poll.engineTurn = .next u) := by
  unfold State.turn at h
  split at h
  · rename_i hh
    exact .inr (.inr (.inr (.inl ⟨[], .inr ⟨hh, rfl⟩, by rw [← hh]; exact h⟩)))
  · obtain ⟨hoff, hu⟩ := hostAccess_cases h
    exact .inl ⟨_, _, ‹_›, hoff, hu⟩
  · exact .inr (.inr (.inr (.inl ⟨_, .inl ‹_›, h⟩)))
  · split at h
    · exact .inr (.inr (.inr (.inr ⟨_, ‹_›, ‹_›, h⟩)))
    · exact .inr (.inl ⟨_, ‹_›, by simpa using ‹¬ s.regs.status.busy = true›, (Host.Outcome.next.inj h).symm⟩)
  · exact .inr (.inr (.inl ⟨_, ‹_›, (Host.Outcome.next.inj h).symm⟩))

/-- The engine always goes on (60_exceptions.md R385). -/
theorem engineTurn_continues (s : State) : ∃ u, s.engineTurn = .next u := by
  unfold State.engineTurn State.engineStep
  split
  · split
    · exact exec_continues _ s
    · exact ⟨_, rfl⟩
  · exact ⟨s, rfl⟩

/-! ### The end of a run (20_memory.md R99) -/

/-- A host event that is no write to `CMD`. -/
def HostEvent.noCmdWrite : HostEvent → Bool
  | .access a => !a.isCmdWrite
  | .engine => true
  | .wait => true
  | .check => true

/-- With no write to `CMD` in the host list, none is ahead. -/
theorem cmdAhead_false {events : List HostEvent} (h : events.all HostEvent.noCmdWrite = true) (s : State) :
    State.cmdAhead events s = false := by
  induction events generalizing s with
  | nil => rfl
  | cons e events ih =>
    rw [List.all_cons, Bool.and_eq_true] at h
    cases e with
    | access a =>
      rw [State.cmdAhead, ih h.2, Bool.or_false]
      simpa [HostEvent.noCmdWrite] using h.1
    | engine => exact ih h.2 s
    | wait => exact ih h.2 s
    | check => rw [State.cmdAhead, ih h.2, Bool.and_false]

end Sys2Proof.Machine
end

