-- ==== Sys2Proof/Laws/WriteSet.lean ====
section
/-! SUPPORT. The write sets bit by bit (10_state.md R61): which bits of a byte `writesBits` picks. -/

namespace Sys2Proof.Machine

@[simp] theorem getLsbD_wholeByte (b : Bool) (j : Nat) (hj : j < 8) : (wholeByte b).getLsbD j = b := by
  cases b
  · exact BitVec.getLsbD_zero
  · interval_cases j <;> rfl

@[simp] theorem wholeByte_eq_zero (b : Bool) : wholeByte b = 0 ↔ b = false := by
  cases b <;> decide

theorem writesByte_iff (s : State) (off : Nat) (i : Instr) : writesByte s off i = true ↔ writesBits s off i ≠ 0 := bne_iff_ne

theorem bsb_holds (off : Nat) : Buffer.bsb.holds off = true ↔ 0x3000 ≤ off ∧ off < 0x4000 := by
  unfold Buffer.holds
  rw [Bool.and_eq_true, decide_eq_true_eq, decide_eq_true_eq]
  rfl

/-- The write set of an append is the stream bits from `BS_LEN` up to the new length. -/
theorem getLsbD_appendSet (s : State) (last k : Nat) (hk : k < 32768) :
    (s.appendSet last (0x3000 + k / 8)).getLsbD (7 - k % 8) = (decide (s.bsLenNat ≤ k) && decide (k < last)) := by
  have hin : Buffer.bsb.holds (0x3000 + k / 8) = true := (bsb_holds _).mpr (by omega)
  have hbit : 8 * (0x3000 + k / 8 - Buffer.bsb.base) + k % 8 = k := by
    simp only [Buffer.base]
    omega
  rw [State.appendSet, if_pos hin, getLsbD_packByte _ _ (Nat.mod_lt _ (by decide)), hbit]

/-- An append writes no byte outside `BSB`. -/
theorem appendSet_outside (s : State) (last off : Nat) (h : off < 0x3000 ∨ 0x4000 ≤ off) : s.appendSet last off = 0 := by
  have hout : ¬ Buffer.bsb.holds off = true := fun hb => by
    have := (bsb_holds off).mp hb
    omega
  rw [State.appendSet, if_neg hout]

end Sys2Proof.Machine
end

