-- ==== Sys2Proof/Tests/Slice0.lean ====
section
/-! SUPPORT. The model's own tests: ill-formed terms, hand-written words, single steps with the values of the rules' examples and of
95_test_vectors.md, and, for every statement with hypotheses, a concrete case that meets them. -/

namespace Sys2Proof.Tests

open Sys2Proof.Machine Sys2Proof.Claim

-- One theorem at a time: the kernel evaluates each of them.
set_option Elab.async false

/-! ### Small states -/

/-- A state in which a command runs, with some registers and the bytes of some buffers. -/
def running (update : Regs → Regs) (mem : Memory) : State :=
  let s := State.reset.start 0x00000000
  { s with regs := update s.regs, mem := mem }

/-- An engine with the pending word of `w`, and what the host does next. -/
def pendingWith (w : Word) (host : List HostEvent) : State := { State.reset.start w with host := host }

/-- Consecutive bytes from an offset on. -/
def bytesAt (off : Nat) (bytes : List Nat) : Memory := Memory.cellsFrom off (bytes.map (BitVec.ofNat 8))

/-- The state after a command; the state before it if it stops. -/
def after (i : Instr) (s : State) : State :=
  match exec i s with
  | .next t => t
  | .fault _ => s
  | .refused _ => s

/-- The bytes of the window at `off`, those that hold no defined value as `none`. -/
def window (t : State) (off n : Nat) : List (Option Byte) := (List.range n).map (fun k => t.mem.lookup (off + k))

/-- Bytes that all hold a defined value. -/
def defined (bytes : List Nat) : List (Option Byte) := bytes.map (fun b => some (BitVec.ofNat 8 b))

/-! ### Well-formedness (30_encoding.md R111): every field at its width, and one past it -/

theorem test_wf_gridClear_rows : (Instr.gridClear 256 1).wf = false ∧ (Instr.gridClear 255 1).wf = true := by decide
theorem test_wf_gridClear_cols : (Instr.gridClear 1 256).wf = false ∧ (Instr.gridClear 1 255).wf = true := by decide
theorem test_wf_bsAppend : (Instr.bsAppend 64).wf = false ∧ (Instr.bsAppend 63).wf = true := by decide
theorem test_wf_bsAppendBytes : (Instr.bsAppendBytes 8192).wf = false ∧ (Instr.bsAppendBytes 8191).wf = true := by decide
theorem test_wf_cwPadDm : (Instr.cwPadDm 8192).wf = false ∧ (Instr.cwPadDm 8191).wf = true := by decide
theorem test_wf_gfExp : (Instr.gfExp 256).wf = false ∧ (Instr.gfExp 255).wf = true := by decide
theorem test_wf_rsGenpoly : (Instr.rsGenpoly 256).wf = false ∧ (Instr.rsGenpoly 255).wf = true := by decide
theorem test_wf_rsEncode_l : (Instr.rsEncode 8192 1).wf = false ∧ (Instr.rsEncode 8191 1).wf = true := by decide
theorem test_wf_rsEncode_n : (Instr.rsEncode 1 256).wf = false ∧ (Instr.rsEncode 1 255).wf = true := by decide

/-! ### Decoding: words written bit by bit from 30_encoding.md R111 and R114 (opcode, reserved bits, fields) -/

theorem test_decode_nop : decode 0b00000000000000000000000000000000 = .ok .nop := by decide
theorem test_decode_gridClear : decode 0b00000001000000000000101100001010 = .ok (.gridClear 10 11) := by decide
theorem test_decode_bsClear : decode 0b00010000000000000000000000000000 = .ok .bsClear := by decide
theorem test_decode_bsAppend : decode 0b00010001000000000000000000100001 = .ok (.bsAppend 33) := by decide
theorem test_decode_bsAppendBytes : decode 0b00010010000000000001000000000011 = .ok (.bsAppendBytes 4099) := by decide
theorem test_decode_bsPadQr : decode 0b00010011000000000000000000000000 = .ok .bsPadQr := by decide
theorem test_decode_bsToCw : decode 0b00010100000000000000000000000000 = .ok .bsToCw := by decide
theorem test_decode_cwPadDm : decode 0b00010101000000000001000000000101 = .ok (.cwPadDm 4101) := by decide
theorem test_decode_gfAdd : decode 0b00100000000000001100101001010011 = .ok (.gfAdd 0x53 0xCA) := by decide
theorem test_decode_gfMul : decode 0b00100001000000001100101001010011 = .ok (.gfMul 0x53 0xCA) := by decide
theorem test_decode_gfDiv : decode 0b00100010000000001100101001010011 = .ok (.gfDiv 0x53 0xCA) := by decide
theorem test_decode_gfInv : decode 0b00100011000000000000000001010011 = .ok (.gfInv 0x53) := by decide
theorem test_decode_gfExp : decode 0b00100100000000000000000011111110 = .ok (.gfExp 254) := by decide
theorem test_decode_gfLog : decode 0b00100101000000000000000000000011 = .ok (.gfLog 3) := by decide
theorem test_decode_rsGenpoly : decode 0b00110000000000000000000000000101 = .ok (.rsGenpoly 5) := by decide
theorem test_decode_rsEncode : decode 0b00110001000000001010000000000011 = .ok (.rsEncode 3 5) := by decide
theorem test_decode_eccDm : decode 0b00110010000000000000000000000000 = .ok .eccDm := by decide
theorem test_decode_eccQr : decode 0b00110011000000000000000000000000 = .ok .eccQr := by decide
theorem test_decode_dmLayout : decode 0b01000000000000000000000000000000 = .ok .dmLayout := by decide
theorem test_decode_qrLayout : decode 0b01000001000000000000000000000000 = .ok .qrLayout := by decide
theorem test_decode_reserved_opcode : decode 0x02000000 = .error (.reservedOpcode 2) ∧ decode 0xFF000000 = .error (.reservedOpcode 255) := by
  decide
theorem test_decode_reserved_bit : decode 0x11000040 = .error (.reservedBits 0x11) ∧ decode 0x31200000 = .error (.reservedBits 0x31) := by
  decide
theorem test_decodeTableWord : decodeTableWord 32 0x3100A003 = some (.rsEncode 3 5) ∧ decodeTableWord 32 0x02000000 = none := by decide
theorem test_withFetchWord : step (State.reset.withFetchWord 32 0x11000004) = advanceResult (exec (.bsAppend 4) (State.reset.start 0x11000004)) :=
  rfl

/-! ### Single steps -/

/-- 40_control.md R141, the example. -/
theorem test_nop_status : (after .nop State.reset).regs.status.word = 2 := by decide

/-- 40_control.md R142, the example. -/
theorem test_gridClear_dim : (after (.gridClear 10 10) (running id [])).regs.read .gridDim = 0x0A0A := by decide +kernel

/-- 41_bitstream.md R161, the example. -/
theorem test_bsClear : window (after .bsClear (running (fun g => { g with bsLen := 9 }) [])) 0x3000 2 = defined [0, 0]
    ∧ (after .bsClear (running (fun g => { g with bsLen := 9 }) [])).regs.bsLen = 0 := by decide +kernel

/-- 41_bitstream.md R162, the example. -/
theorem test_bsAppend : window (after (.bsAppend 4) (running (fun g => { g with arg0 := 4 }) (bytesAt 0x3000 [0]))) 0x3000 1 = defined [0x40] := by
  decide +kernel

/-- 41_bitstream.md R162: 16 does not fit 4 bits; the check of the width comes first. -/
theorem test_bsAppend_value_range : (after (.bsAppend 4) (running (fun g => { g with arg0 := 16 }) [])).regs.status.errcode = .valueRange
    ∧ (after (.bsAppend 33) (running (fun g => { g with arg0 := 16 }) [])).regs.status.errcode = .argRange := by decide +kernel

/-- 41_bitstream.md R163, the example: twelve bits, then 0x41. -/
theorem test_bsAppendBytes :
    let s := running (fun g => { g with bsLen := 12 }) (bytesAt 0x1000 [0x41] ++ bytesAt 0x3000 [0x40, 0x10, 0])
    window (after (.bsAppendBytes 1) s) 0x3000 3 = defined [0x40, 0x14, 0x10] ∧ (after (.bsAppendBytes 1) s).regs.bsLen = 20 := by
  decide +kernel

/-- 41_bitstream.md R166, the example, in a cleared buffer. -/
theorem test_bsPadQr :
    window (after .bsPadQr (running (fun g => { g with arg0 := 128, bsLen := 20 }) (bytesAt 0x3000 ([0x40, 0x14, 0x10] ++ List.replicate 13 0)))) 0x3000 16
      = defined [0x40, 0x14, 0x10, 0xEC, 0x11, 0xEC, 0x11, 0xEC, 0x11, 0xEC, 0x11, 0xEC, 0x11, 0xEC, 0x11, 0xEC] := by decide +kernel

/-- 41_bitstream.md R168, the example, cut to three bytes. -/
theorem test_bsToCw :
    let t := after .bsToCw (running (fun g => { g with bsLen := 24 }) (bytesAt 0x3000 [0x40, 0x14, 0x10]))
    window t 0x1000 4 = defined [0x40, 0x14, 0x10] ++ [none] ∧ t.regs.cwLen = 3 := by decide +kernel

theorem test_bsToCw_alignment : (after .bsToCw (running (fun g => { g with bsLen := 20 }) [])).regs.status.errcode = .alignment := by decide +kernel

/-- 41_bitstream.md R170, the example. -/
theorem test_cwPadDm :
    window (after (.cwPadDm 3) (running (fun g => { g with cwLen := 1 }) (bytesAt 0x1000 [66]))) 0x1000 3 = defined [66, 129, 70] := by
  decide +kernel

/-- 41_bitstream.md R170: position 28 yields 254, not the reserved 0. -/
theorem test_dmPadValue_28 : dmPadValue 28 = 254 := by decide

/-- 42_gf256.md R200, the example. -/
theorem test_gfAdd : (after (.gfAdd 0x53 0xCA) (running id [])).regs.result = 0x99 := by decide +kernel

/-- 42_gf256.md R201, the example, in both fields. -/
theorem test_gfMul : (after (.gfMul 0x53 0xCA) (running id [])).regs.result = 0x4B
    ∧ (after (.gfMul 0x53 0xCA) (running (fun g => { g with ctrl := ⟨false, .qr⟩ }) [])).regs.result = 0x8F := by decide +kernel

/-- 42_gf256.md R202, the example, in both fields. -/
theorem test_gfDiv : (after (.gfDiv 0x53 0xCA) (running id [])).regs.result = 0xD2
    ∧ (after (.gfDiv 0x53 0xCA) (running (fun g => { g with ctrl := ⟨false, .qr⟩ }) [])).regs.result = 0x6D := by decide +kernel

/-- 42_gf256.md R202: dividing by 0 leaves `RESULT`. -/
theorem test_gfDiv_domain : let t := after (.gfDiv 0x53 0) (running (fun g => { g with result := 7 }) [])
    t.regs.result = 7 ∧ t.regs.status.errcode = .gfDomain := by decide +kernel

/-- 42_gf256.md R203, the example, in both fields. -/
theorem test_gfInv : (after (.gfInv 0x53) (running id [])).regs.result = 0x5F
    ∧ (after (.gfInv 0x53) (running (fun g => { g with ctrl := ⟨false, .qr⟩ }) [])).regs.result = 0x8C := by decide +kernel

/-- 42_gf256.md R204: the example, and `k = 255`. -/
theorem test_gfExp : (after (.gfExp 254) (running id [])).regs.result = 0x96 ∧ (after (.gfExp 255) (running id [])).regs.result = 1 := by
  decide +kernel

/-- 42_gf256.md R205, the example, in both fields. -/
theorem test_gfLog : (after (.gfLog 3) (running id [])).regs.result = 240
    ∧ (after (.gfLog 3) (running (fun g => { g with ctrl := ⟨false, .qr⟩ }) [])).regs.result = 25 := by decide +kernel

theorem test_gfLog_domain : (after (.gfLog 0) (running id [])).regs.status.errcode = .gfDomain := by decide +kernel

/-- 43_reed_solomon.md R221, the example in the Data Matrix field. -/
theorem test_rsGenpoly : window (after (.rsGenpoly 5) (running id [])) 0x100 7 = defined [0xE4, 0x30, 0x0F, 0x6F, 0x3E, 0x01, 0x00] := by
  decide +kernel

/-- 43_reed_solomon.md R221: degree 1 in the QR field. -/
theorem test_rsGenpoly_qr : window (after (.rsGenpoly 1) (running (fun g => { g with ctrl := ⟨false, .qr⟩ }) [])) 0x100 3 = defined [1, 1, 0] := by
  decide +kernel

/-- 43_reed_solomon.md R224, the example. -/
theorem test_rsEncode :
    window (after (.rsEncode 3 5) (running (fun g => { g with arg0 := 0x00010000, arg1 := 0x00010003 }) (bytesAt 0x1000 [142, 164, 186])))
      0x2003 5 = defined [114, 25, 5, 88, 102] := by decide +kernel

/-- 43_reed_solomon.md R226, the example. -/
theorem test_eccDm :
    window (after .eccDm (running (fun g => { g with dmCw := ⟨3, 5⟩, dmBlk := 1, cwLen := 3 }) (bytesAt 0x1000 [142, 164, 186])))
      0x2000 8 = defined [142, 164, 186, 114, 25, 5, 88, 102] := by decide +kernel

/-- 43_reed_solomon.md R225, by hand: the blocks (1, 3) and (2), generator x + 2. -/
theorem test_eccDm_two_blocks :
    window (after .eccDm (running (fun g => { g with dmCw := ⟨3, 2⟩, dmBlk := 2, cwLen := 3 }) (bytesAt 0x1000 [1, 2, 3])))
      0x2000 5 = defined [1, 2, 3, 2, 4] := by decide +kernel

/-- 43_reed_solomon.md R228, by hand: blocks of one and of two codewords, one ECC codeword each, their sum (the root is 1). -/
theorem test_eccQr_two_groups :
    window (after .eccQr (running (fun g => { g with qrBlk := ⟨1, 1, 1, 2⟩, qrEcc := 1, cwLen := 3 }) (bytesAt 0x1000 [7, 1, 2])))
      0x2000 5 = defined [7, 1, 2, 7, 3] := by decide +kernel

/-- 44_layout_dm.md R270, the example: rows 0, 1, 7 and 9 of `GRID`. -/
theorem test_dmLayout :
    let t := after .dmLayout (running (fun g => { g with dmSize := ⟨10, 10⟩, fsLen := 8 })
      (bytesAt 0x2000 [142, 164, 186, 114, 25, 5, 88, 102]))
    window t 0x4000 2 = defined [0xAA, 0x80] ∧ window t 0x4020 2 = defined [0xCB, 0x40] ∧ window t 0x40E0 2 = defined [0xF6, 0x40]
      ∧ window t 0x4120 2 = defined [0xFF, 0xC0] := by decide +kernel

/-- 44_layout_dm.md R270: a size that is no row of the ROM. -/
theorem test_dmLayout_descriptor : (after .dmLayout (running (fun g => { g with dmSize := ⟨10, 12⟩ }) [])).regs.status.errcode = .descriptorInvalid := by
  decide +kernel

/-- 45_layout_qr.md R310, the example: rows 0, 9 and 20 of `GRID`. -/
theorem test_qrLayout :
    let t := after .qrLayout (running (fun g => { g with qrCfg := ⟨1, 0, 0⟩, fsLen := 26 })
      (bytesAt 0x2000 [32, 91, 11, 120, 209, 114, 220, 77, 67, 64, 236, 17, 236, 17, 236, 17, 196, 35, 39, 119, 235, 215, 231, 226, 93, 23]))
    window t 0x4000 3 = defined [0xFE, 0x2B, 0xF8] ∧ window t 0x4120 3 = defined [0x78, 0x90, 0x88]
      ∧ window t 0x4280 3 = defined [0xFE, 0xD7, 0x08] := by decide +kernel

/-- 45_layout_qr.md R310: version 41. -/
theorem test_qrLayout_descriptor : (after .qrLayout (running (fun g => { g with qrCfg := ⟨41, 0, 0⟩ }) [])).regs.status.errcode = .descriptorInvalid := by
  decide +kernel

/-- 48_host_stages.md R345, the worked GS1 cases. -/
theorem test_gs1 : gs1Encode gs1DefaultTable .emitFnc1 [40, 48, 49, 41, 49, 50, 51] = .ok [232, 131, 142, 52, 232] := by decide +kernel

/-- 20_memory.md R99: the run `CMD NOP; WAIT; ACK` ends with `DONE = 1` and `LASTOP = 0`; the acknowledgement comes after its end. -/
theorem test_runEnd :
    (({ State.reset with host := [.access (.write 0x00C .four 0), .wait, .access (.write 0x008 .four 0x0E)] }).runEnd 3).map
        (fun t : State => (t.regs.status.word, t.host.length)) = some (2, 2) := by decide +kernel

/-- 20_memory.md R99: a state is no end while a command runs. -/
theorem test_ended_busy : (pendingWith 0 []).ended = false ∧ State.reset.ended = true := by decide

/-- 48_host_stages.md R353: after GF_INV 0 a checking host stops; its next command is not started. -/
theorem test_check_stops :
    (State.reset.runProgram ((Pseudo.run (.gfInv 0)).checked ++ (Pseudo.run (.rsGenpoly 5)).checked)).map
        (fun t : State => (t.hostError, t.regs.status.lastop, t.symbolModule 0 0)) = some (some .internalConsistencyFault, 0x23, none) := by
  decide +kernel

/-- 70_reset_and_hazards.md R422: a soft reset during BS_APPEND 4 at bit 2 keeps the bits before the cursor and the bits behind the append:
of 0b11001001 the bits 7, 6, 1 and 0. -/
theorem test_softReset_bits :
    let s := running (fun g => { g with bsLen := 2 }) (bytesAt 0x3000 [0b11001001])
    let t := ({ s with pending := some 0x11000004 }).softReset
    t.mem.lookup 0x3000 = some 0b11000001 ∧ t.holes.lookup 0x3000 = some 0b00111100 := by decide +kernel

/-- 48_host_stages.md R340, R350, R355: the job of "123456": 10 x 10, codewords 142 164 186, and reads of the grid to the last. -/
theorem test_dmPipeline :
    (dmPipeline .plain none [49, 50, 51, 52, 53, 54]).toOption.map
        (fun j => (j.size, j.lines.take 4, j.lines.getLast?))
      = some (.dataMatrix 10 10, [.wrb .cwb 0 142, .wrb .cwb 1 164, .wrb .cwb 2 186, .wr .cwLen 3], some (.rdb .grid (32 * 9 + 1))) := by
  decide +kernel

/-- 48_host_stages.md R344: the default policy of a GS1 content without a match is the marker alone. -/
theorem test_gs1_default : dmCodewords .gs1 [104, 105] = .ok [232] ∧ dmCodewords (.gs1 gs1DefaultTable .reject) [104, 105] = .error .unsupportedInput := by
  decide +kernel

/-! ### Witnesses: for every statement with hypotheses, a case that meets them, clause by clause and at the ends of the ranges -/

theorem witness_DecodeOfEncode : (Instr.rsEncode 8191 255).wf = true ∧ (Instr.gridClear 255 0).wf = true := by decide

theorem witness_EncodeOfDecode : decode 0x311FFFFF = .ok (.rsEncode 8191 255) := by decide

theorem witness_OpcodeMapDecidesDecoding :
    decode 0x2100CA53 = .ok (.gfMul 0x53 0xCA) ∧ (∀ row ∈ opcodeTable, (0x02000000 : Word) &&& row.2 ≠ row.1)
      ∧ ∀ row ∈ opcodeTable, (0x11000040 : Word) &&& row.2 ≠ row.1 := by
  have all (w : Word) (h : opcodeTable.all (fun row => decide (w &&& row.2 ≠ row.1)) = true) :
      ∀ row ∈ opcodeTable, w &&& row.2 ≠ row.1 := fun row hr => of_decide_eq_true (List.all_eq_true.mp h row hr)
  exact ⟨by decide, all _ (by decide), all _ (by decide)⟩

theorem witness_StepRunsDecodedCommand :
    (pendingWith 0x11000004 [.wait]).regs.status.busy = true ∧ (pendingWith 0x11000004 [.wait]).host = .wait :: []
      ∧ (pendingWith 0x11000004 [.engine]).pending = some 0x11000004 ∧ (pendingWith 0x11000004 [.engine]).host = .engine :: []
      ∧ (pendingWith 0x11000004 []).host = [] ∧ decode 0x11000004 = .ok (.bsAppend 4)
      ∧ decodeTableWord 32 0x11000004 = some (.bsAppend 4) := by decide

theorem witness_StepOnIllegalWord :
    (pendingWith 0x02000000 [.engine]).pending = some 0x02000000 ∧ (pendingWith 0x02000000 [.engine]).host = .engine :: []
      ∧ (pendingWith 0x02000000 []).host = [] ∧ (pendingWith 0x02000000 [.wait]).regs.status.busy = true
      ∧ (pendingWith 0x02000000 [.wait]).host = .wait :: [] ∧ (decode 0x02000000).toOption = none := by decide

theorem witness_StepMakesHostAccess :
    ({ State.reset with host := [.access (.read 0x7FFF .one)] }).host = .access (.read 0x7FFF .one) :: []
      ∧ (BusAccess.read 0x7FFF .one).off < 0x8000 ∧ 0x8000 ≤ (BusAccess.read 0x8000 .one).off
      ∧ ({ State.reset with host := [.check, .wait] }).host = .check :: [.wait]
      ∧ ({ State.reset with host := [.engine] }).host = .engine :: []
      ∧ State.reset.pending = none ∧ State.reset.host = [] := by decide

theorem witness_WaitEnds :
    ({ State.reset with host := [.wait] }).Inv ∧ ({ State.reset with host := [.wait] }).regs.status.busy = false
      ∧ (pendingWith 0x11000004 [.wait]).Inv ∧ (pendingWith 0x11000004 [.wait]).regs.status.busy = true
      ∧ (pendingWith 0x11000004 [.wait]).host = .wait :: [] :=
  ⟨by decide, by decide, by decide, by decide, by decide⟩

/-- A run of one command and the acknowledgement behind it; and a host that only reads. -/
theorem witness_WaitEnds_run :
    ({ State.reset with host := [.access (.write 0x00C .four 0), .wait, .access (.write 0x008 .four 0x0E)] }).Inv
      ∧ State.reset.regs.status.busy = false
      ∧ (∀ e ∈ [HostEvent.access (.write 0x008 .four 0x0E)], NoCommandWrite e)
      ∧ Idle State.reset ∧ ∀ e ∈ State.reset.host, NoCommandWrite e :=
  ⟨by decide, by decide, by simp [NoCommandWrite], by decide, by simp⟩

theorem witness_StepKeepsInvariant :
    (pendingWith 0x00000000 [.engine]).Inv ∧ ∃ t, step (pendingWith 0x00000000 [.engine]) = .next t :=
  ⟨by decide, _, rfl⟩

theorem witness_StepNeverStops : ({ State.reset with host := [.access (.write 0x7FFF .one 1), .engine, .wait] }).HostInWindow := by decide

theorem witness_CanonicalMemoryIsItsBytes :
    Memory.wf [(0x1000, 1), (0x1FFF, 2)] = true ∧ Memory.wf (Memory.splice [(0x1FFF, 2)] 0x1000 [1]) = true
      ∧ ∀ off, Memory.lookup [(0x1000, 1), (0x1FFF, 2)] off = Memory.lookup (Memory.splice [(0x1FFF, 2)] 0x1000 [1]) off :=
  ⟨by decide, by decide, fun _ => rfl⟩

theorem witness_DoneRisesOnlyAtCompletion :
    ∃ t, step (pendingWith 0x00000000 [.engine]) = .next t ∧ (pendingWith 0x00000000 [.engine]).regs.status.done = false
      ∧ t.regs.status.done = true := ⟨_, rfl, by decide, by decide⟩

theorem witness_CommandsStayInWriteSet :
    (Instr.bsToCw).wf = true ∧ (running (fun g => { g with bsLen := 32768 }) []).regs.bsLen.toNat ≤ 32768
      ∧ (∃ t, exec .bsToCw (running (fun g => { g with bsLen := 32767 }) []) = .next t ∧ t.regs.status.err = true)
      ∧ writesByte (running (fun g => { g with bsLen := 32768 }) []) 0x2000 .bsToCw = false ∧ writesReg .bsLen .bsToCw = false :=
  ⟨by decide, by decide, ⟨_, rfl, by decide +kernel⟩, by decide +kernel, by decide⟩

/-- At the two ends of an append's write set: the last bit before the cursor, the first new bit, the last one, and the one behind it. -/
theorem witness_CommandsStayInWriteSet_append :
    let s := running (fun g => { g with bsLen := 11 }) []
    AppendsUpTo s (.bsAppend 4) 15 ∧ AppendsUpTo s (.bsAppendBytes 1) 19 ∧ AppendsUpTo s .bsPadQr 0
      ∧ [10, 11, 14, 15].map (fun k => (writesBits s (0x3000 + k / 8) (.bsAppend 4)).getLsbD (7 - k % 8)) = [false, true, true, false]
      ∧ ¬ inBsb 0x2FFF :=
  ⟨.inl ⟨4, rfl, rfl⟩, .inr (.inl ⟨1, rfl, rfl⟩), .inr (.inr ⟨rfl, rfl⟩), by decide +kernel, by decide⟩

theorem witness_CommandStart :
    State.reset.regs.status.busy = false ∧ (pendingWith 0x00000000 []).regs.status.busy = true := by decide

/-- The accepted words of every `Encoded` clause: the opcode, and the reserved bits from `lo` on 0. -/
theorem witness_Encoded_accepted :
    ∀ p ∈ ([(0x00000000, 0x00, 0), (0x0100FFFF, 0x01, 16), (0x10000000, 0x10, 0), (0x1100003F, 0x11, 6), (0x12001FFF, 0x12, 13)]
        ++ [(0x13000000, 0x13, 0), (0x14000000, 0x14, 0), (0x15001FFF, 0x15, 13), (0x2000FFFF, 0x20, 16), (0x2100FFFF, 0x21, 16)]
        ++ [(0x2200FFFF, 0x22, 16), (0x230000FF, 0x23, 8), (0x240000FF, 0x24, 8), (0x250000FF, 0x25, 8), (0x300000FF, 0x30, 8)]
        ++ [(0x311FFFFF, 0x31, 21), (0x32000000, 0x32, 0), (0x33000000, 0x33, 0), (0x40000000, 0x40, 0), (0x41000000, 0x41, 0)]
        : List (Word × Nat × Nat)), field p.1 24 8 = p.2.1 ∧ field p.1 p.2.2 (24 - p.2.2) = 0 := by decide

/-- The rejected words of every `Encoded` clause: the lowest reserved bit 1. -/
theorem witness_Encoded_rejected :
    ∀ p ∈ ([(0x00000001, 0x00, 0), (0x01010000, 0x01, 16), (0x10000001, 0x10, 0), (0x11000040, 0x11, 6), (0x12002000, 0x12, 13)]
        ++ [(0x13000001, 0x13, 0), (0x14000001, 0x14, 0), (0x15002000, 0x15, 13), (0x20010000, 0x20, 16), (0x21010000, 0x21, 16)]
        ++ [(0x22010000, 0x22, 16), (0x23000100, 0x23, 8), (0x24000100, 0x24, 8), (0x25000100, 0x25, 8), (0x30000100, 0x30, 8)]
        ++ [(0x31200000, 0x31, 21), (0x32000001, 0x32, 0), (0x33000001, 0x33, 0), (0x40000001, 0x40, 0), (0x41000001, 0x41, 0)]
        : List (Word × Nat × Nat)), field p.1 24 8 = p.2.1 ∧ field p.1 p.2.2 (24 - p.2.2) ≠ 0 := by decide

theorem witness_GridClearClearsEveryModule :
    ((0 : Nat) < 256 ∧ (255 : Nat) < 256 ∧ ((0 : Nat) = 0 ∨ (255 : Nat) = 0)) ∧ ¬ ((255 : Nat) = 0 ∨ (1 : Nat) = 0) := by decide

/-- The causes of BS_APPEND in turn, and no cause, for a width, a value and a length. -/
theorem witness_BsAppendAppendsValue :
    ((33 : Nat) < 64 ∧ ((33 : Nat) = 0 ∨ 32 < (33 : Nat)))
      ∧ (¬ ((31 : Nat) = 0 ∨ 32 < (31 : Nat)) ∧ (31 : Nat) < 32 ∧ 2 ^ 31 ≤ (0x80000000 : Word).toNat)
      ∧ (¬ ((32 : Nat) = 0 ∨ 32 < (32 : Nat)) ∧ ¬ ((32 : Nat) < 32 ∧ 2 ^ 32 ≤ (0xFFFFFFFF : Word).toNat)
          ∧ 32768 < (32737 : BitVec 16).toNat + 32)
      ∧ (¬ ((1 : Nat) = 0 ∨ 32 < (1 : Nat)) ∧ ¬ ((1 : Nat) < 32 ∧ 2 ^ 1 ≤ (1 : Word).toNat) ∧ ¬ 32768 < (32767 : BitVec 16).toNat + 1) := by
  decide

theorem witness_BsAppendBytesAppendsBytes :
    ((8191 : Nat) < 8192 ∧ 4096 < (0 : Word).toNat + 8191) ∧ (¬ 4096 < (4095 : Word).toNat + 1 ∧ 32768 < (32761 : BitVec 16).toNat + 8 * 1)
      ∧ (¬ 4096 < (4096 : Word).toNat + 0 ∧ ¬ 32768 < (32768 : BitVec 16).toNat + 8 * 0)
      ∧ (¬ 4096 < (4095 : Word).toNat + 1 ∧ ¬ 32768 < (32760 : BitVec 16).toNat + 8 * 1) := by decide

theorem witness_AppendByteIsAppendEightBits : (4095 : Nat) < 4096 := by decide

theorem witness_BsPadQrFillsToCapacity :
    ((32776 : Word).toNat % 8 ≠ 0 ∨ 32768 < (32776 : Word).toNat)
      ∧ (¬ ((8 : Word).toNat % 8 ≠ 0 ∨ 32768 < (8 : Word).toNat) ∧ (8 : Word).toNat < (9 : BitVec 16).toNat)
      ∧ (¬ ((32768 : Word).toNat % 8 ≠ 0 ∨ 32768 < (32768 : Word).toNat) ∧ ¬ (32768 : Word).toNat < (32768 : BitVec 16).toNat) := by decide

theorem witness_BsToCwCopiesStream : (32767 : BitVec 16).toNat % 8 ≠ 0 ∧ ¬ (32768 : BitVec 16).toNat % 8 ≠ 0 := by decide

theorem witness_CwPadDmFillsToTarget :
    ((4097 : Nat) < 8192 ∧ 4096 < (4097 : Nat)) ∧ (¬ 4096 < (4095 : Nat) ∧ (4095 : Nat) < (4096 : BitVec 13).toNat)
      ∧ (¬ 4096 < (4096 : Nat) ∧ ¬ (4096 : Nat) < (4096 : BitVec 13).toNat) ∧ (¬ 4096 < (4096 : Nat) ∧ ¬ (4096 : Nat) < (0 : BitVec 13).toNat) := by
  decide

theorem witness_GfDivInvLogWriteResult : ((0 : Byte) = 0) ∧ ¬ ((1 : Byte) = 0) ∧ ¬ ((255 : Byte) = 0) := by decide

theorem witness_FieldSelection :
    (Instr.gfAdd 1 2 = .eccDm ∨ Instr.gfAdd 1 2 = .eccQr ∨ ∃ a b, Instr.gfAdd 1 2 = .gfAdd a b) ∧ (1 : Byte) ≠ 0
      ∧ (0 : Nat) < 255 ∧ (255 : Nat) < 256 ∧ (8191 : Nat) < 8192 := ⟨.inr (.inr ⟨1, 2, rfl⟩), by decide⟩

theorem witness_GfPowersOfAlpha : (0 : Nat) < 255 ∧ (254 : Nat) < 255 ∧ (1 : Byte) ≠ 0 ∧ (255 : Byte) ≠ 0 := by decide

theorem witness_GfMulIsPolynomialProduct : (1 : Byte) ≠ 0 ∧ (255 : Byte) ≠ 0 ∧ ((0 : Byte) = 0 ∨ (255 : Byte) = 0) := by decide

theorem witness_GfFieldLaws : (1 : Byte) ≠ 0 ∧ (255 : Byte) ≠ 0 := by decide

theorem witness_EccIsRemainder : (0 : Nat) < 1 ∧ (254 : Nat) < 255 := by decide

theorem witness_SyndromesAreZero : (0 : Nat) < 255 ∧ (255 : Nat) < 256 ∧ (254 : Nat) < 255 ∧ ∀ c ∈ ([0, 0] : List Byte), c = 0 := by decide

theorem witness_RsGenpolyWritesGenerator : (255 : Nat) < 256 ∧ ((0 : Nat) = 0) ∧ ¬ ((255 : Nat) = 0) := by decide

/-- A strided block that ends at the last index of both buffers meets no cause; one index further, the last cause holds. -/
theorem witness_RsEncodeWritesStridedEcc :
    ((4096 : Nat) < 8192 ∧ (255 : Nat) < 256)
      ∧ (field 0x00010000 13 3 = 0 ∧ field 0x00010000 24 8 = 0 ∧ field 0x00010000 0 13 = 0 ∧ field 0x00010000 16 8 = 1
          ∧ ¬ (0 < (4096 : Nat) ∧ 4095 < field 0x00010000 0 13 + (4096 - 1) * field 0x00010000 16 8))
      ∧ (field 0x00010F01 13 3 = 0 ∧ field 0x00010F01 24 8 = 0 ∧ ¬ 4095 < field 0x00010F01 0 13 + (255 - 1) * field 0x00010F01 16 8)
      ∧ 4095 < field 0x00010F02 0 13 + (255 - 1) * field 0x00010F02 16 8 := by decide

/-- The causes of ECC_DM in turn (D, E, B, CW_LEN), and no cause. -/
theorem witness_EccDmBuildsFinalStream :
    ∀ p ∈ ([(0, 5, 1, 0, 0), (4095, 2, 1, 0, 1), (4, 5, 2, 4, 2), (2, 256, 1, 2, 3), (2, 3, 3, 2, 4), (3, 5, 1, 4, 5), (4095, 1, 1, 4095, 6)]
        : List (Nat × Nat × Nat × Nat × Nat)),
      let causes := [decide (p.2.2.1 = 0 ∨ p.2.1 = 0 ∨ p.1 = 0), decide (4096 < p.1 + p.2.1), decide (p.2.1 % p.2.2.1 ≠ 0),
        decide (255 < p.2.1 / p.2.2.1), decide (p.1 < p.2.2.1), decide (p.2.2.2.1 ≠ p.1)]
      p.1 < 4096 ∧ p.2.1 < 4096 ∧ p.2.2.1 < 256 ∧ causes.idxOf true = p.2.2.2.2 := by decide

/-- The causes of ECC_QR in turn (G1C, G1D, G2C, G2D, ECCPB, CW_LEN), and no cause. -/
theorem witness_EccQrBuildsFinalStream :
    ∀ p ∈ ([([0, 9, 0, 9, 1, 0], 0), ([1, 0, 0, 0, 1, 0], 1), ([1, 1, 1, 1, 0, 2], 2), ([255, 16, 0, 0, 1, 4080], 3), ([1, 2, 1, 1, 1, 2], 4),
        ([1, 2, 1, 1, 255, 3], 5)] : List (List Nat × Nat)),
      let g (k : Nat) : Nat := p.1.getD k 0
      let d := g 0 * g 1 + g 2 * g 3
      let causes := [decide (g 0 + g 2 = 0), decide ((0 < g 0 ∧ g 1 = 0) ∨ (0 < g 2 ∧ g 3 = 0)), decide (g 4 = 0),
        decide (4096 < d + (g 0 + g 2) * g 4), decide (g 5 ≠ d)]
      (∀ k, k < 5 → g k < 256) ∧ causes.idxOf true = p.2 := by decide

theorem witness_RsEncodeBuildsEveryBlock_dm :
    let s := running (fun g => { g with dmCw := ⟨3, 2⟩, dmBlk := 2, cwLen := 3 }) (bytesAt 0x1000 [1, 2, 3])
    (1 < s.regs.dmBlk.toNat ∧ s.regs.dmCw.e.toNat ≠ 0 ∧ s.regs.dmCw.d.toNat + s.regs.dmCw.e.toNat ≤ 4096
        ∧ s.regs.dmCw.e.toNat % s.regs.dmBlk.toNat = 0 ∧ s.regs.dmCw.e.toNat / s.regs.dmBlk.toNat ≤ 255)
      ∧ (s.regs.dmBlk.toNat ≤ s.regs.dmCw.d.toNat ∧ s.regs.cwLen.toNat = s.regs.dmCw.d.toNat)
      ∧ ∀ k, k < 3 → ∃ v, Holds s (0x1000 + k) v :=
  ⟨by decide, by decide, fun k hk => ⟨([1, 2, 3] : List Byte).getD k 0, by interval_cases k <;> decide, by interval_cases k <;> decide⟩⟩

theorem witness_RsEncodeBuildsEveryBlock_qr :
    let s := running (fun g => { g with qrBlk := ⟨0, 0, 1, 2⟩, qrEcc := 255, cwLen := 2 }) (bytesAt 0x1000 [7, 8])
    (s.regs.qrBlk.g1c.toNat + s.regs.qrBlk.g2c.toNat = 1 ∧ qrLen s.regs.qrBlk 0 = 2 ∧ s.regs.qrEcc.toNat ≠ 0)
      ∧ s.regs.cwLen.toNat = qrLen s.regs.qrBlk 0 ∧ ∀ k, k < 2 → ∃ v, Holds s (0x1000 + k) v :=
  ⟨by decide, by decide, fun k hk => ⟨([7, 8] : List Byte).getD k 0, by interval_cases k <;> decide, by interval_cases k <;> decide⟩⟩

theorem witness_GeneratorSideEffect :
    (255 : Nat) < 256 ∧ GField.dm = (running id []).regs.ctrl.field ∧ (Instr.rsGenpoly 255 = .rsGenpoly 255 ∨ ∃ l, Instr.rsGenpoly 255 = .rsEncode l 255) :=
  ⟨by decide, by decide, .inl rfl⟩

theorem witness_SweepFillsMatrix : (⟨12, 12, 1, 1, 12⟩ : DmGeometry) ∈ dmRom ∧ dmCornered ⟨12, 12, 1, 1, 12⟩ := by decide

theorem witness_DmLayoutBuildsSymbol :
    (∀ g ∈ dmRom, ¬ (g.rows = (10 : Byte).toNat ∧ g.cols = (12 : Byte).toNat))
      ∧ (⟨144, 144, 6, 6, 2178⟩ : DmGeometry) ∈ dmRom ∧ (144 : Nat) = (144 : Byte).toNat
      ∧ (2177 : BitVec 13).toNat ≠ 2178 ∧ ¬ (2178 : BitVec 13).toNat ≠ 2178 := by decide

/-- For each clause of the function modules a module that meets it. -/
theorem witness_QrFunctionModules_finder : (3, 3) ∈ finderCentres 21 ∧ AtDistance 4 7 7 3 3 ∧ AtDistance 0 3 3 3 3 := by decide

theorem witness_QrFunctionModules_alignment :
    AlignmentCentre (qrAlignPositions 7) 6 22 ∧ AtDistance 2 4 24 6 22 ∧ ¬ AlignmentCentre (qrAlignPositions 7) 6 38 :=
  ⟨by decide, by decide, by decide⟩

theorem witness_QrFunctionModules_timing :
    (∀ p ∈ finderCentres 45, ¬ Near 4 6 8 p.1 p.2) ∧ ∀ p ∈ finderCentres 45, ¬ Near 4 36 6 p.1 p.2 := ⟨by decide, by decide⟩

theorem witness_QrFunctionModules_format :
    (8, 0) ∈ formatPlaces 45 14 ∧ (44, 8) ∈ formatPlaces 45 14 ∧ ((37 : Nat), (8 : Nat)) = (45 - 8, 8)
      ∧ (5, 36) ∈ versionPlaces 45 17 ∧ (36, 5) ∈ versionPlaces 45 17 := by decide

theorem witness_QrFunctionModules_data :
    (∀ p ∈ finderCentres 21, ¬ Near 4 20 20 p.1 p.2) ∧ (∀ r0 c0, AlignmentCentre (qrAlignPositions 1) r0 c0 → ¬ Near 2 20 20 r0 c0)
      ∧ (∀ k, k < 15 → (20, 20) ∉ formatPlaces 21 k) ∧ ((20 : Nat), (20 : Nat)) ≠ (21 - 8, 8) :=
  ⟨by decide, fun _ _ h => absurd h.1 (List.not_mem_nil), by decide, by decide⟩

theorem witness_QrPlacementOrder : (1 : Nat) ≤ 1 ∧ (1 : Nat) ≤ 40 ∧ (1 : Nat) ≤ 40 ∧ (40 : Nat) ≤ 40 := by decide

theorem witness_QrDataModuleCount : (1 : Nat) ≤ 1 ∧ (1 : Nat) ≤ 40 ∧ (1 : Nat) ≤ 40 ∧ (40 : Nat) ≤ 40 := by decide

/-- The causes of QR_LAYOUT in turn (VERSION, FS_LEN), and no cause. -/
theorem witness_QrLayoutBuildsSymbol :
    ((0 : Nat) = 0 ∨ 40 < (0 : Nat)) ∧ ((41 : Nat) = 0 ∨ 40 < (41 : Nat))
      ∧ (¬ ((1 : Nat) = 0 ∨ 40 < (1 : Nat)) ∧ (qrModules 1 < 8 * 27 ∨ 7 < qrModules 1 - 8 * 27))
      ∧ (qrModules 1 < 8 * 25 ∨ 7 < qrModules 1 - 8 * 25)
      ∧ ¬ (qrModules 1 < 8 * 26 ∨ 7 < qrModules 1 - 8 * 26) ∧ ¬ (qrModules 2 < 8 * 44 ∨ 7 < qrModules 2 - 8 * 44) := by decide

theorem witness_BusErrors :
    (badAccess 0x048 .four ∧ badAccess 0x0FFF .one ∧ badAccess 0x1001 .two ∧ badAccess 0x044 .two)
      ∧ ¬ badAccess 0x044 .four ∧ ¬ badAccess 0x7FFF .one ∧ ¬ badAccess 0x0100 .four ∧ (0x7FFF : Nat) < 0x8000 :=
  ⟨⟨by decide, by decide, by decide, by decide⟩, by decide, by decide, by decide, by decide⟩

theorem witness_WiderReadsAreBytes : mapped 0x7FFC ∧ 0x48 ≤ 0x7FFC ∧ 0x7FFC % 4 = 0 ∧ mapped 0x01FE ∧ 0x01FE % 2 = 0 := by decide

theorem witness_BufferWriteThenRead :
    Idle State.reset ∧ inWritable 0x1000 ∧ 0x1000 % Width.four.bytes = 0 ∧ inWritable 0x3FFF ∧ 0x3FFF % Width.one.bytes = 0 := by decide

theorem witness_ReadOnlyIgnoresWrites :
    State.reset.regs.status.busy = false ∧ (0x02C ∈ [0x000, 0x018, 0x01C, 0x028, 0x02C]) ∧ inGen 0x01FF ∧ inGridOrResv 0x7FFC
      ∧ 0x7FFC % Width.four.bytes = 0 ∧ (0 : Word).getLsbD 2 = false := by decide

theorem witness_StoredRegisterWriteThenRead : Idle State.reset ∧ (0x03C, 0x0000733F) ∈ storedRegisters := by decide

theorem witness_CtrlWrites :
    (0xFFFFFFFD : Word).getLsbD 1 = false ∧ (2 : Word).getLsbD 1 = true ∧ ∃ t, exec .nop State.reset = .next t := ⟨by decide, by decide, _, rfl⟩

theorem witness_StatusReadAndAcknowledge : (0x0000000E : Word).getLsbD 1 = true ∧ (0x0000000E : Word).getLsbD 2 = true := by decide

theorem witness_BusyWritesAreDropped :
    (pendingWith 0x00000000 []).regs.status.busy = true ∧ (pendingWith 0x00000000 []).regs.status.Consistent
      ∧ ¬ badAccess 0x00C .four ∧ ¬ badAccess 0x7FFC .four ∧ badAccess 0x048 .four := by decide

theorem witness_SoftReset :
    (2 : Word).getLsbD 1 = true ∧ NoCommand State.reset ∧ NoCommand (pendingWith 0x02000000 [])
      ∧ (pendingWith 0x11000004 []).pending = some 0x11000004 ∧ decode 0x11000004 = .ok (.bsAppend 4) :=
  ⟨by decide, fun _ h => by simp at h, fun w h => by cases h; decide, by decide, by decide⟩

/-- A running BS_APPEND of 4 bits at bit 2: bits 5 to 2 of the first byte are in its write set, the others and the next byte are not. -/
theorem witness_SoftReset_bits :
    let s := running (fun g => { g with bsLen := 2 }) (bytesAt 0x3000 [0xC0, 0xFF])
    writesBits s 0x3000 (.bsAppend 4) = 0x3C ∧ writesBits s 0x3001 (.bsAppend 4) = 0 ∧ Holds s 0x3001 0xFF := by decide +kernel

theorem witness_ResetValues : (0x044 : Nat) < 0x48 ∧ 0x044 % 4 = 0 ∧ (0x044 : Nat) ≠ 0 := by decide

theorem witness_CommandsAfterReset : { (State.reset.start 0x32000000).regs with status := Regs.reset.status } = Regs.reset := by decide

theorem witness_ReadsWhileBusy :
    (pendingWith 0x10000000 []).pending = some 0x10000000 ∧ decode 0x10000000 = .ok .bsClear ∧ writesReg .cwLen .bsClear = false
      ∧ mapped 0x4000 ∧ 0x48 ≤ 0x4000 ∧ writesByte (pendingWith 0x10000000 []) 0x4000 .bsClear = false := by decide

theorem witness_ReadsWhileBusy_idle :
    NoCommand State.reset ∧ (0x02C, 0) ∈ registerView Regs.reset ∧ mapped 0x7FFC ∧ mapped 0x01FF ∧ 0x7FFC % Width.four.bytes = 0
      ∧ Holds { State.reset with mem := bytesAt 0x7FFF [0x5A] } 0x7FFF 0x5A :=
  ⟨fun _ h => by simp at h, by decide, by decide, by decide, by decide, by decide⟩

end Sys2Proof.Tests
end

section
/-! O12: a canonical memory is determined by its reads (10_state.md R58). -/

namespace Sys2Proof.Machine.Memory

/-- Below the lower bound of a rising list nothing is listed. -/
theorem lookup_eq_none_of_lt {lo : Nat} {m : Memory} (h : risingFrom lo m = true) {a : Nat} (ha : a < lo) :
    m.lookup a = none := by
  cases hl : m.lookup a with
  | none => rfl
  | some b =>
    have : lo ≤ a := risingFrom_le h _ (mem_of_lookup hl)
    omega

/-- If two rising lists read the same, the first of one starts no earlier than the first of the other. -/
theorem head_le_of_lookup_eq {lo k k' : Nat} {b b' : Byte} {m m' : Memory} (h : risingFrom lo ((k', b') :: m') = true)
    (heq : ∀ a, lookup ((k, b) :: m) a = lookup ((k', b') :: m') a) : k' ≤ k := by
  have hhead : risingFrom k' ((k', b') :: m') = true := by simp_all [risingFrom]
  by_contra hlt
  have := heq k
  rw [lookup_eq_none_of_lt hhead (by omega), lookup_cons, if_pos rfl] at this
  cases this

/-- Rising lists that read the same everywhere are the same list. -/
theorem eq_of_lookup_eq {lo : Nat} {m m' : Memory} (h : risingFrom lo m = true) (h' : risingFrom lo m' = true)
    (heq : ∀ a, m.lookup a = m'.lookup a) : m = m' := by
  induction m generalizing lo m' with
  | nil =>
    cases m' with
    | nil => rfl
    | cons c' m' => simpa [lookup] using heq c'.1
  | cons c m ih =>
    cases m' with
    | nil => simpa [lookup] using heq c.1
    | cons c' m' =>
      obtain ⟨k, b⟩ := c
      obtain ⟨k', b'⟩ := c'
      obtain rfl : k = k' := Nat.le_antisymm (head_le_of_lookup_eq h fun a => (heq a).symm) (head_le_of_lookup_eq h' heq)
      simp only [risingFrom, Bool.and_eq_true] at h h'
      have hb : b = b' := by simpa [lookup_cons] using heq k
      have htail : ∀ a, lookup m a = lookup m' a := by
        intro a
        by_cases ha : k = a
        · rw [lookup_eq_none_of_lt h.2 (by omega), lookup_eq_none_of_lt h'.2 (by omega)]
        · simpa [lookup_cons, ha] using heq a
      rw [hb, ih h.2 h'.2 htail]

end Sys2Proof.Machine.Memory

namespace Sys2Proof.Proofs

open Sys2Proof.Machine

/-- Settles O12: two rising lists with the same reads have the same head, and their tails read the same. -/
theorem canonicalMemoryIsItsBytes : Obligations.CanonicalMemoryIsItsBytes := fun m m' h h' heq =>
  Memory.eq_of_lookup_eq ((Memory.wf_iff m).mp h).1 ((Memory.wf_iff m').mp h').1 heq

end Sys2Proof.Proofs
end

section
/-! The host's access to a register (20_memory.md R80 to R88), said once for every register, and from it O53 to O55. -/

namespace Sys2Proof.Machine

/-! ### An access at a register's offset -/

@[simp] theorem regAt_offset (r : Reg) : regAt r.offset = some r := by cases r <;> rfl

@[simp] theorem busError_offset (r : Reg) : busError r.offset .four = false := by cases r <;> rfl

theorem offset_lt_winBytes (r : Reg) : r.offset < Config.winBytes := by cases r <;> decide

/-- Every aligned offset below 0x48 is a register's (10_state.md R30). -/
theorem exists_offset_eq {off : Nat} (hlt : off < 0x48) (hal : off % 4 = 0) : ∃ r : Reg, r.offset = off := by
  have h : ∀ k, k < 18 → ∃ r ∈ allRegs, r.offset = 4 * k := by decide
  obtain ⟨r, -, hr⟩ := h (off / 4) (by omega)
  exact ⟨r, by omega⟩

/-- A 32-bit read at a register's offset gives the register. -/
theorem busRead_offset (s : State) (r : Reg) : s.busRead r.offset .four = ⟨false, s.hostReg r⟩ := by
  simp [State.busRead]

/-- A register outside the running command's write set reads as it is (70_reset_and_hazards.md R432). -/
theorem hostReg_of_settled {s : State} {r : Reg} (h : s.unsettledReg r = false) : s.hostReg r = s.regs.read r := by
  simp [State.hostReg, h]

/-- With nothing pending every register reads as it is. -/
theorem busRead_offset_idle {s : State} (h : s.pending = none) (r : Reg) :
    s.busRead r.offset .four = ⟨false, s.regs.read r⟩ := by
  rw [busRead_offset, hostReg_of_settled]
  simp [State.unsettledReg, State.running, h]

/-- What a 32-bit write to a register leaves, apart from the response (70_reset_and_hazards.md R430). -/
def State.writeReg (s : State) (r : Reg) (v : Word) : State :=
  if s.regs.status.busy then s.writeRegBusy r v else s.writeRegIdle r v

theorem hostAccess_write_offset (s : State) (r : Reg) (v : Word) :
    s.hostAccess (.write r.offset .four v) = .next { s.writeReg r v with resp := some ⟨false, 0⟩ } := by
  have hwin : ¬ Config.winBytes ≤ r.offset := Nat.not_le.mpr (offset_lt_winBytes r)
  simp [State.hostAccess, BusAccess.off, hwin, State.access, State.busWrite, State.writeReg]

@[simp] theorem writeReg_ctrl (s : State) (v : Word) : s.writeReg .ctrl v = s.writeCtrl v := ite_self _

@[simp] theorem writeReg_status (s : State) (v : Word) : s.writeReg .status v = s.acknowledge v := ite_self _

/-! ### Registers that no command writes -/

/-- The registers a command may write, `STATUS` apart (10_state.md R61). -/
def commandOutputs : List Reg := [.result, .bsLen, .cwLen, .fsLen, .genDeg, .gridDim]

theorem writesReg_eq_false {r : Reg} (h : r ∉ commandOutputs) (i : Instr) : writesReg r i = false := by
  simp only [commandOutputs, List.mem_cons, List.not_mem_nil, or_false, not_or] at h
  cases i <;> simp [writesReg, h]

/-- What no command writes reads as it is, whatever runs. -/
theorem busRead_offset_of_not_output (s : State) {r : Reg} (h : r ∉ commandOutputs) :
    s.busRead r.offset .four = ⟨false, s.regs.read r⟩ := by
  rw [busRead_offset, hostReg_of_settled]
  cases hr : s.running <;> simp [State.unsettledReg, hr, writesReg_eq_false h]

/-! ### The bits of `STATUS` (10_state.md R33) -/

theorem bitNat_le_one (b : Bool) : bitNat b ≤ 1 := by cases b <;> decide

theorem getLsbD_eq_of_bitNat {w : Word} {i : Nat} {b : Bool} (h : w.toNat / 2 ^ i % 2 = bitNat b) : w.getLsbD i = b := by
  rw [BitVec.getLsbD, Nat.testBit_eq_decide_div_mod_eq, h]
  cases b <;> rfl

/-- The number that `STATUS` reads as, its fields at their places. -/
theorem Status.toNat_word (st : Status) :
    st.word.toNat = bitNat st.busy + 2 * bitNat st.done + 4 * bitNat st.err + 8 * bitNat st.ovr
      + 2 ^ 8 * st.errcode.code.toNat + 2 ^ 16 * st.lastop.toNat := by
  have h0 := bitNat_le_one st.busy
  have h1 := bitNat_le_one st.done
  have h2 := bitNat_le_one st.err
  have h3 := bitNat_le_one st.ovr
  have h8 := st.errcode.code.isLt
  have h16 := st.lastop.isLt
  rw [Status.word, BitVec.toNat_ofNat]
  omega

/-- Every bit of `STATUS`. -/
theorem Status.word_bits (st : Status) :
    st.word.getLsbD 0 = st.busy ∧ st.word.getLsbD 1 = st.done ∧ st.word.getLsbD 2 = st.err ∧ st.word.getLsbD 3 = st.ovr
      ∧ Claim.field st.word 4 4 = 0 ∧ st.word.extractLsb' 8 8 = st.errcode.code ∧ st.word.extractLsb' 16 8 = st.lastop
      ∧ Claim.field st.word 24 8 = 0 := by
  have h0 := bitNat_le_one st.busy
  have h1 := bitNat_le_one st.done
  have h2 := bitNat_le_one st.err
  have h3 := bitNat_le_one st.ovr
  have h8 := st.errcode.code.isLt
  have h16 := st.lastop.isLt
  have hw := st.toNat_word
  have hfield (lo width : Nat) : (st.word.extractLsb' lo width).toNat = st.word.toNat / 2 ^ lo % 2 ^ width := by
    rw [BitVec.extractLsb'_toNat, Nat.shiftRight_eq_div_pow]
  refine ⟨getLsbD_eq_of_bitNat ?_, getLsbD_eq_of_bitNat ?_, getLsbD_eq_of_bitNat ?_, getLsbD_eq_of_bitNat ?_, ?_,
    BitVec.eq_of_toNat_eq ?_, BitVec.eq_of_toNat_eq ?_, ?_⟩ <;> simp only [Claim.field, hfield, hw] <;> omega

/-! ### `CTRL` (10_state.md R32) -/

/-- What `CTRL` reads as. -/
theorem Ctrl.word_eq (c : Ctrl) : c.word = (if c.ie = true then 1 else 0) ||| (if c.field = .qr then 4 else 0) := by
  obtain ⟨ie, field⟩ := c
  cases ie <;> cases field <;> rfl

/-- A write to `CTRL` without `SRST` (70_reset_and_hazards.md R431). -/
theorem writeCtrl_of_no_reset {s : State} {v : Word} (h : v.getLsbD 1 = false) :
    s.writeCtrl v = { s with regs := { s.regs with
      ctrl := ⟨v.getLsbD 0, if s.regs.status.busy then s.regs.ctrl.field else GField.ofBit (v.getLsbD 2)⟩ } } := by
  rw [State.writeCtrl, h, if_neg (by decide)]

/-- A write to `CTRL` with `SRST` (70_reset_and_hazards.md R422). -/
theorem writeCtrl_of_reset {s : State} {v : Word} (h : v.getLsbD 1 = true) : s.writeCtrl v = s.softReset := by
  rw [State.writeCtrl, if_pos h]

/-! ### What a stored register reads back (10_state.md R42) -/

/-- The word with 1 in bits `hi` to `lo`. -/
def fieldMask (hi lo : Nat) : Word := BitVec.ofNat 32 ((2 ^ (hi + 1 - lo) - 1) * 2 ^ lo)

/-- A bit field put back at its place is the word under the field's mask. -/
theorem ofNat_bitField_mul (v : Word) (hi lo : Nat) : BitVec.ofNat 32 (bitField v hi lo * 2 ^ lo) = v &&& fieldMask hi lo := by
  refine BitVec.eq_of_getLsbD_eq fun i hi' => ?_
  rw [BitVec.getLsbD_and, fieldMask, BitVec.getLsbD_ofNat, BitVec.getLsbD_ofNat, bitField, Nat.testBit_mul_two_pow,
    Nat.testBit_mul_two_pow, Nat.testBit_mod_two_pow, Nat.testBit_div_two_pow, Nat.testBit_two_pow_sub_one]
  by_cases h : lo ≤ i
  · rw [Nat.sub_add_cancel h, BitVec.testBit_toNat]
    simp [hi', h, Bool.and_comm]
  · simp [h]

@[simp] theorem packWord_nil : packWord [] = 0 := rfl

theorem packWord_cons (p : Nat × Nat) (ps : List (Nat × Nat)) :
    packWord (p :: ps) = BitVec.ofNat 32 (p.1 * 2 ^ p.2) + packWord ps := by
  simp [packWord, BitVec.ofNat_add]

/-- A field stored at its width and packed at its place adds its mask to what the other fields show of the word. -/
theorem packWord_cons_bitField {v m : Word} {n hi lo : Nat} {ps : List (Nat × Nat)} (hn : hi + 1 - lo ≤ n)
    (hps : packWord ps = v &&& m) (hdisj : fieldMask hi lo &&& m = 0) :
    packWord (((BitVec.ofNat n (bitField v hi lo)).toNat, lo) :: ps) = v &&& (fieldMask hi lo ||| m) := by
  have hlt : bitField v hi lo < 2 ^ n :=
    Nat.lt_of_lt_of_le (bitField_lt v hi lo) (Nat.pow_le_pow_right (by decide) hn)
  have hdisj' : (v &&& fieldMask hi lo) &&& (v &&& m) = 0 := by
    rw [BitVec.and_assoc, ← BitVec.and_assoc (fieldMask hi lo), BitVec.and_comm (fieldMask hi lo) v, BitVec.and_assoc v, hdisj]
    simp
  rw [packWord_cons, BitVec.toNat_ofNat, Nat.mod_eq_of_lt hlt, ofNat_bitField_mul, hps,
    BitVec.add_eq_or_of_and_eq_zero _ _ hdisj', BitVec.and_or_distrib_left]

/-- The one field of a register of one field. -/
theorem packWord_bitField {v : Word} {n hi lo : Nat} (hn : hi + 1 - lo ≤ n) :
    packWord [((BitVec.ofNat n (bitField v hi lo)).toNat, lo)] = v &&& fieldMask hi lo := by
  simpa using packWord_cons_bitField (m := 0) hn (by simp) (by simp)

/-- The registers that only store, with their defined bits (10_state.md R30, R35 to R49). -/
def storedFields : List (Reg × Word) :=
  [(.arg0, 0xFFFFFFFF), (.arg1, 0xFFFFFFFF), (.cwLen, 0x00001FFF), (.fsLen, 0x00001FFF), (.dmSize, 0x0000FFFF),
   (.dmCw, 0x0FFF0FFF), (.dmBlk, 0x000000FF), (.qrCfg, 0x0000733F), (.qrBlk, 0xFFFFFFFF), (.qrEcc, 0x000000FF)]

theorem storedRegisters_eq : Claim.storedRegisters = storedFields.map (fun p => (p.1.offset, p.2)) := rfl

/-- A stored register reads back its defined bits. -/
theorem read_store_same (g : Regs) (v : Word) : ∀ p ∈ storedFields, (g.store p.1 v).read p.1 = v &&& p.2 := by
  simp only [storedFields, List.forall_mem_cons, List.not_mem_nil, false_implies, implies_true, and_true]
  refine ⟨?arg0, ?arg1, ?cwLen, ?fsLen, ?dmSize, ?dmCw, ?dmBlk, ?qrCfg, ?qrBlk, ?qrEcc⟩
  case arg0 => exact BitVec.and_allOnes.symm
  case arg1 => exact BitVec.and_allOnes.symm
  case cwLen => exact packWord_bitField (by decide)
  case fsLen => exact packWord_bitField (by decide)
  case dmBlk => exact packWord_bitField (by decide)
  case qrEcc => exact packWord_bitField (by decide)
  case dmSize => exact packWord_cons_bitField (by decide) (packWord_bitField (by decide)) (by decide)
  case dmCw => exact packWord_cons_bitField (by decide) (packWord_bitField (by decide)) (by decide)
  case qrCfg =>
    exact packWord_cons_bitField (by decide) (packWord_cons_bitField (by decide) (packWord_bitField (by decide)) (by decide))
      (by decide)
  case qrBlk =>
    exact packWord_cons_bitField (by decide) (packWord_cons_bitField (by decide)
      (packWord_cons_bitField (by decide) (packWord_bitField (by decide)) (by decide)) (by decide)) (by decide)

/-- Storing to one register changes what no other one reads. -/
theorem read_store (g : Regs) (v : Word) (r q : Reg) :
    (g.store r v).read q = if q = r then (g.store r v).read q else g.read q := by
  cases r <;> cases q <;> rfl

theorem read_store_other (g : Regs) (v : Word) {r q : Reg} (h : q ≠ r) : (g.store r v).read q = g.read q :=
  (read_store g v r q).trans (if_neg h)

/-- With the engine idle a write to a register that only stores is the store and nothing else. -/
theorem writeReg_stored {s : State} (hidle : s.regs.status.busy = false) (v : Word) :
    ∀ p ∈ storedFields, s.writeReg p.1 v = { s with regs := s.regs.store p.1 v } := by
  simp only [storedFields, List.forall_mem_cons, State.writeReg, hidle]
  simp [State.writeRegIdle]

end Sys2Proof.Machine

namespace Sys2Proof.Proofs

open Sys2Proof.Machine Sys2Proof.Claim

/-- A register write, as the statements say it. -/
theorem writes_offset (s : State) (r : Reg) (v : Word) : Writes s r.offset .four v false (s.writeReg r v) :=
  ⟨0, hostAccess_write_offset s r v⟩

theorem writes_status (s : State) (v : Word) : Writes s 0x008 .four v false (s.acknowledge v) :=
  writeReg_status s v ▸ writes_offset s .status v

theorem writes_ctrl (s : State) (v : Word) : Writes s 0x004 .four v false (s.writeCtrl v) :=
  writeReg_ctrl s v ▸ writes_offset s .ctrl v

/-- Settles O55: the fields of `STATUS` as digits of the number it reads as, and its acknowledgement as one register write. -/
theorem statusReadAndAcknowledge : Obligations.StatusReadAndAcknowledge := by
  refine ⟨fun s => ⟨_, busRead_offset_of_not_output s (r := .status) (by decide), s.regs.status.word_bits⟩,
    fun s v => ⟨_, writes_status s v, rfl, fun h1 h2 => ?_⟩, fun s => ?_, rfl⟩
  · simp [State.irq, h1, h2]
  · simp [State.irq]

/-- Settles O53: the write is one store, a stored register reads back under its mask, and every other register as before. -/
theorem storedRegisterWriteThenRead : Obligations.StoredRegisterWriteThenRead := by
  intro s v ⟨hbusy, hpending⟩ p hp
  rw [storedRegisters_eq, List.mem_map] at hp
  obtain ⟨⟨r, mask⟩, hmem, rfl⟩ := hp
  refine ⟨_, hostAccess_write_offset s r v, ?_⟩
  rw [writeReg_stored hbusy v _ hmem]
  refine ⟨?_, fun off hlt hal hne => ?_, rfl, rfl, hpending, rfl, rfl⟩
  · rw [busRead_offset_idle (by exact hpending), read_store_same s.regs v _ hmem]
  · obtain ⟨q, rfl⟩ := exists_offset_eq hlt hal
    rw [busRead_offset_idle (by exact hpending), busRead_offset_idle hpending, read_store_other _ _ (by rintro rfl; exact hne rfl)]

end Sys2Proof.Proofs
end

section
/-! What changes only some registers and some bits of the window, as rules that compose: one rule for each operation of the state, and
from them the frame of every command (10_state.md R61). -/

namespace Sys2Proof.Machine

/-! ### Registers -/

/-- From `g` to `h` only registers that `R` picks change what they read, and neither `STATUS` nor `CTRL` does. -/
structure RegsFrame (R : Reg → Bool) (g h : Regs) : Prop where
  status : h.status = g.status
  ctrl : h.ctrl = g.ctrl
  read : ∀ r, R r = false → h.read r = g.read r

namespace RegsFrame

variable {R : Reg → Bool} {g h k : Regs}

theorem refl (R : Reg → Bool) (g : Regs) : RegsFrame R g g := ⟨rfl, rfl, fun _ _ => rfl⟩

theorem trans (hgh : RegsFrame R g h) (hhk : RegsFrame R h k) : RegsFrame R g k :=
  ⟨hhk.status.trans hgh.status, hhk.ctrl.trans hgh.ctrl, fun r hr => (hhk.read r hr).trans (hgh.read r hr)⟩

theorem result (hR : R .result = true) (v : Word) : RegsFrame R g { g with result := v } :=
  ⟨rfl, rfl, fun r hr => by cases r with | result => simp [hR] at hr | _ => rfl⟩

theorem bsLen (hR : R .bsLen = true) (n : BitVec 16) : RegsFrame R g { g with bsLen := n } :=
  ⟨rfl, rfl, fun r hr => by cases r with | bsLen => simp [hR] at hr | _ => rfl⟩

theorem cwLen (hR : R .cwLen = true) (n : BitVec 13) : RegsFrame R g { g with cwLen := n } :=
  ⟨rfl, rfl, fun r hr => by cases r with | cwLen => simp [hR] at hr | _ => rfl⟩

theorem fsLen (hR : R .fsLen = true) (n : BitVec 13) : RegsFrame R g { g with fsLen := n } :=
  ⟨rfl, rfl, fun r hr => by cases r with | fsLen => simp [hR] at hr | _ => rfl⟩

theorem genDeg (hR : R .genDeg = true) (n : Byte) : RegsFrame R g { g with genDeg := n } :=
  ⟨rfl, rfl, fun r hr => by cases r with | genDeg => simp [hR] at hr | _ => rfl⟩

theorem gridDim (hR : R .gridDim = true) (d : Dim) : RegsFrame R g { g with gridDim := d } :=
  ⟨rfl, rfl, fun r hr => by cases r with | gridDim => simp [hR] at hr | _ => rfl⟩

end RegsFrame

/-! ### Bytes and bits of the window -/

/-- From `s` to `t` only bits of the window that the masks `B` pick change what they read; a byte of which `B` picks no bit keeps its
mark and its undefined bits too. -/
structure BitsFrame (B : Nat → Byte) (s t : State) : Prop where
  draws : t.draws = s.draws
  bytes : ∀ off, B off = 0 → t.mem.lookup off = s.mem.lookup off ∧ t.holes.lookup off = s.holes.lookup off
  bits : ∀ off j, j < 8 → (B off).getLsbD j = false → (t.readByte 0 off).getLsbD j = (s.readByte 0 off).getLsbD j

namespace BitsFrame

variable {B : Nat → Byte} {s t u : State}

theorem refl (B : Nat → Byte) (s : State) : BitsFrame B s s := ⟨rfl, fun _ _ => ⟨rfl, rfl⟩, fun _ _ _ _ => rfl⟩

theorem trans (hst : BitsFrame B s t) (htu : BitsFrame B t u) : BitsFrame B s u where
  draws := htu.draws.trans hst.draws
  bytes off h := ⟨(htu.bytes off h).1.trans (hst.bytes off h).1, (htu.bytes off h).2.trans (hst.bytes off h).2⟩
  bits off j hj h := (htu.bits off j hj h).trans (hst.bits off j hj h)

/-- A change of whole bytes, each of them picked whole. -/
theorem of_whole (hd : t.draws = s.draws)
    (h : ∀ off, B off ≠ 0xFF → t.mem.lookup off = s.mem.lookup off ∧ t.holes.lookup off = s.holes.lookup off) :
    BitsFrame B s t where
  draws := hd
  bytes off h0 := h off (by rw [h0]; decide)
  bits off j hj hbit := by
    have hne : B off ≠ 0xFF := by
      intro hff
      have hall : ∀ j, j < 8 → (0xFF : Byte).getLsbD j = true := by decide
      rw [hff, hall j hj] at hbit
      cases hbit
    obtain ⟨hm, hh⟩ := h off hne
    rw [readByte_congr hm hh hd]

/-- Writing registers changes no bit of the window. -/
theorem of_mem_eq (hd : t.draws = s.draws) (hm : t.mem = s.mem) (hh : t.holes = s.holes) : BitsFrame B s t :=
  of_whole hd fun _ _ => ⟨by rw [hm], by rw [hh]⟩

theorem writeBytes {off : Nat} {bytes : List Byte} (h : ∀ k, k < bytes.length → B (off + k) = 0xFF) :
    BitsFrame B s (s.writeBytes off bytes) := by
  refine of_whole rfl fun a ha => ?_
  have hout : a < off ∨ off + bytes.length ≤ a := by
    by_contra hin
    exact ha (by simpa [show off + (a - off) = a by omega] using h (a - off) (by omega))
  exact ⟨lookup_writeBytes_outside s off bytes a hout, holes_writeBytes_outside s off bytes a hout⟩

theorem writeStrided {stride pos : Nat} {bytes : List Byte}
    (h : ∀ j, j < bytes.length → B (0x2000 + (pos + j * stride)) = 0xFF) :
    BitsFrame B s (State.writeStrided stride pos bytes s) := by
  refine of_whole (writeStrided_frame stride pos bytes s).2.2.2.2 fun a ha => ?_
  have hout : ∀ j, j < bytes.length → a ≠ 0x2000 + pos + j * stride := by
    rintro j hj rfl
    exact ha (by simpa [Nat.add_assoc] using h j hj)
  refine ⟨lookup_writeStrided_outside stride pos bytes s a hout, ?_⟩
  rw [holes_writeStrided, if_neg (by simpa using hout)]

/-- Appending bits changes the stream bits at the cursor only (41_bitstream.md R160). -/
theorem appendAll {bits : List Bool} (hlen : s.bsLenNat + bits.length ≤ 32768)
    (h : ∀ i, s.bsLenNat ≤ i → i < s.bsLenNat + bits.length → (B (0x3000 + i / 8)).getLsbD (7 - i % 8) = true) :
    BitsFrame B s (s.appendAll bits) where
  draws := (appendAll_frame s bits).2.2.2.2
  bytes off h0 := appendAll_outside s bits hlen off fun i hi hi' heq => by
    have := h i hi hi'
    rw [show 0x3000 + i / 8 = off from heq.symm, h0] at this
    simp at this
  bits off j hj hbit := by
    by_cases hoff : 0x3000 ≤ off
    · obtain ⟨i, rfl, rfl⟩ : ∃ i, off = 0x3000 + i / 8 ∧ j = 7 - i % 8 := ⟨8 * (off - 0x3000) + (7 - j), by omega, by omega⟩
      have hnot : ¬ (s.bsLenNat ≤ i ∧ i < s.bsLenNat + bits.length) := fun hi => by
        rw [h i hi.1 hi.2] at hbit
        cases hbit
      exact (appendAll_streamBit s bits hlen i).trans (if_neg hnot)
    · obtain ⟨hm, hh⟩ := appendAll_outside s bits hlen off fun i _ _ => by
        show off ≠ 0x3000 + i / 8
        omega
      rw [readByte_congr hm hh (appendAll_frame s bits).2.2.2.2]

/-- The generator side effect writes `GEN` whole (43_reed_solomon.md R232). -/
theorem setGen {f : GField} {n : Nat} (hn : n < 256) (h : ∀ k, k < 256 → B (Buffer.gen.base + k) = 0xFF) :
    BitsFrame B s (s.setGen f n) :=
  (writeBytes fun k hk => h k (by simp at hk; omega)).trans (of_mem_eq rfl rfl rfl)

/-- A grid write writes `GRID` and `RESV` whole (10_state.md R61). -/
theorem setGrid {rows cols : Nat} {grid resv : Nat → Nat → Bool} (hgrid : ∀ k, k < 8192 → B (Buffer.grid.base + k) = 0xFF)
    (hresv : ∀ k, k < 8192 → B (Buffer.resv.base + k) = 0xFF) : BitsFrame B s (s.setGrid rows cols grid resv) :=
  (writeBytes fun k hk => hgrid k (by rwa [packMap_length] at hk)).trans
    ((writeBytes fun k hk => hresv k (by rwa [packMap_length] at hk)).trans (of_mem_eq rfl rfl rfl))

end BitsFrame

/-! ### Offsets inside a buffer -/

theorem holds_base_add (b : Buffer) {k : Nat} (hk : k < b.size) : b.holds (b.base + k) = true := by
  simp [Buffer.holds, hk]

theorem picks_base_add (b : Buffer) (p : Nat → Bool) {k : Nat} (hk : k < b.size) (hp : p k = true) :
    b.picks p (b.base + k) = true := by
  simp [Buffer.picks, holds_base_add b hk, hp]

theorem wholeByte_of_true {b : Bool} (h : b = true) : wholeByte b = 0xFF := if_pos h

/-! ### The appends of BS_PAD_QR -/

/-- The number of zero bits that take a stream of `len` bits to a byte boundary (41_bitstream.md R166). -/
def toBoundary (len : Nat) : Nat := (8 - len % 8) % 8

/-- The bits that BS_PAD_QR appends to a stream of `len` bits to reach `cap`: the terminator, the fill to a byte boundary, the pad
bytes (41_bitstream.md R166). -/
def padQrBits (len cap : Nat) : List Bool :=
  let t := min 4 (cap - len)
  let fill := toBoundary (len + t)
  List.replicate t false ++ List.replicate fill false ++ bitsOfBytes (padList 0 ((cap - (len + t + fill)) / 8))

theorem padQrBits_length {len cap : Nat} (h8 : cap % 8 = 0) (hle : len ≤ cap) : (padQrBits len cap).length = cap - len := by
  simp only [padQrBits, List.length_append, List.length_replicate, bitsOfBytes_length, padList, List.length_map,
    List.length_range, toBoundary]
  omega

theorem padQr_eq_appendAll {s : State} {cap : Nat} (h8 : cap % 8 = 0) (hcap : cap ≤ 32768) (hle : s.bsLenNat ≤ cap) :
    s.padQr cap = s.appendAll (padQrBits s.bsLenNat cap) := by
  obtain ⟨t, ht⟩ : ∃ t, t = min 4 (cap - s.bsLenNat) := ⟨_, rfl⟩
  obtain ⟨fill, hfill⟩ : ∃ fill, fill = toBoundary (s.bsLenNat + t) := ⟨_, rfl⟩
  have hfill' := hfill
  rw [toBoundary] at hfill'
  have h1 : (s.appendAll (List.replicate t false)).bsLenNat = s.bsLenNat + t := by
    rw [appendAll_bsLen _ _ (by rw [List.length_replicate]; omega), List.length_replicate]
  have h2 : ((s.appendAll (List.replicate t false)).appendAll (List.replicate fill false)).bsLenNat = s.bsLenNat + t + fill := by
    rw [appendAll_bsLen _ _ (by rw [h1, List.length_replicate]; omega), h1, List.length_replicate]
  have hpad : State.padToByte 8 (s.appendAll (List.replicate t false))
      = (s.appendAll (List.replicate t false)).appendAll (List.replicate fill false) := by
    rw [padToByte_eq _ _ (by rw [h1]; omega) (by omega), h1, hfill']
  show State.padBytes cap (cap / 8) 0 (State.padToByte 8 (State.appendZeros (min 4 (cap - s.bsLenNat)) s)) = _
  rw [padQrBits, ← ht, ← hfill, appendZeros_eq, hpad, padBytes_eq cap _ _ _ hcap h8 (by rw [h2]; omega) (by rw [h2]; omega)
    (by omega), h2, appendAll_append, appendAll_append]

/-! ### The lengths of the final streams -/

@[simp] theorem elems_length (s : State) (b : Buffer) (is : List Nat) : (s.elems b is).length = is.length := by
  simp [State.elems]

theorem dmPadding_length (l t : Nat) : (dmPadding l t).length = t - l := by
  unfold dmPadding
  split
  · simp
    omega
  · simp
    omega

/-- ECC_DM's final stream has `D + E` codewords when the blocks share the ECC codewords evenly (43_reed_solomon.md R226). -/
theorem dmStream_length {s : State} (h : s.dmEcc % s.dmBlocks = 0) : s.dmStream.length = s.dmData + s.dmEcc := by
  simp [State.dmStream, interleaveEcc_length, Nat.div_mul_cancel (Nat.dvd_of_mod_eq_zero h)]

theorem sum_indicator_lt (n l : Nat) : ((List.range n).map (fun i => if i < l then 1 else 0)).sum = min n l := by
  induction n with
  | zero => simp
  | succ n ih =>
    rw [List.range_succ, List.map_append, List.sum_append, ih, List.map_singleton, List.sum_singleton]
    split <;> omega

/-- Column by column each block gives its codewords up to the last column (43_reed_solomon.md R228). -/
theorem interleaveData_length (columns : Nat) (blocks : List (List Byte)) :
    (interleaveData columns blocks).length = (blocks.map (fun b => min columns b.length)).sum := by
  rw [interleaveData, List.length_flatMap]
  induction blocks with
  | nil => simp
  | cons b blocks ih =>
    have hcolumn (i : Nat) : ((b :: blocks).filterMap (·[i]?)).length
        = (if i < b.length then 1 else 0) + (blocks.filterMap (·[i]?)).length := by
      by_cases h : i < b.length
      · simp [h, Nat.add_comm]
      · simp [h]
    simp only [hcolumn, List.sum_map_add, sum_indicator_lt, ih, List.map_cons, List.sum_cons]

/-- No block is longer than the number of columns (43_reed_solomon.md R229). -/
theorem run_le_qrColumns {q : QrBlk} {r : Nat × Nat} (h : r ∈ qrRuns q) : r.2 ≤ qrColumns q := by
  simp only [qrRuns, List.mem_append, List.mem_map, List.mem_range] at h
  rw [qrColumns]
  obtain ⟨b, hb, rfl⟩ | ⟨b, hb, rfl⟩ := h
  · have hne : q.g1c ≠ 0 := fun h0 => by simp [h0] at hb
    rw [if_neg hne]
    exact le_max_left _ _
  · have hne : q.g2c ≠ 0 := fun h0 => by simp [h0] at hb
    rw [if_neg hne]
    exact le_max_right _ _

/-- ECC_QR's final stream has a codeword for each data and each ECC codeword (43_reed_solomon.md R228). -/
theorem qrStream_length (s : State) : s.qrStream.length = s.qrData + s.qrEccTotal := by
  have hmin : (qrRuns s.regs.qrBlk).map (fun r => min (qrColumns s.regs.qrBlk) r.2) = (qrRuns s.regs.qrBlk).map (·.2) :=
    List.map_congr_left fun r hr => Nat.min_eq_right (run_le_qrColumns hr)
  have hdata : ((qrRuns s.regs.qrBlk).map (·.2)).sum = s.qrData := by
    simp [qrRuns, State.qrData, Function.comp_def]
  have hruns : (qrRuns s.regs.qrBlk).length = s.qrBlocks := by
    simp [qrRuns, State.qrBlocks]
  have hlen : s.qrStream.length
      = ((qrRuns s.regs.qrBlk).map (fun r => min (qrColumns s.regs.qrBlk) r.2)).sum + s.qrEccPerBlock * (qrRuns s.regs.qrBlk).length := by
    simp [State.qrStream, interleaveData_length, interleaveEcc_length, Function.comp_def]
  rw [hlen, hmin, hdata, hruns, State.qrEccTotal, Nat.mul_comm]

/-! ### The frame of every command -/

/-- From `s` to `u` only what is in the write set of `i` changes: the registers always, the bits of the window for a well-formed command
and a stream that fits its buffer. -/
def EffectFrame (i : Instr) (s u : State) : Prop :=
  RegsFrame (writesReg · i) s.regs u.regs
    ∧ (i.wf = true → s.bsLenNat ≤ 32768 → BitsFrame (writesBits s · i) s u)

/-- A command has raised an error, or it has completed from a state that differs in its write set only. -/
def CommandFrame (i : Instr) (s t : State) : Prop :=
  (∃ code, t = s.raiseError code) ∨ ∃ u, t = u.complete ∧ EffectFrame i s u

variable {i : Instr} {s t : State}

/-- The frame of a command from the frame of its effect, where no check fails. -/
theorem commandFrame_of_effect {checks : List (Bool × ErrorCode)} {effect : State → State}
    (h : s.command checks effect = .next t) (heffect : (∀ c ∈ checks, c.1 = false) → EffectFrame i s (effect s)) :
    CommandFrame i s t := by
  obtain ⟨code, -, rfl⟩ | ⟨hnone, rfl⟩ := command_cases h
  · exact .inl ⟨code, rfl⟩
  · exact .inr ⟨effect s, rfl, heffect ((firstFailing_eq_none checks).mp hnone)⟩

theorem setResult_frame (hR : writesReg .result i = true) (b : Byte) : EffectFrame i s (s.setResult b) :=
  ⟨RegsFrame.result hR _, fun _ _ => BitsFrame.of_mem_eq rfl rfl rfl⟩

theorem setGrid_frame (hR : writesReg .gridDim i = true)
    (hi : ∀ off, writesBits s off i = wholeByte (Buffer.grid.holds off || Buffer.resv.holds off)) (rows cols : Nat)
    (grid resv : Nat → Nat → Bool) : EffectFrame i s (s.setGrid rows cols grid resv) := by
  refine ⟨RegsFrame.gridDim hR _, fun _ _ => BitsFrame.setGrid (fun k hk => ?_) fun k hk => ?_⟩
  · rw [hi, holds_base_add .grid hk]
    rfl
  · rw [hi, holds_base_add .resv hk, Bool.or_true]
    rfl

/-- The append of a list of bits up to a length within the buffer. -/
theorem appendAll_effectFrame {last : Nat} {bits : List Bool} (hR : writesReg .bsLen i = true)
    (hi : ∀ off, writesBits s off i = s.appendSet last off) (hlast : s.bsLenNat + bits.length = last) (hle : last ≤ 32768) :
    EffectFrame i s (s.appendAll bits) := by
  subst hlast
  constructor
  · rw [(appendAll_frame s bits).1]
    exact RegsFrame.bsLen hR _
  · refine fun _ _ => BitsFrame.appendAll hle fun k hk hk' => ?_
    rw [hi, getLsbD_appendSet _ _ _ (by omega)]
    simp [hk, hk']

/-! One lemma a command. The six field operations write `RESULT` alone, whatever they check. -/

theorem execNop_frame (h : execNop s = .next t) : CommandFrame .nop s t :=
  commandFrame_of_effect h fun _ => ⟨.refl _ _, fun _ _ => .refl _ _⟩

theorem execGridClear_frame {rows cols : Nat} (h : execGridClear rows cols s = .next t) : CommandFrame (.gridClear rows cols) s t :=
  commandFrame_of_effect h fun _ => setGrid_frame rfl (fun _ => rfl) _ _ _ _

theorem execBsClear_frame (h : execBsClear s = .next t) : CommandFrame .bsClear s t :=
  commandFrame_of_effect h fun _ => ⟨RegsFrame.bsLen rfl _, fun _ _ =>
    (BitsFrame.writeBytes fun k hk =>
      wholeByte_of_true (holds_base_add .bsb (by rwa [List.length_replicate] at hk))).trans (.of_mem_eq rfl rfl rfl)⟩

theorem execBsAppend_frame {w : Nat} (h : execBsAppend w s = .next t) : CommandFrame (.bsAppend w) s t :=
  commandFrame_of_effect h fun hpass => by
    simp only [List.forall_mem_cons, decide_eq_false_iff_not, not_lt] at hpass
    obtain ⟨-, -, hcap, -⟩ := hpass
    rw [appendBits_eq]
    exact appendAll_effectFrame rfl (fun _ => rfl) (by rw [bitsOf_length]) hcap

theorem execBsAppendBytes_frame {count : Nat} (h : execBsAppendBytes count s = .next t) :
    CommandFrame (.bsAppendBytes count) s t :=
  commandFrame_of_effect h fun hpass => by
    simp only [List.forall_mem_cons, decide_eq_false_iff_not, not_lt] at hpass
    obtain ⟨-, hcap, -⟩ := hpass
    rw [appendBytes_eq]
    exact appendAll_effectFrame rfl (fun _ => rfl) (by simp [bitsOfBytes_length]) hcap

theorem execBsPadQr_frame (h : execBsPadQr s = .next t) : CommandFrame .bsPadQr s t :=
  commandFrame_of_effect h fun hpass => by
    simp only [List.forall_mem_cons, Bool.or_eq_false_iff, decide_eq_false_iff_not, not_lt, ne_eq, not_not] at hpass
    obtain ⟨⟨h8, hcap⟩, hle, -⟩ := hpass
    rw [padQr_eq_appendAll h8 hcap hle]
    exact appendAll_effectFrame rfl (fun _ => rfl) (by rw [padQrBits_length h8 hle]; omega) hcap

theorem execBsToCw_frame (h : execBsToCw s = .next t) : CommandFrame .bsToCw s t :=
  commandFrame_of_effect h fun _ => ⟨RegsFrame.cwLen rfl _, fun _ hlen =>
    (BitsFrame.writeBytes fun k hk => by
      rw [elems_length, List.length_range] at hk
      exact wholeByte_of_true (picks_base_add .cwb _ (show k < 4096 by omega) (by simpa using hk))).trans (.of_mem_eq rfl rfl rfl)⟩

theorem execCwPadDm_frame {n : Nat} (h : execCwPadDm n s = .next t) : CommandFrame (.cwPadDm n) s t :=
  commandFrame_of_effect h fun hpass => ⟨RegsFrame.cwLen rfl _, fun _ _ => by
    simp only [List.forall_mem_cons, decide_eq_false_iff_not, not_lt] at hpass
    obtain ⟨hn, -⟩ := hpass
    refine (BitsFrame.writeBytes fun k hk => ?_).trans (.of_mem_eq rfl rfl rfl)
    rw [dmPadding_length] at hk
    rw [Nat.add_assoc]
    exact wholeByte_of_true (picks_base_add .cwb _ (show s.cwLenNat + k < 4096 by omega)
      (by simp only [Bool.and_eq_true, decide_eq_true_eq]; omega))⟩

theorem execGfAdd_frame {a b : Byte} (h : execGfAdd a b s = .next t) : CommandFrame (.gfAdd a b) s t :=
  commandFrame_of_effect h fun _ => setResult_frame rfl _

theorem execGfMul_frame {a b : Byte} (h : execGfMul a b s = .next t) : CommandFrame (.gfMul a b) s t :=
  commandFrame_of_effect h fun _ => setResult_frame rfl _

theorem execGfDiv_frame {a b : Byte} (h : execGfDiv a b s = .next t) : CommandFrame (.gfDiv a b) s t :=
  commandFrame_of_effect h fun _ => setResult_frame rfl _

theorem execGfInv_frame {a : Byte} (h : execGfInv a s = .next t) : CommandFrame (.gfInv a) s t :=
  commandFrame_of_effect h fun _ => setResult_frame rfl _

theorem execGfExp_frame {k : Nat} (h : execGfExp k s = .next t) : CommandFrame (.gfExp k) s t :=
  commandFrame_of_effect h fun _ => setResult_frame rfl _

theorem execGfLog_frame {a : Byte} (h : execGfLog a s = .next t) : CommandFrame (.gfLog a) s t :=
  commandFrame_of_effect h fun _ => setResult_frame rfl _

theorem execRsGenpoly_frame {n : Nat} (h : execRsGenpoly n s = .next t) : CommandFrame (.rsGenpoly n) s t :=
  commandFrame_of_effect h fun _ => ⟨RegsFrame.genDeg rfl _, fun hwf _ =>
    BitsFrame.setGen (by simpa [Instr.wf] using hwf) fun _ hk => wholeByte_of_true (holds_base_add .gen hk)⟩

theorem execRsEncode_frame {l n : Nat} (h : execRsEncode l n s = .next t) : CommandFrame (.rsEncode l n) s t := by
  dsimp only [execRsEncode] at h
  refine commandFrame_of_effect h fun hpass => ⟨?_, fun hwf _ => ?_⟩
  · rw [State.setGen_regs, (writeStrided_frame _ _ _ _).1]
    exact RegsFrame.genDeg rfl _
  · simp only [List.forall_mem_cons, Bool.or_eq_false_iff, decide_eq_false_iff_not, not_lt] at hpass
    simp only [Instr.wf, Bool.and_eq_true, decide_eq_true_eq] at hwf
    obtain ⟨⟨⟨⟨⟨⟨⟨-, hn⟩, -⟩, -⟩, -⟩, -⟩, hlast⟩, -⟩ := hpass
    refine (BitsFrame.writeStrided fun j hj => wholeByte_of_true ?_).trans
      (BitsFrame.setGen hwf.2 fun k hk => wholeByte_of_true ?_)
    · rw [rsEcc_length _ _ _ (by omega)] at hj
      have hle : j * stridedStep s.regs.arg1 ≤ (n - 1) * stridedStep s.regs.arg1 := Nat.mul_le_mul_right _ (by omega)
      rw [Bool.or_eq_true]
      refine .inr (picks_base_add .fsb _ (show _ < 4096 by omega) ?_)
      simp only [List.any_eq_true, List.mem_range, beq_iff_eq]
      exact ⟨j, hj, rfl⟩
    · rw [holds_base_add .gen hk, Bool.true_or]

/-- ECC_DM and ECC_QR write a final stream to `FSB`, its length and the generator. -/
theorem ecc_frame (hfs : writesReg .fsLen i = true) (hgen : writesReg .genDeg i = true) {len n : Nat} {f : GField} {bytes : List Byte}
    (hi : ∀ off, writesBits s off i = wholeByte (Buffer.gen.holds off || Buffer.fsb.picks (fun k => decide (k < len)) off))
    (hbytes : bytes.length = len) (hlen : len ≤ 4096) (hn : n < 256) :
    EffectFrame i s (((s.writeBytes Buffer.fsb.base bytes).setFsLen len).setGen f n) := by
  have hstream : BitsFrame (writesBits s · i) s (s.writeBytes Buffer.fsb.base bytes) := .writeBytes fun k hk => by
    rw [hi, picks_base_add .fsb _ (show k < 4096 by omega) (by simpa [hbytes] using hk), Bool.or_true]
    rfl
  have hlength : BitsFrame (writesBits s · i) s ((s.writeBytes Buffer.fsb.base bytes).setFsLen len) :=
    hstream.trans (.of_mem_eq rfl rfl rfl)
  refine ⟨(RegsFrame.fsLen hfs _).trans (RegsFrame.genDeg hgen _), fun _ _ => hlength.trans (.setGen hn fun k hk => ?_)⟩
  rw [hi, holds_base_add .gen hk, Bool.true_or]
  rfl

theorem execEccDm_frame (h : execEccDm s = .next t) : CommandFrame .eccDm s t :=
  commandFrame_of_effect h fun hpass => by
    simp only [List.forall_mem_cons, decide_eq_false_iff_not, not_lt, ne_eq, not_not] at hpass
    obtain ⟨-, hsize, hmod, hdeg, -, -⟩ := hpass
    exact ecc_frame rfl rfl (fun _ => rfl) (dmStream_length hmod) hsize (by omega)

theorem execEccQr_frame (h : execEccQr s = .next t) : CommandFrame .eccQr s t := by
  dsimp only [execEccQr] at h
  refine commandFrame_of_effect h fun hpass => ?_
  simp only [List.forall_mem_cons, decide_eq_false_iff_not, not_lt] at hpass
  obtain ⟨-, -, -, hsize, -⟩ := hpass
  exact ecc_frame rfl rfl (fun _ => rfl) (qrStream_length s) hsize s.regs.qrEcc.isLt

theorem execDmLayout_frame (h : execDmLayout s = .next t) : CommandFrame .dmLayout s t :=
  commandFrame_of_effect h fun _ => by
    cases s.dmEntry with
    | none => exact ⟨.refl _ _, fun _ _ => .refl _ _⟩
    | some g => exact setGrid_frame rfl (fun _ => rfl) _ _ _ _

theorem execQrLayout_frame (h : execQrLayout s = .next t) : CommandFrame .qrLayout s t :=
  commandFrame_of_effect h fun _ => setGrid_frame rfl (fun _ => rfl) _ _ _ _

/-- Every command keeps to its write set. -/
theorem exec_frame (h : exec i s = .next t) : CommandFrame i s t := by
  cases i with
  | nop => exact execNop_frame h
  | gridClear rows cols => exact execGridClear_frame h
  | bsClear => exact execBsClear_frame h
  | bsAppend w => exact execBsAppend_frame h
  | bsAppendBytes count => exact execBsAppendBytes_frame h
  | bsPadQr => exact execBsPadQr_frame h
  | bsToCw => exact execBsToCw_frame h
  | cwPadDm n => exact execCwPadDm_frame h
  | gfAdd a b => exact execGfAdd_frame h
  | gfMul a b => exact execGfMul_frame h
  | gfDiv a b => exact execGfDiv_frame h
  | gfInv a => exact execGfInv_frame h
  | gfExp k => exact execGfExp_frame h
  | gfLog a => exact execGfLog_frame h
  | rsGenpoly n => exact execRsGenpoly_frame h
  | rsEncode l n => exact execRsEncode_frame h
  | eccDm => exact execEccDm_frame h
  | eccQr => exact execEccQr_frame h
  | dmLayout => exact execDmLayout_frame h
  | qrLayout => exact execQrLayout_frame h

/-! ### What every command leaves -/

/-- A change of `STATUS` shows in no other register. -/
theorem read_setStatus (g : Regs) (st : Status) {r : Reg} (h : r ≠ .status) : { g with status := st }.read r = g.read r := by
  cases r with
  | status => exact absurd rfl h
  | _ => rfl

/-- No command writes `CTRL` (10_state.md R32). -/
theorem exec_ctrl (h : exec i s = .next t) : t.regs.ctrl = s.regs.ctrl := by
  obtain ⟨code, rfl⟩ | ⟨u, rfl, hregs, -⟩ := exec_frame h
  · rfl
  · exact hregs.ctrl

/-- A register outside the write set, `STATUS` apart, reads as before. -/
theorem exec_read (h : exec i s = .next t) {r : Reg} (hr : r ≠ .status) (hw : writesReg r i = false) :
    t.regs.read r = s.regs.read r := by
  obtain ⟨code, rfl⟩ | ⟨u, rfl, hregs, -⟩ := exec_frame h
  · exact read_setStatus _ _ hr
  · exact (read_setStatus _ _ hr).trans (hregs.read r hw)

/-- Bits of the window outside the write set read as before. -/
theorem exec_bitsFrame (h : exec i s = .next t) (hwf : i.wf = true) (hlen : s.bsLenNat ≤ 32768) :
    BitsFrame (writesBits s · i) s t := by
  obtain ⟨code, rfl⟩ | ⟨u, rfl, -, hbits⟩ := exec_frame h
  · exact .of_mem_eq rfl rfl rfl
  · exact (hbits hwf hlen).trans (.of_mem_eq rfl rfl rfl)

/-- Where `ERR` has risen nothing but `STATUS` and `PENDING` has changed (60_exceptions.md R381). -/
theorem exec_eq_failed (h : exec i s = .next t) (ht : t.regs.status.err = true) (hs : s.regs.status.err = false) :
    t = Claim.failed s t.regs.status.errcode := by
  obtain ⟨code, rfl⟩ | ⟨u, rfl, hregs, -⟩ := exec_frame h
  · rfl
  · rw [State.complete_regs, Status.completed_err, hregs.status, hs] at ht
    cases ht

theorem BitsFrame.sameByte {B : Nat → Byte} (h : BitsFrame B s t) {off : Nat} (h0 : B off = 0) : Claim.SameByte s t off := by
  obtain ⟨hm, hh⟩ := h.bytes off h0
  exact ⟨hm, hh, readByte_congr hm hh h.draws⟩

/-- The write set of an append is the part of the stream from `BS_LEN` up to the new length. -/
theorem writesBits_of_appendsUpTo {last : Nat} (h : Claim.AppendsUpTo s i last) (off : Nat) :
    writesBits s off i = s.appendSet last off := by
  obtain ⟨w, rfl, rfl⟩ | ⟨count, rfl, rfl⟩ | ⟨rfl, rfl⟩ := h <;> rfl

end Sys2Proof.Machine
end


section
/-! O14 and O54 from the frame of every command. -/

namespace Sys2Proof.Proofs

open Sys2Proof.Machine Sys2Proof.Claim

/-- Settles O14: each clause reads one part of the frame of every command; the write set of an append is taken bit by bit. -/
theorem commandsStayInWriteSet : Obligations.CommandsStayInWriteSet := by
  refine ⟨fun i s t hwf hlen h => ?_, fun i s off => writesByte_iff s off i,
    fun i s last happ => ⟨fun k hk => ?_, fun off hout => ?_⟩⟩
  · have hbits := exec_bitsFrame h hwf hlen
    refine ⟨fun off hoff => hbits.sameByte ?_, hbits.bits, fun r hr hw => exec_read h hr hw, fun r hr => ?_, exec_eq_failed h⟩
    · simpa [writesByte] using hoff
    · have hfixed : ∀ r ∈ [Reg.id, .ctrl, .arg0, .arg1, .dmSize, .dmCw, .dmBlk, .qrCfg, .qrBlk, .qrEcc],
          r ≠ .status ∧ r ∉ commandOutputs := by decide
      exact exec_read h (hfixed r hr).1 (writesReg_eq_false (hfixed r hr).2 i)
  · rw [writesBits_of_appendsUpTo happ, getLsbD_appendSet s last k hk, Bool.and_eq_true, decide_eq_true_eq, decide_eq_true_eq]
    rfl
  · rw [writesBits_of_appendsUpTo happ]
    exact appendSet_outside s last off (by omega)

/-- Settles O54: a write to `CTRL` is `writeCtrl` idle and busy, and `CTRL` is in no command's frame. -/
theorem ctrlWrites : Obligations.CtrlWrites := by
  refine ⟨fun s v h => ?_, fun s v h => ?_, fun s => ?_, fun i s t h => exec_ctrl h⟩
  · have hw := writes_ctrl s v
    rwa [writeCtrl_of_no_reset h] at hw
  · obtain ⟨data, hw⟩ := writes_ctrl s v
    rw [writeCtrl_of_reset h] at hw
    exact ⟨_, hw, rfl, rfl⟩
  · rw [← Ctrl.word_eq]
    exact busRead_offset_of_not_output s (r := .ctrl) (by decide)

end Sys2Proof.Proofs
end


section
/-! The host's access at any offset of the window (20_memory.md R80 to R92), said once: when it is a bus error, what a read gives and
what a write leaves. -/

namespace Sys2Proof.Machine

open Claim (mapped badAccess inWritable inGen inGridOrResv)

variable {off : Nat} {n : Width}

/-! ### The map of the window (20_memory.md R81) -/

theorem holds_iff (b : Buffer) (off : Nat) : b.holds off = true ↔ b.base ≤ off ∧ off < b.base + b.size := by
  simp [Buffer.holds]

theorem regOrBuffer_iff_mapped (off : Nat) : (isRegisterOffset off || isBufferOffset off) = true ↔ mapped off := by
  simp only [isRegisterOffset, isBufferOffset, Bool.or_eq_true, decide_eq_true_eq, holds_iff, Buffer.base, Buffer.size]
  omega

theorem bytes_ne_four_iff (n : Width) : n.bytes ≠ 4 ↔ n ≠ .four := by cases n <;> decide

/-- The decision is the causes of 20_memory.md R87. -/
theorem busError_iff (off : Nat) (n : Width) : busError off n = true ↔ badAccess off n := by
  rw [badAccess, bytes_ne_four_iff, ← regOrBuffer_iff_mapped]
  simp [busError, isRegisterOffset, or_assoc]

theorem busError_eq_false_iff (off : Nat) (n : Width) : busError off n = false ↔ ¬ badAccess off n := by
  rw [← busError_iff, Bool.not_eq_true]

/-- An aligned access to a byte of a window is accepted at every width. -/
theorem busError_of_buffer (hmap : mapped off) (hbuf : 0x48 ≤ off) (hal : off % n.bytes = 0) : busError off n = false := by
  rw [busError_eq_false_iff]
  rintro (h | h | ⟨h, -⟩)
  · exact h hmap
  · exact h hal
  · omega

/-- Behind the last register none is mapped (10_state.md R30). -/
theorem regAt_of_ge (hbuf : 0x48 ≤ off) : regAt off = none := by
  have hlt : ∀ r ∈ allRegs, r.offset < 0x48 := by decide
  refine List.find?_eq_none.mpr fun r hr => ?_
  have := hlt r hr
  rw [beq_iff_eq]
  omega

theorem isWritableBuffer_iff (off : Nat) : isWritableBuffer off = true ↔ inWritable off := by
  simp only [isWritableBuffer, Bool.or_eq_true, holds_iff, Buffer.base, Buffer.size]
  omega

/-! ### Accesses inside and outside the window -/

/-- Inside the window the host's access is made (20_memory.md R80). -/
theorem hostAccess_of_lt {a : BusAccess} (hwin : a.off < 0x8000) (s : State) : s.hostAccess a = .next (s.access a) :=
  if_neg (Nat.not_le.mpr hwin)

/-- Outside it the model stops (log 10 [DESIGN CHOICE, safe]). -/
theorem hostAccess_of_ge {a : BusAccess} (hwin : 0x8000 ≤ a.off) (s : State) : s.hostAccess a = .fault (.outsideWindow a.off) :=
  if_pos hwin

theorem hostAccess_read (hwin : off < 0x8000) (s : State) (n : Width) :
    s.hostAccess (.read off n) = .next { s with resp := some (s.busRead off n) } :=
  hostAccess_of_lt (a := .read off n) hwin s

theorem hostAccess_write (hwin : off < 0x8000) (s : State) (n : Width) (v : Word) :
    s.hostAccess (.write off n v) = .next { s.busWrite off n v with resp := some ⟨busError off n, 0⟩ } :=
  hostAccess_of_lt (a := .write off n v) hwin s

/-! ### Bytes and words (20_memory.md R84) -/

/-- The number of a concatenation: the right part below, the left part above it. -/
theorem toNat_append_eq_add {m k : Nat} (x : BitVec m) (y : BitVec k) : (x ++ y).toNat = x.toNat * 2 ^ k + y.toNat := by
  rw [BitVec.toNat_append, ← Nat.shiftLeft_add_eq_or_of_lt y.isLt, Nat.shiftLeft_eq]

/-- A word from its bytes is their concatenation, the lowest offset in the lowest bits. -/
theorem wordOfBytes_eq_append (b0 b1 b2 b3 : Byte) : wordOfBytes b0 b1 b2 b3 = b3 ++ b2 ++ b1 ++ b0 := by
  refine BitVec.eq_of_toNat_eq ?_
  rw [wordOfBytes, BitVec.toNat_ofNat, toNat_append_eq_add, toNat_append_eq_add, toNat_append_eq_add]
  omega

/-- A word whose upper two bytes are 0 is its lower two. -/
theorem wordOfBytes_two (b0 b1 : Byte) : wordOfBytes b0 b1 0 0 = (b1 ++ b0).setWidth 32 := by
  rw [wordOfBytes, ← BitVec.ofNat_toNat, toNat_append_eq_add]
  simp [Nat.add_comm, Nat.mul_comm]

/-- A word whose upper three bytes are 0 is its lowest. -/
theorem wordOfBytes_one (b0 : Byte) : wordOfBytes b0 0 0 0 = b0.setWidth 32 := by
  rw [wordOfBytes, ← BitVec.ofNat_toNat]
  simp

theorem byteOfWord_eq_extract (v : Word) (j : Nat) : byteOfWord v j = v.extractLsb' (8 * j) 8 := by
  refine BitVec.eq_of_toNat_eq ?_
  rw [byteOfWord, BitVec.toNat_ofNat, BitVec.extractLsb'_toNat, Nat.shiftRight_eq_div_pow]

/-- The bytes of a word made of bytes. -/
theorem byteOfWord_wordOfBytes (b0 b1 b2 b3 : Byte) :
    byteOfWord (wordOfBytes b0 b1 b2 b3) 0 = b0 ∧ byteOfWord (wordOfBytes b0 b1 b2 b3) 1 = b1
      ∧ byteOfWord (wordOfBytes b0 b1 b2 b3) 2 = b2 ∧ byteOfWord (wordOfBytes b0 b1 b2 b3) 3 = b3 := by
  refine ⟨?_, ?_, ?_, ?_⟩ <;> refine BitVec.eq_of_toNat_eq ?_ <;>
    simp only [byteOfWord, wordOfBytes, BitVec.toNat_ofNat] <;> omega

/-- The lowest byte of a word, widened again. -/
theorem wordOfBytes_low_byte (v : Word) : wordOfBytes (byteOfWord v 0) 0 0 0 = (v.setWidth 8).setWidth 32 := by
  refine BitVec.eq_of_toNat_eq ?_
  simp [wordOfBytes, byteOfWord]

/-- The lower two bytes of a word, widened again. -/
theorem wordOfBytes_low_half (v : Word) : wordOfBytes (byteOfWord v 0) (byteOfWord v 1) 0 0 = (v.setWidth 16).setWidth 32 := by
  refine BitVec.eq_of_toNat_eq ?_
  simp only [wordOfBytes, byteOfWord, BitVec.ofNat_eq_ofNat, BitVec.toNat_ofNat, BitVec.toNat_setWidth]
  omega

/-! ### Reads -/

/-- The error flag of a read (20_memory.md R87). -/
theorem busRead_error (s : State) (off : Nat) (n : Width) : (s.busRead off n).error = busError off n := by
  unfold State.busRead
  cases busError off n
  · cases regAt off <;> rfl
  · rfl

theorem busRead_of_error (h : busError off n = true) (s : State) : s.busRead off n = ⟨true, 0⟩ := if_pos h

/-- An accepted read of a window gives its bytes. -/
theorem busRead_buffer (hmap : mapped off) (hbuf : 0x48 ≤ off) (hal : off % n.bytes = 0) (s : State) :
    s.busRead off n = ⟨false, s.readData off n⟩ := by
  simp [State.busRead, busError_of_buffer hmap hbuf hal, regAt_of_ge hbuf]

/-- A read of one byte of a window. -/
theorem busRead_byte (hmap : mapped off) (hbuf : 0x48 ≤ off) (s : State) :
    s.busRead off .one = ⟨false, (s.hostByte off).setWidth 32⟩ := by
  rw [busRead_buffer (n := .one) hmap hbuf (Nat.mod_one off), State.readData, wordOfBytes_one]

/-- Each byte of the data of a read is a byte of the window, at its place. -/
theorem byteOfWord_readData (s : State) (off : Nat) (n : Width) (j : Nat) (hj : j < n.bytes) :
    byteOfWord (s.readData off n) j = s.hostByte (off + j) := by
  cases n with
  | one =>
    obtain ⟨h0, -⟩ := byteOfWord_wordOfBytes (s.hostByte off) 0 0 0
    rw [Width.bytes] at hj
    interval_cases j
    exact h0
  | two =>
    obtain ⟨h0, h1, -⟩ := byteOfWord_wordOfBytes (s.hostByte off) (s.hostByte (off + 1)) 0 0
    rw [Width.bytes] at hj
    interval_cases j <;> assumption
  | four =>
    obtain ⟨h0, h1, h2, h3⟩ :=
      byteOfWord_wordOfBytes (s.hostByte off) (s.hostByte (off + 1)) (s.hostByte (off + 2)) (s.hostByte (off + 3))
    rw [Width.bytes] at hj
    interval_cases j <;> assumption

/-- The data of a read has no bit above its width. -/
theorem readData_lt (s : State) (off : Nat) (n : Width) : (s.readData off n).toNat < 2 ^ (8 * n.bytes) := by
  cases n with
  | one =>
    rw [State.readData, wordOfBytes_one, BitVec.toNat_setWidth]
    exact Nat.lt_of_le_of_lt (Nat.mod_le _ _) (s.hostByte off).isLt
  | two =>
    rw [State.readData, wordOfBytes_two, BitVec.toNat_setWidth]
    exact Nat.lt_of_le_of_lt (Nat.mod_le _ _) (s.hostByte (off + 1) ++ s.hostByte off).isLt
  | four => exact (s.readData off .four).isLt

/-- A read of bytes that are those of a word gives as much of the word as it is wide. -/
theorem readData_of_hostByte {s : State} {v : Word} (h : ∀ j, j < n.bytes → s.hostByte (off + j) = byteOfWord v j) :
    s.readData off n = (v.setWidth (8 * n.bytes)).setWidth 32 := by
  cases n with
  | one =>
    have h0 : s.hostByte off = byteOfWord v 0 := h 0 (by decide)
    rw [State.readData, h0, wordOfBytes_low_byte]
    rfl
  | two =>
    have h0 : s.hostByte off = byteOfWord v 0 := h 0 (by decide)
    rw [State.readData, h0, h 1 (by decide), wordOfBytes_low_half]
    rfl
  | four =>
    have h0 : s.hostByte off = byteOfWord v 0 := h 0 (by decide)
    rw [State.readData, h0, h 1 (by decide), h 2 (by decide), h 3 (by decide), wordOfBytes_byteOfWord]
    exact (BitVec.setWidth_eq v).symm.trans (congrArg _ (BitVec.setWidth_eq v).symm)

/-! ### Writes -/

/-- A bus error changes nothing (20_memory.md R87). -/
theorem busWrite_of_error (h : busError off n = true) (s : State) (v : Word) : s.busWrite off n v = s := if_pos h

/-- With the engine idle a write to a window of the host stores its bytes (20_memory.md R91). -/
theorem busWrite_writable {s : State} (hidle : s.regs.status.busy = false) (hwr : inWritable off) (hal : off % n.bytes = 0) (v : Word) :
    s.busWrite off n v = s.writeBytes off (writeData v n) := by
  have hbuf : 0x48 ≤ off := by omega
  have hacc : busError off n = false := busError_of_buffer (by omega) hbuf hal
  simp [State.busWrite, hacc, regAt_of_ge hbuf, hidle, (isWritableBuffer_iff off).mpr hwr]

/-- With the engine idle a write to `GEN`, `GRID` or `RESV` changes nothing (20_memory.md R88). -/
theorem busWrite_readOnlyBuffer {s : State} (hidle : s.regs.status.busy = false) (hro : inGen off ∨ inGridOrResv off) (v : Word) :
    s.busWrite off n v = s := by
  have hbuf : 0x48 ≤ off := by omega
  have hwr : isWritableBuffer off = false := by
    rw [← Bool.not_eq_true, isWritableBuffer_iff]
    omega
  simp [State.busWrite, regAt_of_ge hbuf, hidle, hwr]

/-- The registers that the host cannot write (10_state.md R30). -/
def readOnlyRegs : List Reg := [.id, .result, .bsLen, .genDeg, .gridDim]

/-- With the engine idle a write to a read-only register changes nothing (20_memory.md R88). -/
theorem writeReg_readOnly {s : State} (hidle : s.regs.status.busy = false) (v : Word) : ∀ r ∈ readOnlyRegs, s.writeReg r v = s := by
  simp [readOnlyRegs, State.writeReg, hidle, State.writeRegIdle, Regs.store]

@[simp] theorem writeData_length (v : Word) (n : Width) : (writeData v n).length = n.bytes := by simp [writeData]

@[simp] theorem writeData_getElem (v : Word) (n : Width) (j : Nat) (hj : j < (writeData v n).length) :
    (writeData v n)[j] = byteOfWord v j := by simp [writeData]

end Sys2Proof.Machine
end

section
/-! What the reads and writes of the registers and the steps need beside the accesses themselves: the step counter, the reserved bits of a
write, the registers' 32-bit views, and what runs. -/

namespace Sys2Proof.Machine

/-! ### A host access and the step counter (log 4) -/

theorem writeCtrl_draws (s : State) (v : Word) : (s.writeCtrl v).draws = s.draws := by
  cases h : v.getLsbD 1
  · rw [writeCtrl_of_no_reset h]
  · rw [writeCtrl_of_reset h, State.softReset_draws]

theorem writeReg_draws (s : State) (r : Reg) (v : Word) : (s.writeReg r v).draws = s.draws := by
  unfold State.writeReg
  cases s.regs.status.busy <;> cases r with
  | ctrl => exact writeCtrl_draws s v
  | _ => rfl

theorem busWrite_draws (s : State) (off : Nat) (n : Width) (v : Word) : (s.busWrite off n v).draws = s.draws := by
  unfold State.busWrite
  split
  · rfl
  · split
    · exact writeReg_draws s _ v
    · split
      · rfl
      · split <;> rfl

theorem access_draws (s : State) (a : BusAccess) : (s.access a).draws = s.draws := by
  cases a with
  | read off n => rfl
  | write off n v => exact busWrite_draws s off n v

/-- A step with something on the host's list is a turn. -/
theorem step_of_host {e : HostEvent} {rest : List HostEvent} (h : s.host = e :: rest) : step s = advanceResult s.turn := by
  simp [step, State.exhausted, h]

/-! ### Reserved bits of a write (10_state.md R42) -/

/-- A mask that covers a field leaves the field. -/
theorem bitField_and {v m : Word} {hi lo : Nat} (hm : ∀ i < hi + 1 - lo, m.getLsbD (lo + i) = true) :
    bitField (v &&& m) hi lo = bitField v hi lo := by
  refine Nat.eq_of_testBit_eq fun i => ?_
  simp only [bitField, Nat.testBit_mod_two_pow, Nat.testBit_div_two_pow, BitVec.testBit_toNat, BitVec.getLsbD_and]
  by_cases hi : i < hi + 1 - lo
  · simp [Nat.add_comm i lo, hm i hi]
  · simp [hi]

/-- A register stores the defined bits of a write only. -/
theorem store_and_mask (g : Regs) (v : Word) : ∀ p ∈ storedFields, g.store p.1 (v &&& p.2) = g.store p.1 v := by
  simp only [storedFields, List.forall_mem_cons, List.not_mem_nil, false_implies, implies_true, and_true]
  refine ⟨?arg0, ?arg1, ?cwLen, ?fsLen, ?dmSize, ?dmCw, ?dmBlk, ?qrCfg, ?qrBlk, ?qrEcc⟩
  case arg0 => exact congrArg (g.store .arg0) BitVec.and_allOnes
  case arg1 => exact congrArg (g.store .arg1) BitVec.and_allOnes
  case qrBlk => exact congrArg (g.store .qrBlk) BitVec.and_allOnes
  all_goals
    simp only [Regs.store]
    repeat rw [bitField_and (by decide)]

/-! ### The views of the registers (10_state.md R31 to R49) -/

/-- The number of a packed word: its first field at its place, and the number of the others. -/
theorem toNat_packWord_cons (x i : Nat) (ps : List (Nat × Nat)) :
    (packWord ((x, i) :: ps)).toNat = (x * 2 ^ i + (packWord ps).toNat) % 2 ^ 32 := by
  rw [packWord_cons, BitVec.toNat_add, BitVec.toNat_ofNat, Nat.mod_add_mod]

@[simp] theorem toNat_packWord_nil : (packWord []).toNat = 0 := rfl

/-- The views are what the registers read. -/
theorem mem_registerView (g : Regs) : ∀ p ∈ Claim.registerView g, ∃ r : Reg, p = (r.offset, g.read r) := by
  have view {r : Reg} {w : Word} (h : (g.read r).toNat = w.toNat) : ∃ q : Reg, (r.offset, w) = (q.offset, g.read q) :=
    ⟨r, by rw [BitVec.eq_of_toNat_eq h]⟩
  simp only [Claim.registerView, List.forall_mem_append, List.forall_mem_cons, List.not_mem_nil, false_implies, implies_true, and_true]
  refine ⟨⟨⟨view (r := .id) rfl, view (r := .cmd) rfl, view (r := .arg0) rfl, view (r := .arg1) rfl, view (r := .result) rfl,
    view (r := .bsLen) ?_, view (r := .cwLen) ?_, view (r := .fsLen) ?_, view (r := .genDeg) ?_⟩,
    view (r := .gridDim) ?_, view (r := .dmSize) ?_, view (r := .dmCw) ?_, view (r := .dmBlk) ?_⟩,
    view (r := .qrCfg) ?_, view (r := .qrBlk) ?_, view (r := .qrEcc) ?_⟩
  all_goals
    simp only [Regs.read, toNat_packWord_cons, toNat_packWord_nil]
    repeat rw [toNat_append_eq_add]
    repeat rw [BitVec.toNat_zero]
    omega

/-! ### What runs -/

/-- A pending word that is no command runs nothing. -/
theorem running_eq_none {s : State} (h : Claim.NoCommand s) : s.running = none := by
  unfold State.running
  cases hp : s.pending with
  | none => rfl
  | some w => exact h w hp

theorem running_eq_some {s : State} {w : Word} {i : Instr} (hp : s.pending = some w) (hd : decode w = .ok i) :
    s.running = some i := by
  simp [State.running, hp, hd, Except.toOption]

/-- While a command runs, a register outside its write set is settled (70_reset_and_hazards.md R432). -/
theorem unsettledReg_eq_false {s : State} {i : Instr} (h : s.running = some i) {r : Reg} (hw : writesReg r i = false) :
    s.unsettledReg r = false := by
  rw [State.unsettledReg, h, Option.any_some, hw]

/-- While a command runs, a byte outside its write set reads as it is (70_reset_and_hazards.md R432). -/
theorem hostByte_of_settled {s : State} {i : Instr} {off : Nat} (h : s.running = some i) (h0 : writesBits s off i = 0) :
    s.hostByte off = s.readByte 0 off := by
  simp only [State.hostByte, State.unsettledBits, h, h0, mixByte_zero]

/-- With no command pending every register reads as it is. -/
theorem busRead_offset_noCommand {s : State} (h : Claim.NoCommand s) (r : Reg) :
    s.busRead r.offset .four = ⟨false, s.regs.read r⟩ := by
  rw [busRead_offset, hostReg_of_settled]
  simp [State.unsettledReg, running_eq_none h]

end Sys2Proof.Machine
end

section
/-! O7, O49 to O52 and O60: the host's side of the window. -/

namespace Sys2Proof.Proofs

open Sys2Proof.Machine Sys2Proof.Claim

/-- A write inside the window, as the statements say it. -/
theorem writes_of_lt {off : Nat} (hwin : off < 0x8000) (s : State) (n : Width) (v : Word) :
    Writes s off n v (busError off n) (s.busWrite off n v) :=
  ⟨0, hostAccess_write hwin s n v⟩

/-- Settles O49: the decision of a bus error is the causes of R87, and both kinds of access go by it. -/
theorem busErrors : Obligations.BusErrors := by
  intro s off n v hwin
  have hw := writes_of_lt hwin s n v
  refine ⟨fun hbad => ?_, fun hok => ?_⟩
  · rw [← busError_iff] at hbad
    rw [busWrite_of_error hbad, hbad] at hw
    exact ⟨by rw [hostAccess_read hwin, busRead_of_error hbad], hw⟩
  · rw [← busError_eq_false_iff] at hok
    rw [hok] at hw
    refine ⟨⟨(s.busRead off n).data, ?_⟩, _, hw⟩
    rw [hostAccess_read hwin, ← hok, ← busRead_error s]

/-- Settles O50: each byte read is the byte in the wider data, and a word is the concatenation of its bytes. -/
theorem widerReadsAreBytes : Obligations.WiderReadsAreBytes := by
  intro s off hmap hbuf byte
  have hbyte (j : Nat) (hj : mapped (off + j)) : byte j = s.hostByte (off + j) := by
    simp [byte, busRead_byte hj (Nat.le_add_right_of_le hbuf)]
  have hbyte0 : byte 0 = s.hostByte off := hbyte 0 hmap
  refine ⟨?_, fun hal => ?_, fun hal => ?_⟩
  · rw [hbyte0, busRead_byte hmap hbuf]
  · rw [busRead_buffer (n := .two) hmap hbuf hal, hbyte0, hbyte 1 (by omega), State.readData, wordOfBytes_two]
  · rw [busRead_buffer (n := .four) hmap hbuf hal, hbyte0, hbyte 1 (by omega), hbyte 2 (by omega), hbyte 3 (by omega),
      State.readData, wordOfBytes_eq_append]

/-- Settles O51: the write is one `writeBytes`, and with nothing pending the host reads the bytes themselves. -/
theorem bufferWriteThenRead : Obligations.BufferWriteThenRead := by
  intro s off n v ⟨hidle, hpend⟩ hwr hal
  have hbytes (j : Nat) (hj : j < n.bytes) : Holds (s.writeBytes off (writeData v n)) (off + j) (byteOfWord v j) := by
    have hlen : j < (writeData v n).length := by rwa [writeData_length]
    exact ⟨by rw [lookup_writeBytes_inside _ _ _ _ hlen, writeData_getElem], holes_writeBytes_inside _ _ _ _ hlen⟩
  refine ⟨_, hostAccess_write (by omega) s n v, ?_⟩
  rw [busWrite_writable hidle hwr hal]
  refine ⟨rfl, hpend, rfl, rfl, fun j hj => byteOfWord_eq_extract v j ▸ hbytes j hj, fun a ha => ?_, ?_⟩
  · rw [← writeData_length v n] at ha
    exact ⟨lookup_writeBytes_outside _ _ _ _ ha, holes_writeBytes_outside _ _ _ _ ha, fun k => readByte_writeBytes_outside _ _ _ _ _ ha⟩
  · rw [busRead_buffer (by omega) (by omega) hal, readData_of_hostByte fun j hj => ?_]
    rw [hostByte_idle (by simp [State.running, hpend])]
    obtain ⟨hmem, hholes⟩ := hbytes j hj
    exact readByte_of_lookup hmem hholes

/-- Settles O52: a read-only place is written with nothing, `STATUS` is acknowledged, and a register stores its defined bits. -/
theorem readOnlyIgnoresWrites : Obligations.ReadOnlyIgnoresWrites := by
  intro s v hidle
  refine ⟨?_, ⟨_, hostAccess_write_offset s .status v, ?_⟩, ?_⟩
  · rintro off n (⟨hoff, rfl⟩ | ⟨hro, hal⟩)
    · obtain ⟨r, hr, rfl⟩ : ∃ r ∈ readOnlyRegs, r.offset = off := List.mem_map.mp hoff
      have hw := writes_offset s r v
      rwa [writeReg_readOnly hidle v r hr] at hw
    · have hw := writes_of_lt (off := off) (by omega) s n v
      rwa [busWrite_readOnlyBuffer hidle hro, busError_of_buffer (by omega) (by omega) hal] at hw
  · rw [writeReg_status]
    exact ⟨rfl, rfl, fun h => by rw [State.acknowledge_regs, Status.acknowledged_errcode, h]; rfl⟩
  · intro p hp
    rw [storedRegisters_eq, List.mem_map] at hp
    obtain ⟨⟨r, mask⟩, hmem, rfl⟩ := hp
    rw [hostAccess_write_offset, hostAccess_write_offset, writeReg_stored hidle _ _ hmem, writeReg_stored hidle _ _ hmem,
      store_and_mask s.regs v _ hmem]

/-- Settles O60: outside the write set the host reads the registers and the bytes themselves. -/
theorem readsWhileBusy : Obligations.ReadsWhileBusy := by
  refine ⟨fun s hno => ⟨fun p hp => ?_, fun off n hmap hbuf hal => ?_, fun off b hmap hbuf hb => ?_⟩,
    fun s w i hpend hdec => ⟨fun r hr => ?_, fun off hmap hbuf hw => ?_, fun off j hmap hbuf hj hw => ?_⟩⟩
  · obtain ⟨r, rfl⟩ := mem_registerView _ p hp
    rw [hostAccess_read (offset_lt_winBytes r), busRead_offset_noCommand hno]
  · refine ⟨s.readData off n, ?_, fun j hj => ?_, readData_lt s off n⟩
    · rw [hostAccess_read (by omega), busRead_buffer hmap hbuf hal]
    · rw [← byteOfWord_eq_extract, byteOfWord_readData s off n j hj, hostByte_idle (running_eq_none hno)]
  · obtain ⟨hmem, hholes⟩ := hb
    rw [busRead_byte hmap hbuf, hostByte_idle (running_eq_none hno), readByte_of_lookup hmem hholes]
  · have hw : writesReg r i = false := by
      rcases hr with rfl | rfl | rfl | hw
      exacts [writesReg_eq_false (by decide) i, writesReg_eq_false (by decide) i, writesReg_eq_false (by decide) i, hw]
    rw [busRead_offset, hostReg_of_settled (unsettledReg_eq_false (running_eq_some hpend hdec) hw)]
  · have h0 : writesBits s off i = 0 := by simpa [writesByte] using hw
    rw [busRead_byte hmap hbuf, hostByte_of_settled (running_eq_some hpend hdec) h0]
  · rw [busRead_byte hmap hbuf, BitVec.getLsbD_setWidth, getLsbD_hostByte (running_eq_some hpend hdec), hw]
    simp [show j < 32 by omega]

/-- Settles O7: an event on the host's list makes the step one turn, and no access moves the step counter. -/
theorem stepMakesHostAccess : Obligations.StepMakesHostAccess := by
  refine ⟨fun s a rest hh => ⟨fun hin => ?_, fun hout => ?_⟩, fun s rest hh => ?_, fun s rest hp hh => ?_, fun s hp hh => ?_⟩
  · rw [step_of_host hh, State.turn, hh]
    simp only [hostAccess_of_lt hin, advanceResult, State.advance, access_draws]
  · rw [step_of_host hh, State.turn, hh]
    simp only [hostAccess_of_ge hout, advanceResult]
  · rw [step_of_host hh, State.turn, hh]
    rfl
  · rw [step_of_host hh, State.turn, hh]
    simp only [State.engineTurn, hp]
    rfl
  · simp [step, State.exhausted, hp, hh]

end Sys2Proof.Proofs
end

section
/-! The command word taken apart the same way for every command (30_encoding.md R110, R111, R118): its opcode, the bits of its fields and
the reserved bits above them. -/

namespace Sys2Proof

/-! ### Assembled words -/

section
variable {op imm : Nat}

theorem toNat_commandWord (hop : op < 2 ^ 8) (himm : imm < 2 ^ 24) : (commandWord op imm).toNat = op * 2 ^ 24 + imm := by
  rw [commandWord, BitVec.toNat_ofNat]
  omega

theorem opcodeOf_commandWord (hop : op < 2 ^ 8) (himm : imm < 2 ^ 24) : opcodeOf (commandWord op imm) = op := by
  rw [opcodeOf, bitField, toNat_commandWord hop himm]
  omega

/-- A bit field below the opcode is a field of the immediate. -/
theorem bitField_commandWord (hop : op < 2 ^ 8) (himm : imm < 2 ^ 24) {hi : Nat} (hhi : hi < 24) (lo : Nat) :
    bitField (commandWord op imm) hi lo = imm / 2 ^ lo % 2 ^ (hi + 1 - lo) := by
  refine Nat.eq_of_testBit_eq fun i => ?_
  rw [bitField, toNat_commandWord hop himm, Nat.mul_comm op, Nat.testBit_mod_two_pow, Nat.testBit_mod_two_pow,
    Nat.testBit_div_two_pow, Nat.testBit_div_two_pow, Nat.testBit_two_pow_mul_add _ himm]
  by_cases hi' : i < hi + 1 - lo
  · rw [if_pos (by omega)]
  · simp [hi']

/-- The bits above an immediate that fits `k` bits are 0. -/
theorem bitField_commandWord_above (hop : op < 2 ^ 8) {k : Nat} (hk : k ≤ 24) (himm : imm < 2 ^ k) :
    bitField (commandWord op imm) 23 k = 0 := by
  have himm' : imm < 2 ^ 24 := Nat.lt_of_lt_of_le himm (Nat.pow_le_pow_right (by decide) hk)
  rw [bitField_commandWord hop himm' (by decide), Nat.div_eq_of_lt himm, Nat.zero_mod]

/-- A word whose bits from `k` up to the opcode are 0 is its opcode and its low `k` bits. -/
theorem commandWord_of_reserved {w : Word} {k : Nat} (hk : k ≤ 24) (h : bitField w 23 k = 0) :
    commandWord (opcodeOf w) (w.toNat % 2 ^ k) = w := by
  have hlow : w.toNat % 2 ^ 24 = w.toNat % 2 ^ k := by
    have hsplit := Nat.mod_mul (x := w.toNat) (a := 2 ^ k) (b := 2 ^ (24 - k))
    rw [← Nat.pow_add, Nat.add_sub_cancel' hk] at hsplit
    rw [hsplit, show w.toNat / 2 ^ k % 2 ^ (24 - k) = 0 from h, Nat.mul_zero, Nat.add_zero]
  refine BitVec.eq_of_toNat_eq ?_
  have hop : opcodeOf w < 2 ^ 8 := bitField_lt w 31 24
  rw [← hlow, toNat_commandWord hop (Nat.mod_lt _ (by decide)), opcodeOf, bitField]
  omega

end

theorem ofNat_of_eq_toNat {n : Nat} {b : Byte} (h : n = b.toNat) : BitVec.ofNat 8 n = b := by
  rw [h, BitVec.ofNat_toNat, BitVec.setWidth_eq]

/-! ### The format of a command -/

namespace Instr

/-- The number of low bits of the command word that hold the command's fields; the bits from there up to the opcode are reserved
(30_encoding.md R111). -/
def fieldBits : Instr → Nat
  | .nop | .bsClear | .bsPadQr | .bsToCw | .eccDm | .eccQr | .dmLayout | .qrLayout => 0
  | .bsAppend _ => 6
  | .gfInv _ | .gfExp _ | .gfLog _ | .rsGenpoly _ => 8
  | .bsAppendBytes _ | .cwPadDm _ => 13
  | .gridClear _ _ | .gfAdd _ _ | .gfMul _ _ | .gfDiv _ _ => 16
  | .rsEncode _ _ => 21

/-- The command of the same row of the opcode map with the fields that a word holds (30_encoding.md R111). -/
def withFields (w : Word) : Instr → Instr
  | .nop => .nop
  | .gridClear _ _ => .gridClear (bitField w 7 0) (bitField w 15 8)
  | .bsClear => .bsClear
  | .bsAppend _ => .bsAppend (bitField w 5 0)
  | .bsAppendBytes _ => .bsAppendBytes (bitField w 12 0)
  | .bsPadQr => .bsPadQr
  | .bsToCw => .bsToCw
  | .cwPadDm _ => .cwPadDm (bitField w 12 0)
  | .gfAdd _ _ => .gfAdd (BitVec.ofNat 8 (bitField w 7 0)) (BitVec.ofNat 8 (bitField w 15 8))
  | .gfMul _ _ => .gfMul (BitVec.ofNat 8 (bitField w 7 0)) (BitVec.ofNat 8 (bitField w 15 8))
  | .gfDiv _ _ => .gfDiv (BitVec.ofNat 8 (bitField w 7 0)) (BitVec.ofNat 8 (bitField w 15 8))
  | .gfInv _ => .gfInv (BitVec.ofNat 8 (bitField w 7 0))
  | .gfExp _ => .gfExp (bitField w 7 0)
  | .gfLog _ => .gfLog (BitVec.ofNat 8 (bitField w 7 0))
  | .rsGenpoly _ => .rsGenpoly (bitField w 7 0)
  | .rsEncode _ _ => .rsEncode (bitField w 12 0) (bitField w 20 13)
  | .eccDm => .eccDm
  | .eccQr => .eccQr
  | .dmLayout => .dmLayout
  | .qrLayout => .qrLayout

variable (i : Instr) (w : Word)

theorem fieldBits_le : i.fieldBits ≤ 24 := by cases i <;> simp [fieldBits]

theorem opcode_lt : i.row.opcode < 2 ^ 8 := by cases i <;> simp [row]

/-- The mask of a row leaves out the field bits (30_encoding.md R114). -/
theorem row_mask : i.row.mask = BitVec.allOnes 32 <<< i.fieldBits := by
  cases i <;> simp only [row, fieldBits] <;> decide

/-- The match of a row is its opcode with every field 0 (30_encoding.md R114). -/
theorem row_matchWord : i.row.matchWord = commandWord i.row.opcode 0 := by
  cases i <;> simp only [row] <;> decide

/-- Fields taken from a word fit their bits. -/
theorem wf_withFields : (i.withFields w).wf = true := by
  cases i <;> simp only [withFields, wf, Bool.and_eq_true, decide_eq_true_eq]
  case gridClear | rsEncode => exact ⟨bitField_lt w _ _, bitField_lt w _ _⟩
  all_goals exact bitField_lt w _ _

/-- The word of a command with a word's fields is the command's opcode over the word's low bits. -/
theorem encode_withFields : encode (i.withFields w) = commandWord i.row.opcode (w.toNat % 2 ^ i.fieldBits) := by
  cases i with
  | nop | bsClear | bsPadQr | bsToCw | eccDm | eccQr | dmLayout | qrLayout =>
    exact congrArg (commandWord _) (Nat.mod_one _).symm
  | bsAppend | bsAppendBytes | cwPadDm | gfExp | rsGenpoly =>
    exact congrArg (fun x => commandWord _ (x % _)) (Nat.div_one _)
  | gfInv | gfLog | gridClear | gfAdd | gfMul | gfDiv | rsEncode =>
    refine congrArg (commandWord _) ?_
    simp only [fieldBits, bitField, BitVec.toNat_ofNat]
    omega

/-- The word of a well-formed command holds its fields. -/
theorem withFields_encode {i : Instr} (h : i.wf = true) : i.withFields (encode i) = i := by
  cases i with
  | nop | bsClear | bsPadQr | bsToCw | eccDm | eccQr | dmLayout | qrLayout => rfl
  | bsAppend | bsAppendBytes | cwPadDm | gfExp | rsGenpoly =>
    simp only [wf, decide_eq_true_eq] at h
    exact congrArg _ ((bitField_commandWord (by decide) (by omega) (by decide) _).trans (by omega))
  | gridClear | rsEncode =>
    simp only [wf, Bool.and_eq_true, decide_eq_true_eq] at h
    exact congrArg₂ _ ((bitField_commandWord (by decide) (by omega) (by decide) _).trans (by omega))
      ((bitField_commandWord (by decide) (by omega) (by decide) _).trans (by omega))
  | gfInv | gfLog =>
    exact congrArg _ (ofNat_of_eq_toNat ((bitField_commandWord (by decide) (by omega) (by decide) _).trans (by omega)))
  | gfAdd | gfMul | gfDiv =>
    exact congrArg₂ _ (ofNat_of_eq_toNat ((bitField_commandWord (by decide) (by omega) (by decide) _).trans (by omega)))
      (ofNat_of_eq_toNat ((bitField_commandWord (by decide) (by omega) (by decide) _).trans (by omega)))

/-- The word of a well-formed command is the opcode of its row over an immediate that fits its field bits. -/
theorem encode_eq_commandWord {i : Instr} (h : i.wf = true) : ∃ imm < 2 ^ i.fieldBits, encode i = commandWord i.row.opcode imm :=
  ⟨(encode i).toNat % 2 ^ i.fieldBits, Nat.mod_lt _ (Nat.two_pow_pos _), by rw [← encode_withFields, withFields_encode h]⟩

end Instr

/-! ### Decoding (30_encoding.md R113) -/

section
variable {w : Word} {i : Instr}

/-- A word with the opcode of a row is that row's command, if its reserved bits are 0. -/
theorem decode_of_opcode (h : opcodeOf w = i.row.opcode) : decode w = withReservedZero w i.fieldBits (i.withFields w) := by
  rw [decode, h]
  cases i <;> rfl

/-- A command has the opcode of its row; the last arm of the decoder, a reserved opcode, gives none. -/
theorem opcodeOf_of_decode (h : decode w = .ok i) : opcodeOf w = i.row.opcode := by
  unfold decode at h
  split at h
  case h_21 => cases h
  all_goals
    obtain ⟨-, rfl⟩ := withReservedZero_ok h
    assumption

/-- A word is a command exactly when it has the opcode of the command's row, no reserved bit and the command's fields. -/
theorem decode_eq_ok_iff : decode w = .ok i ↔ opcodeOf w = i.row.opcode ∧ bitField w 23 i.fieldBits = 0 ∧ i.withFields w = i := by
  constructor
  · intro h
    have hop := opcodeOf_of_decode h
    rw [decode_of_opcode hop] at h
    obtain ⟨hzero, hfields⟩ := withReservedZero_ok h
    exact ⟨hop, hzero, hfields.symm⟩
  · rintro ⟨hop, hzero, hfields⟩
    rw [decode_of_opcode hop, withReservedZero_of_zero hzero, hfields]

/-- Decoding and encoding are inverse to each other on the well-formed commands (30_encoding.md R111, R113, R118). -/
theorem decode_eq_ok_iff_encode : decode w = .ok i ↔ i.wf = true ∧ encode i = w := by
  constructor
  · rw [decode_eq_ok_iff]
    rintro ⟨hop, hzero, hfields⟩
    refine ⟨hfields ▸ i.wf_withFields w, ?_⟩
    calc encode i = encode (i.withFields w) := by rw [hfields]
      _ = commandWord (opcodeOf w) (w.toNat % 2 ^ i.fieldBits) := by rw [Instr.encode_withFields, hop]
      _ = w := commandWord_of_reserved i.fieldBits_le hzero
  · rintro ⟨hwf, rfl⟩
    obtain ⟨imm, himm, heq⟩ := Instr.encode_eq_commandWord hwf
    have himm' : imm < 2 ^ 24 := Nat.lt_of_lt_of_le himm (Nat.pow_le_pow_right (by decide) i.fieldBits_le)
    refine decode_eq_ok_iff.mpr ⟨?_, ?_, Instr.withFields_encode hwf⟩
    · rw [heq, opcodeOf_commandWord i.opcode_lt himm']
    · rw [heq, bitField_commandWord_above i.opcode_lt i.fieldBits_le himm]

/-! ### The opcode map (30_encoding.md R114) -/

/-- A command's word agrees with the command's row under the row's mask. -/
theorem and_mask_of_decode (h : decode w = .ok i) : w &&& i.row.mask = i.row.matchWord := by
  obtain ⟨hwf, rfl⟩ := decode_eq_ok_iff_encode.mp h
  obtain ⟨imm, himm, heq⟩ := Instr.encode_eq_commandWord hwf
  rw [heq, i.row_mask, i.row_matchWord, commandWord_mask _ _ _ i.fieldBits_le himm, commandWord, Nat.add_zero]

/-- A row's mask covers every bit field above the row's field bits. -/
theorem bitField_and_mask {hi lo : Nat} (hhi : hi < 32) (hlo : i.fieldBits ≤ lo) :
    bitField (w &&& i.row.mask) hi lo = bitField w hi lo := by
  refine Machine.bitField_and fun j hj => ?_
  rw [i.row_mask, BitVec.getLsbD_shiftLeft, BitVec.getLsbD_allOnes]
  simp only [Bool.and_eq_true, Bool.not_eq_true', decide_eq_true_eq, decide_eq_false_iff_not]
  omega

/-- A word that agrees with a row under the row's mask is a command of that row. -/
theorem decode_of_and_mask (h : w &&& i.row.mask = i.row.matchWord) : decode w = .ok (i.withFields w) := by
  have hop : opcodeOf w = i.row.opcode := by
    rw [opcodeOf, ← bitField_and_mask (i := i) (by decide) (Nat.le_trans i.fieldBits_le (by decide)), h, i.row_matchWord]
    exact opcodeOf_commandWord i.opcode_lt (by decide)
  have hzero : bitField w 23 i.fieldBits = 0 := by
    rw [← bitField_and_mask (i := i) (by decide) (Nat.le_refl _), h, i.row_matchWord]
    exact bitField_commandWord_above i.opcode_lt i.fieldBits_le (Nat.two_pow_pos _)
  rw [decode_of_opcode hop, withReservedZero_of_zero hzero]

/-- The table of the statements is the model's opcode map. -/
theorem opcodeTable_eq : Claim.opcodeTable = opcodeMap.map fun row => (row.matchWord, row.mask) := rfl

theorem row_mem_opcodeTable (i : Instr) : (i.row.matchWord, i.row.mask) ∈ Claim.opcodeTable := by
  refine opcodeTable_eq ▸ List.mem_map_of_mem (f := fun row : OpcodeRow => (row.matchWord, row.mask)) ?_
  cases i <;> simp [opcodeMap, Instr.row]

theorem exists_row_of_mem {p : Word × Word} (h : p ∈ Claim.opcodeTable) : ∃ i : Instr, p = (i.row.matchWord, i.row.mask) := by
  simp only [opcodeTable_eq, opcodeMap, ← List.map_append, List.map_map, List.mem_map] at h
  obtain ⟨i, -, rfl⟩ := h
  exact ⟨i, rfl⟩

/-- A word is a command exactly when it agrees with a row (30_encoding.md R113, R114). -/
theorem decodes_iff_agrees : (∃ i, decode w = .ok i) ↔ ∃ row ∈ Claim.opcodeTable, w &&& row.2 = row.1 := by
  constructor
  · rintro ⟨i, h⟩
    exact ⟨_, row_mem_opcodeTable i, and_mask_of_decode h⟩
  · rintro ⟨p, hp, hagree⟩
    obtain ⟨i, rfl⟩ := exists_row_of_mem hp
    exact ⟨_, decode_of_and_mask hagree⟩

/-- Any two rows have different matches where both their masks look. -/
theorem opcodeTable_pairwise : Claim.opcodeTable.Pairwise fun a b => a.1 &&& b.2 ≠ b.1 &&& a.2 := by decide

/-- Two rows that one word agrees with have equal matches where both their masks look. -/
theorem match_eq_of_agrees {a b : Word × Word} (ha : w &&& a.2 = a.1) (hb : w &&& b.2 = b.1) : a.1 &&& b.2 = b.1 &&& a.2 := by
  rw [← ha, ← hb, BitVec.and_assoc, BitVec.and_assoc, BitVec.and_comm a.2]

end

end Sys2Proof

namespace Sys2Proof.Machine

/-- A pending word that is no command ends with ILLEGAL_COMMAND and does nothing else (30_encoding.md R113, R115). -/
theorem engineStep_of_illegal {w : Word} (h : ∀ i, decode w ≠ .ok i) (s : State) :
    s.engineStep w = .next (Claim.failed s .illegalCommand) := by
  unfold State.engineStep
  split
  · exact absurd ‹_› (h _)
  · rfl

end Sys2Proof.Machine
end

section
/-! O1 to O4: words and commands. -/

namespace Sys2Proof.Proofs

open Sys2Proof.Machine Sys2Proof.Claim

/-- Settles O1: the word of a well-formed command has the opcode of the command's row, no reserved bit and the command's fields. -/
theorem decodeOfEncode : Obligations.DecodeOfEncode := by
  intro i hwf
  have h : decode (encode i) = .ok i := decode_eq_ok_iff_encode.mpr ⟨hwf, rfl⟩
  refine ⟨h, ?_⟩
  rw [decodeTableWord_eq, Nat.mod_eq_of_lt (encode i).isLt, BitVec.ofNat_toNat, BitVec.setWidth_eq, h]
  rfl

/-- Settles O2: a word without reserved bits is its opcode over its fields, which is how the command is assembled. -/
theorem encodeOfDecode : Obligations.EncodeOfDecode := fun _ _ h => decode_eq_ok_iff_encode.mp h

/-- Settles O3: agreeing with a row fixes the opcode and the reserved bits, and the rows differ where their masks overlap. -/
theorem opcodeMapDecidesDecoding : Obligations.OpcodeMapDecidesDecoding := by
  refine ⟨fun w => decodes_iff_agrees, fun w i h => ⟨and_mask_of_decode h, row_mem_opcodeTable i⟩, ?_, fun w s hno => ?_⟩
  · exact opcodeTable_pairwise.imp fun hne w ⟨ha, hb⟩ => hne (match_eq_of_agrees ha hb)
  · refine engineStep_of_illegal (fun i hi => ?_) s
    obtain ⟨row, hrow, hagree⟩ := decodes_iff_agrees.mp ⟨i, hi⟩
    exact hno row hrow hagree

/-- Settles O4: the opcodes and the fields of five words, computed. -/
theorem writtenWordsDecode : Obligations.WrittenWordsDecode :=
  ⟨by decide, by decide, by decide, by decide, by decide⟩

end Sys2Proof.Proofs
end

section
/-! The steps in which the engine moves, and how a command ends (40_control.md R143, 30_encoding.md R117). -/

namespace Sys2Proof.Machine

variable {s t : State} {w : Word} {i : Instr} {rest : List HostEvent}

/-! ### How a command ends -/

/-- How the engine's step leaves the machine, whatever it ran (40_control.md R143, 60_exceptions.md R381). -/
structure CommandEnd (s t : State) : Prop where
  pending : t.pending = none
  host : t.host = s.host
  status : t.regs.status = s.regs.status.completed ∨ ∃ code, t.regs.status = s.regs.status.failed code

namespace CommandEnd

theorem busy (h : CommandEnd s t) : t.regs.status.busy = false := by
  obtain hst | ⟨code, hst⟩ := h.status <;> rw [hst]
  · exact Status.completed_busy _
  · exact Status.failed_busy _ code

theorem done_or_err (h : CommandEnd s t) : t.regs.status.done = true ∨ t.regs.status.err = true := by
  obtain hst | ⟨code, hst⟩ := h.status <;> rw [hst]
  · exact .inl (Status.completed_done _)
  · exact .inr (Status.failed_err _ code)

theorem lastop (h : CommandEnd s t) : t.regs.status.lastop = s.regs.status.lastop := by
  obtain hst | ⟨code, hst⟩ := h.status <;> rw [hst]
  · exact Status.completed_lastop _
  · exact Status.failed_lastop _ code

end CommandEnd

theorem raiseError_commandEnd (s : State) (code : ErrorCode) : CommandEnd s (s.raiseError code) := ⟨rfl, rfl, .inr ⟨code, rfl⟩⟩

/-- A command leaves the host's list alone if its effect does. -/
theorem command_host {checks : List (Bool × ErrorCode)} {effect : State → State} (h : s.command checks effect = .next t)
    (heffect : (∀ c ∈ checks, c.1 = false) → (effect s).host = s.host) : t.host = s.host := by
  obtain ⟨code, -, rfl⟩ | ⟨hnone, rfl⟩ := command_cases h
  · rfl
  · exact heffect ((firstFailing_eq_none checks).mp hnone)

theorem appendAll_host (s : State) (bits : List Bool) : (s.appendAll bits).host = s.host := by
  obtain ⟨-, -, hhost, -⟩ := appendAll_frame s bits
  exact hhost

theorem writeStrided_host (stride pos : Nat) (bytes : List Byte) (s : State) :
    (State.writeStrided stride pos bytes s).host = s.host := by
  obtain ⟨-, -, hhost, -⟩ := writeStrided_frame stride pos bytes s
  exact hhost

/-- No command touches what the host does next. -/
theorem exec_host (h : exec i s = .next t) : t.host = s.host := by
  cases i <;> dsimp only [exec, execRsEncode, execEccQr] at h
  case nop | gridClear | bsClear | bsToCw | cwPadDm | gfAdd | gfMul | gfDiv | gfInv | gfExp | gfLog | rsGenpoly | eccDm | eccQr
      | qrLayout =>
    exact command_host h fun _ => rfl
  case bsAppend => exact command_host h fun _ => by rw [appendBits_eq, appendAll_host]
  case bsAppendBytes => exact command_host h fun _ => by rw [appendBytes_eq, appendAll_host]
  case bsPadQr =>
    refine command_host h fun hpass => ?_
    simp only [List.forall_mem_cons, Bool.or_eq_false_iff, decide_eq_false_iff_not, not_lt, ne_eq, not_not] at hpass
    obtain ⟨⟨h8, hcap⟩, hle, -⟩ := hpass
    rw [padQr_eq_appendAll h8 hcap hle, appendAll_host]
  case rsEncode => exact command_host h fun _ => by rw [State.setGen_host, writeStrided_host]
  case dmLayout =>
    refine command_host h fun _ => ?_
    cases s.dmEntry <;> rfl

/-- Every command ends with `PENDING` empty and `STATUS` completed or failed. -/
theorem exec_commandEnd (h : exec i s = .next t) : CommandEnd s t := by
  have hhost := exec_host h
  obtain ⟨code, rfl⟩ | ⟨u, rfl, hregs, -⟩ := exec_frame h
  · exact raiseError_commandEnd s code
  · exact ⟨rfl, hhost, .inl (congrArg Status.completed hregs.status)⟩

theorem engineStep_of_decode (h : decode w = .ok i) (s : State) : s.engineStep w = exec i s := by
  rw [State.engineStep, h]

/-- The engine's step goes on, and ends the pending command, whether its word is one or not. -/
theorem engineStep_commandEnd (s : State) (w : Word) : ∃ t, s.engineStep w = .next t ∧ CommandEnd s t := by
  cases hd : decode w with
  | ok i =>
    obtain ⟨t, ht⟩ := exec_continues i s
    exact ⟨t, (engineStep_of_decode hd s).trans ht, exec_commandEnd ht⟩
  | error e =>
    exact ⟨_, engineStep_of_illegal (by simp [hd]) s, raiseError_commandEnd s .illegalCommand⟩

/-! ### The steps in which the engine moves -/

/-- With a command pending a step is one turn. -/
theorem step_of_pending (hp : s.pending = some w) : step s = advanceResult s.turn := by
  simp [step, State.exhausted, hp]

theorem engineTurn_of_pending (hp : s.pending = some w) : s.engineTurn = s.engineStep w := by
  rw [State.engineTurn, hp]

/-- The engine moves at its entry in the host's list (log 1). -/
theorem step_engine (hp : s.pending = some w) (hh : s.host = .engine :: rest) :
    step s = advanceResult (({ s with host := rest }).engineStep w) := by
  rw [step_of_pending hp, State.turn, hh]
  exact congrArg advanceResult (engineTurn_of_pending (s := { s with host := rest }) hp)

/-- The engine moves when the host does nothing more (log 2). -/
theorem step_host_nil (hp : s.pending = some w) (hh : s.host = []) : step s = advanceResult (s.engineStep w) := by
  rw [step_of_pending hp, State.turn, hh]
  exact congrArg advanceResult (engineTurn_of_pending hp)

/-- The engine moves behind a poll that reads `BUSY = 1` (log 15). -/
theorem step_wait_busy (hp : s.pending = some w) (hbusy : s.regs.status.busy = true) (hh : s.host = .wait :: rest) :
    step s = advanceResult (({ s with resp := some (s.busRead 0x008 .four) }).engineStep w) := by
  have hturn : s.turn = s.poll.engineTurn := by
    rw [State.turn, hh]
    exact if_pos hbusy
  rw [step_of_pending hp, hturn, engineTurn_of_pending (s := s.poll) hp]
  rfl

/-- A poll that reads `BUSY = 0` ends the `WAIT` (30_encoding.md R117). -/
theorem step_wait_idle (hidle : s.regs.status.busy = false) (hh : s.host = .wait :: rest) :
    step s = .next { s with host := rest, resp := some ⟨false, s.regs.status.word⟩, draws := s.draws + 1 } := by
  have hpoll : ({ s with host := rest }).poll = { s with host := rest, resp := some ⟨false, s.regs.status.word⟩ } :=
    congrArg (fun r => { s with host := rest, resp := some r })
      (busRead_offset_of_not_output { s with host := rest } (r := .status) (by decide))
  rw [step_of_host hh, State.turn, hh]
  simp only [hidle, hpoll]
  rfl

/-! ### Command start, as a step -/

/-- With the engine idle a host write to `CMD` starts the command (40_control.md R140). -/
theorem step_cmd_write (hidle : s.regs.status.busy = false) (hh : s.host = .access (.write 0x00C .four w) :: rest) :
    step s = .next { s.start w with host := rest, resp := some ⟨false, 0⟩, draws := s.draws + 1 } := by
  have hstart : ({ s with host := rest }).writeReg .cmd w = ({ s with host := rest }).start w := by
    simp [State.writeReg, hidle, State.writeRegIdle]
  have haccess := hostAccess_write_offset { s with host := rest } .cmd w
  rw [hstart] at haccess
  rw [step_of_host hh, State.turn, hh]
  exact congrArg advanceResult haccess

/-- `LASTOP` after a command start is the opcode, bits [31:24] of the word (10_state.md R33). -/
theorem start_lastop (s : State) (w : Word) : (s.start w).regs.status.lastop = w.extractLsb' 24 8 := by
  rw [State.start_regs, Status.started_lastop, opcodeOf, bitField_eq_extract w 24 8 (by decide), BitVec.ofNat_toNat, BitVec.setWidth_eq]

/-! ### The end of a run (20_memory.md R99) -/

theorem noCmdWrite_of_noCommandWrite {e : HostEvent} (h : Claim.NoCommandWrite e) : e.noCmdWrite = true := by
  cases e with
  | engine | wait | check => rfl
  | access a =>
    cases a with
    | read off n => rfl
    | write off n v =>
      by_contra hcmd
      simp only [HostEvent.noCmdWrite, BusAccess.isCmdWrite, Bool.not_eq_true', Bool.not_eq_false, Bool.and_eq_true, beq_iff_eq] at hcmd
      obtain ⟨rfl, rfl⟩ := hcmd
      exact h v rfl

/-- An idle state with no write to `CMD` ahead is the end of a run. -/
theorem ended_of_noCommandWrite (hidle : Claim.Idle s) (h : ∀ e ∈ s.host, Claim.NoCommandWrite e) : s.ended = true := by
  have hahead : State.cmdAhead s.host s = false :=
    cmdAhead_false (List.all_eq_true.mpr fun e he => noCmdWrite_of_noCommandWrite (h e he)) s
  simp [State.ended, hidle.1, hidle.2, hahead]

theorem ended_eq_false_of_busy (h : s.regs.status.busy = true) : s.ended = false := by
  simp [State.ended, h]

theorem ended_eq_false_of_cmd_write (hh : s.host = .access (.write 0x00C .four w) :: rest) : s.ended = false := by
  have hcmd : (BusAccess.write 0x00C .four w).isCmdWrite = true := rfl
  simp [State.ended, hh, State.cmdAhead, hcmd]

theorem runEnd_of_ended (h : s.ended = true) (fuel : Nat) : State.runEnd fuel s = some s := by
  cases fuel <;> exact if_pos h

theorem runEnd_of_step (h : s.ended = false) (hstep : step s = .next t) (fuel : Nat) :
    State.runEnd (fuel + 1) s = State.runEnd fuel t := by
  simp [State.runEnd, h, hstep]

end Sys2Proof.Machine
end

section
/-! O6 and O8: the engine's step on a word that is no command, and `WAIT`. -/

namespace Sys2Proof.Proofs

open Sys2Proof.Machine Sys2Proof.Claim

/-- Settles O6: wherever the engine moves, its step on a word that is no command is the error. -/
theorem stepOnIllegalWord : Obligations.StepOnIllegalWord := by
  intro s w rest hp hnone
  have hill : ∀ i, decode w ≠ .ok i := fun i hi => by simp [hi, Except.toOption] at hnone
  refine ⟨fun hh => ?_, fun hh => ?_, fun hbusy hh => ?_⟩
  · rw [step_engine hp hh, engineStep_of_illegal hill]
    rfl
  · rw [step_host_nil hp hh, engineStep_of_illegal hill]
    rfl
  · rw [step_wait_busy hp hbusy hh, engineStep_of_illegal hill]
    rfl

theorem exists_pending_of_busy {s : State} (hinv : s.Inv) (hbusy : s.regs.status.busy = true) : ∃ w, s.pending = some w := by
  obtain ⟨-, -, -, ⟨hpend, -⟩, -⟩ := hinv
  exact Option.ne_none_iff_exists'.mp fun hnone => by simp [hpend.mp hnone] at hbusy

/-- While a command runs a `WAIT` takes two steps: the engine ends the command, and the next poll reads `BUSY = 0`. -/
theorem wait_busy_ends {s : State} {rest : List HostEvent} (hinv : s.Inv) (hbusy : s.regs.status.busy = true)
    (hh : s.host = .wait :: rest) :
    ∃ u, step s = .next u.advance ∧ CommandEnd s u ∧
      step u.advance = .next { u with host := rest, resp := some ⟨false, u.regs.status.word⟩, draws := u.draws + 2 } := by
  obtain ⟨w, hp⟩ := exists_pending_of_busy hinv hbusy
  obtain ⟨u, hu, hend⟩ := engineStep_commandEnd { s with resp := some (s.busRead 0x008 .four) } w
  refine ⟨u, ?_, ⟨hend.pending, hend.host, hend.status⟩, step_wait_idle (s := u.advance) hend.busy (hend.host.trans hh)⟩
  rw [step_wait_busy hp hbusy hh, hu]
  rfl

/-- A run whose last write to `CMD` is followed by a `WAIT` ends with the engine's step on the command word. -/
theorem run_of_cmd_wait {s : State} {w : Word} {rest : List HostEvent} (hidle : s.regs.status.busy = false)
    (hh : s.host = .access (.write 0x00C .four w) :: .wait :: rest) (hrest : ∀ e ∈ rest, NoCommandWrite e) :
    ∃ u v : State, u.regs = (s.start w).regs ∧ u.pending = some w ∧ u.mem = s.mem ∧ u.holes = s.holes ∧ u.host = .wait :: rest
      ∧ u.engineStep w = .next v ∧ CommandEnd u v ∧ s.runEnd 2 = some v.advance := by
  obtain ⟨s1, hstart, hregs, hpend, hmem, hholes, hhost⟩ : ∃ s1, step s = .next s1 ∧ s1.regs = (s.start w).regs ∧ s1.pending = some w
      ∧ s1.mem = s.mem ∧ s1.holes = s.holes ∧ s1.host = .wait :: rest :=
    ⟨_, step_cmd_write hidle hh, rfl, rfl, rfl, rfl, rfl⟩
  have hbusy : s1.regs.status.busy = true := by rw [hregs, State.start_regs, Status.started_busy]
  obtain ⟨v, hv, hend⟩ := engineStep_commandEnd { s1 with resp := some (s1.busRead 0x008 .four) } w
  have hrun : step s1 = .next v.advance := by
    rw [step_wait_busy hpend hbusy hhost, hv]
    rfl
  have hended : v.advance.ended = true := by
    refine ended_of_noCommandWrite ⟨hend.busy, hend.pending⟩ fun e he => ?_
    rw [State.advance_host, hend.host, hhost, List.mem_cons] at he
    obtain rfl | he := he
    · exact nofun
    · exact hrest e he
  refine ⟨{ s1 with resp := some (s1.busRead 0x008 .four) }, v, hregs, hpend, hmem, hholes, hhost, hv, hend, ?_⟩
  rw [runEnd_of_step (ended_eq_false_of_cmd_write hh) hstart, runEnd_of_step (ended_eq_false_of_busy hbusy) hrun,
    runEnd_of_ended hended]

/-- Settles O8: a poll ends an idle `WAIT`, the engine's step comes before it in a busy one, and the run of a command stops behind that
step. -/
theorem waitEnds : Obligations.WaitEnds := by
  refine ⟨fun s rest hinv hh => ⟨fun hidle => ?_, fun hbusy => ?_⟩, fun s w rest _ hidle hh hrest => ?_, fun s hidle hno => ?_⟩
  · obtain ⟨hbusy0, -⟩ := s.regs.status.word_bits
    exact ⟨_, _, step_wait_idle hidle hh, rfl, rfl, rfl, rfl, rfl, hbusy0.trans hidle⟩
  · obtain ⟨u, hstep, hend, hpoll⟩ := wait_busy_ends hinv hbusy hh
    obtain ⟨hbit0, hbit1, hbit2, -⟩ := u.regs.status.word_bits
    exact ⟨u.advance, _, _, hstep, hpoll, hend.busy, hend.done_or_err, rfl, rfl, rfl, rfl, rfl, hbit0.trans hend.busy, hbit1, hbit2⟩
  · obtain ⟨u, v, hregs, hpend, hmem, hholes, hhost, hstep, hend, hrun⟩ := run_of_cmd_wait hidle hh hrest
    refine ⟨v.advance, hrun, ⟨hend.busy, hend.pending⟩, hend.done_or_err, ?_, hend.host.trans hhost, fun i hd => ?_⟩
    · rw [State.advance_regs, hend.lastop, hregs, start_lastop]
    · exact ⟨u, v, hregs, hpend, hmem, hholes, (engineStep_of_decode hd u).symm.trans hstep, rfl⟩
  · exact runEnd_of_ended (ended_of_noCommandWrite hidle hno) 0

end Sys2Proof.Proofs
end

section
/-! How a command's statement is met from its checks and its effect (40_control.md R143, 60_exceptions.md R382): its encoding, the order of
its causes, and its completion with the frame of its effect. -/

namespace Sys2Proof.Machine

open Claim (Encoded Ends Succeeds HoldsCell)

/-! ### The encoding of a command (30_encoding.md R111, R113) -/

theorem fieldBits_lt (i : Instr) : i.fieldBits < 24 := by cases i <;> simp [Instr.fieldBits]

/-- With a reserved bit 1 a word of a row's opcode is no command. -/
theorem decode_ne_ok_of_reserved {w : Word} {i : Instr} (hop : opcodeOf w = i.row.opcode) (h : bitField w 23 i.fieldBits ≠ 0) (j : Instr) :
    decode w ≠ .ok j := by
  rw [decode_of_opcode hop, withReservedZero_of_nonzero h]
  exact nofun

/-- Every row of the opcode map is encoded as its opcode over its field bits. -/
theorem encoded_of_row (i : Instr) {command : Word → Instr} (hcommand : ∀ w, i.withFields w = command w) :
    Encoded i.row.opcode i.fieldBits command := by
  intro w hop
  have hlt := fieldBits_lt i
  have hopcode : opcodeOf w = i.row.opcode := (bitField_eq_extract w 24 8 (by decide)).trans hop
  have hreserved : Claim.field w i.fieldBits (24 - i.fieldBits) = bitField w 23 i.fieldBits := by
    rw [Claim.field, ← bitField_eq_extract w _ _ (by omega)]
    congr 1
    omega
  rw [hreserved]
  refine ⟨fun hzero => ?_, fun hne => ⟨?_, engineStep_of_illegal (decode_ne_ok_of_reserved hopcode hne)⟩⟩
  · rw [decode_of_opcode hopcode, withReservedZero_of_zero hzero, hcommand]
  · rw [decode_of_opcode hopcode, withReservedZero_of_nonzero hne]
    rfl

/-- A word that the table's decoder reads as a command is that command's word. -/
theorem decode_of_decodeTableWord {nbits n : Nat} {i : Instr} (h : decodeTableWord nbits n = some i) :
    decode (tableWord nbits n) = .ok i := by
  rw [decodeTableWord_eq, ← tableWord] at h
  cases hd : decode (tableWord nbits n) with
  | ok j =>
    rw [hd] at h
    exact congrArg Except.ok (Option.some.inj h)
  | error e =>
    rw [hd] at h
    cases h

/-! ### The order of a command's causes (60_exceptions.md R382) -/

/-- The check fails exactly when the cause holds, and gives the cause's code. -/
def TestedBy (cause : Prop × ErrorCode) (check : Bool × ErrorCode) : Prop := (check.1 = true ↔ cause.1) ∧ check.2 = cause.2

/-- A command whose checks test the causes in their order ends as they say, and otherwise in its completed effect. -/
theorem ends_of_command {i : Instr} {s : State} {checks : List (Bool × ErrorCode)} {effect : State → State}
    {causes : List (Prop × ErrorCode)} {done : State → Prop} (hexec : exec i s = s.command checks effect)
    (htests : List.Forall₂ TestedBy causes checks) (hdone : (∀ c ∈ causes, ¬ c.1) → done (effect s).complete) : Ends i s causes done := by
  induction htests with
  | nil => exact ⟨_, hexec, hdone nofun⟩
  | @cons cause check causes checks htest _ ih =>
    obtain ⟨fails, code⟩ := check
    obtain ⟨hiff, rfl⟩ := htest
    refine ⟨fun hcause => ?_, fun hno => ?_⟩
    · obtain rfl : fails = true := hiff.mpr hcause
      exact hexec
    · obtain rfl : fails = false := by simpa using mt hiff.mp hno
      exact ih hexec fun hrest => hdone (List.forall_mem_cons.mpr ⟨hno, hrest⟩)

/-! ### Completion (40_control.md R143) -/

/-- A completed effect succeeds: its registers are the update, and only stored bytes have changed. -/
theorem succeeds_complete {s u : State} {update : Regs → Regs} {stored : Nat → Prop}
    (hregs : u.complete.regs = update s.complete.regs) (hhost : u.host = s.host) (hresp : u.resp = s.resp) (hdraws : u.draws = s.draws)
    (hbytes : ∀ off, ¬ stored off → u.mem.lookup off = s.mem.lookup off ∧ u.holes.lookup off = s.holes.lookup off) :
    Succeeds s u.complete update stored := by
  refine ⟨hregs, rfl, hhost, hresp, hdraws, fun off hout => ?_⟩
  obtain ⟨hmem, hholes⟩ := hbytes off hout
  exact ⟨hmem, hholes, readByte_congr hmem hholes hdraws⟩

/-! ### What a grid write stores (20_memory.md R85) -/

/-- A grid write leaves every module of both maps defined and as given. -/
theorem holdsCell_setGrid (s : State) (rows cols : Nat) (grid resv : Nat → Nat → Bool) {r c : Nat} (hr : r < 256) (hc : c < 256) :
    HoldsCell (s.setGrid rows cols grid resv) r c (grid r c) (resv r c) := by
  obtain ⟨dark, hdark, hdarkBit⟩ := Option.map_eq_some_iff.mp (lookup_setGrid_grid s rows cols grid resv r c hr hc)
  obtain ⟨res, hres, hresBit⟩ := Option.map_eq_some_iff.mp (lookup_setGrid_resv s rows cols grid resv r c hr hc)
  have hholes (off : Nat) (hin : 0x4000 ≤ off ∧ off < 0x8000) : (s.setGrid rows cols grid resv).holes.lookup off = none := by
    rw [holes_setGrid, if_pos hin]
  exact ⟨⟨dark, ⟨hdark, hholes _ (by omega)⟩, hdarkBit⟩, ⟨res, ⟨hres, hholes _ (by omega)⟩, hresBit⟩⟩

/-- A grid write succeeds with `GRID_DIM` set and no byte outside `GRID` and `RESV` changed. -/
theorem succeeds_setGrid (s : State) (rows cols : Nat) (grid resv : Nat → Nat → Bool) :
    Succeeds s (s.setGrid rows cols grid resv).complete
      (fun g => { g with gridDim := ⟨BitVec.ofNat 8 rows, BitVec.ofNat 8 cols⟩ }) Claim.inGridOrResv := by
  refine succeeds_complete rfl rfl rfl rfl fun off hout => ⟨lookup_setGrid_outside s rows cols grid resv off (by omega), ?_⟩
  rw [holes_setGrid, if_neg hout]

/-- GRID_CLEAR is one check and a grid write of two empty maps (40_control.md R142). -/
theorem exec_gridClear (rows cols : Nat) (s : State) : exec (.gridClear rows cols) s
    = s.command [(decide (rows = 0) || decide (cols = 0), .argRange)] (·.setGrid rows cols (fun _ _ => false) (fun _ _ => false)) := rfl

end Sys2Proof.Machine
end

section
/-! What can set `DONE` (40_control.md R144): no host access, and of the engine's turns only the completion of a command. -/

namespace Sys2Proof.Machine

variable {s t : State}

theorem writeReg_idle (h : s.regs.status.busy = false) (r : Reg) (v : Word) : s.writeReg r v = s.writeRegIdle r v := by
  rw [State.writeReg, h, if_neg (by decide)]

theorem writeReg_busy (h : s.regs.status.busy = true) (r : Reg) (v : Word) : s.writeReg r v = s.writeRegBusy r v := by
  rw [State.writeReg, h, if_pos rfl]

/-! ### Host accesses -/

/-- A register store leaves `STATUS` alone. -/
@[simp] theorem store_status (g : Regs) (r : Reg) (v : Word) : (g.store r v).status = g.status := by cases r <;> rfl

theorem done_of_acknowledge {v : Word} (h : (s.acknowledge v).regs.status.done = true) : s.regs.status.done = true := by
  rw [State.acknowledge_regs, Status.acknowledged_done, Bool.and_eq_true] at h
  exact h.1

theorem done_of_writeCtrl {v : Word} (h : (s.writeCtrl v).regs.status.done = true) : s.regs.status.done = true := by
  cases hv : v.getLsbD 1 with
  | false =>
    rw [writeCtrl_of_no_reset hv] at h
    exact h
  | true =>
    rw [writeCtrl_of_reset hv, State.softReset_regs] at h
    cases h

theorem done_of_writeReg {r : Reg} {v : Word} (h : (s.writeReg r v).regs.status.done = true) : s.regs.status.done = true := by
  cases hbusy : s.regs.status.busy with
  | false =>
    rw [writeReg_idle hbusy] at h
    cases r with
    | cmd => cases h
    | ctrl => exact done_of_writeCtrl h
    | status => exact done_of_acknowledge h
    | _ => exact h
  | true =>
    rw [writeReg_busy hbusy] at h
    cases r with
    | ctrl => exact done_of_writeCtrl h
    | status => exact done_of_acknowledge h
    | _ => exact h

theorem done_of_busWrite {off : Nat} {n : Width} {v : Word} (h : (s.busWrite off n v).regs.status.done = true) :
    s.regs.status.done = true := by
  unfold State.busWrite at h
  split at h
  · exact h
  · split at h
    · exact done_of_writeReg h
    · split at h
      · exact h
      · split at h <;> exact h

/-- No host access sets `DONE`. -/
theorem done_of_access {a : BusAccess} (h : (s.access a).regs.status.done = true) : s.regs.status.done = true := by
  cases a with
  | read off n => exact h
  | write off n v => exact done_of_busWrite h

/-! ### The engine -/

/-- From `s` to `t` the pending command has completed without an error. -/
def CompletesPending (s t : State) : Prop :=
  ∃ w i, s.pending = some w ∧ decode w = .ok i ∧ t.pending = none ∧ t.regs.status.busy = false
    ∧ t.regs.status.err = s.regs.status.err

/-- A command that ends with `DONE` has completed, and `ERR` is as before. -/
theorem CommandEnd.err_of_done (h : CommandEnd s t) (hdone : t.regs.status.done = true) : t.regs.status.err = s.regs.status.err := by
  obtain hst | ⟨code, hst⟩ := h.status <;> rw [hst] at hdone ⊢
  · exact Status.completed_err _
  · cases hdone

/-- The engine's turn sets `DONE` only by completing the pending command. -/
theorem engineTurn_sets_done (h : s.engineTurn = .next t) (h0 : s.regs.status.done = false) (h1 : t.regs.status.done = true) :
    CompletesPending s t := by
  obtain ⟨-, rfl⟩ | ⟨w, hp, ⟨i, hd, hexec⟩ | ⟨-, rfl⟩⟩ := engineTurn_cases h
  · rw [h0] at h1
    cases h1
  · have hend := exec_commandEnd hexec
    exact ⟨w, i, hp, hd, hend.pending, hend.busy, hend.err_of_done h1⟩
  · cases h1

/-- A turn sets `DONE` only by completing the pending command: the other turns are host accesses. -/
theorem turn_sets_done (h : s.turn = .next t) (h0 : s.regs.status.done = false) (h1 : t.regs.status.done = true) :
    CompletesPending s t := by
  have haccess (host : List HostEvent) (a : BusAccess) (ht : t = ({ s with host }).access a) : CompletesPending s t := by
    have hdone : s.regs.status.done = true := done_of_access (s := { s with host }) (ht ▸ h1)
    rw [h0] at hdone
    cases hdone
  obtain ⟨a, rest, -, -, ht⟩ | ⟨rest, -, -, ht⟩ | ⟨rest, -, ht⟩ | ⟨rest, -, ht⟩ | ⟨rest, -, -, ht⟩ := turn_cases h
  · exact haccess _ a ht
  · exact haccess _ _ ht
  · exact haccess _ _ ht
  · exact engineTurn_sets_done (s := { s with host := rest }) ht h0 h1
  · exact engineTurn_sets_done (s := s.poll) ht h0 h1

end Sys2Proof.Machine
end

section
/-! O5, O13 and O16 to O18: command start, the engine's step and the control commands. -/

namespace Sys2Proof.Proofs

open Sys2Proof.Machine Sys2Proof.Claim

/-- Settles O13: the host's accesses never set `DONE`, an engine turn that sets it is a completion, and a command raises its error or
completes. -/
theorem doneRisesOnlyAtCompletion : Obligations.DoneRisesOnlyAtCompletion := by
  refine ⟨fun s t h h0 h1 => ?_, fun i s => ?_⟩
  · obtain ⟨-, rfl⟩ | ⟨-, u, hturn, rfl⟩ := step_cases h
    · rw [h0] at h1
      cases h1
    · exact turn_sets_done (t := u) hturn h0 h1
  · obtain ⟨t, ht⟩ := exec_continues i s
    refine ⟨t, ht, ?_⟩
    obtain ⟨code, rfl⟩ | ⟨u, rfl, -⟩ := exec_frame ht
    · exact .inr ⟨code, rfl⟩
    · exact .inl (Status.completed_done _)

/-- Settles O18: one check, and a grid write of two empty maps. -/
theorem gridClearClearsEveryModule : Obligations.GridClearClearsEveryModule := by
  refine ⟨encoded_of_row (.gridClear 0 0) fun w => ?_, fun rows cols s _ _ => ?_⟩
  · exact congrArg₂ Instr.gridClear (bitField_eq_extract w 0 8 (by decide)) (bitField_eq_extract w 8 8 (by decide))
  · refine ends_of_command (exec_gridClear rows cols s) (.cons ⟨by simp, rfl⟩ .nil) fun _ => ?_
    exact ⟨succeeds_setGrid s rows cols _ _, fun r c hr hc => holdsCell_setGrid s rows cols _ _ hr hc⟩

/-- Settles O5: wherever the engine moves its step is `exec` of the decoded word, and `withFetchWord` puts its entry first. -/
theorem stepRunsDecodedCommand : Obligations.StepRunsDecodedCommand := by
  refine ⟨fun s w i rest hp hh hd => ?_, fun s w i hp hh hd => ?_, fun s w i rest hp hbusy hh hd => ?_, fun s nbits w i hd => ?_,
    fun t => rfl⟩
  · rw [step_engine hp hh, engineStep_of_decode hd]
  · rw [step_host_nil hp hh, engineStep_of_decode hd]
  · rw [step_wait_busy hp hbusy hh, engineStep_of_decode hd]
  · have hstep : step (s.withFetchWord nbits w) = advanceResult ((s.start (tableWord nbits w)).engineStep (tableWord nbits w)) :=
      step_engine (s.withCommand_pending _) (s.withCommand_host _)
    rw [hstep, engineStep_of_decode (decode_of_decodeTableWord hd)]
    rfl

/-- Settles O16: a write to `CMD` is the command start when idle, and the dropped write when busy. -/
theorem commandStart : Obligations.CommandStart := by
  refine fun s w => ⟨fun hidle => ?_, fun hbusy => ?_⟩
  · have hw := writes_offset s .cmd w
    rw [writeReg_idle hidle] at hw
    rw [← start_lastop s w]
    exact hw
  · have hw := writes_offset s .cmd w
    rw [writeReg_busy hbusy] at hw
    exact hw

/-- Settles O17: NOP has no check and no effect. -/
theorem nopCompletes : Obligations.NopCompletes :=
  ⟨encoded_of_row .nop fun _ => rfl,
    fun _ => ⟨_, rfl, succeeds_complete rfl rfl rfl rfl fun _ _ => ⟨rfl, rfl⟩⟩,
    ⟨_, rfl, by decide⟩⟩

end Sys2Proof.Proofs
end

section
/-! What an append and a write of consecutive bytes leave, in the words of the statements (41_bitstream.md R160 to R170): the bits and bytes
they define, and their frame. -/

namespace Sys2Proof.Machine

open Claim (Holds HoldsBit Succeeds Appends)

/-! ### Appends -/

section

variable {s : State} {bits : List Bool} {n : Nat} (hlen : bits.length = n) (hcap : s.bsLenNat + n ≤ 32768)

include hlen hcap

/-- Every appended bit is defined, at its place behind the cursor. -/
theorem holdsBit_appendAll {i k : Nat} {b : Bool} (hi : i = s.bsLenNat + k) (hk : k < n) (hb : bits.getD k false = b) :
    HoldsBit (s.appendAll bits) i b := by
  subst hlen hi
  obtain ⟨v, hv⟩ := Option.isSome_iff_exists.mp (appendAll_marks s bits hcap (s.bsLenNat + k) (by omega) (by omega))
  have hdef := appendAll_defines s bits hcap (s.bsLenNat + k) (by omega) (by omega)
  have hbit := appendAll_streamBit s bits hcap (s.bsLenNat + k)
  rw [State.streamBit, State.elem, readByte_of_lookup hv hdef, if_pos (by omega), Nat.add_sub_cancel_left, hb] at hbit
  exact ⟨v, ⟨hv, hdef⟩, hbit⟩

/-- An append that completes has the frame of an append. -/
theorem appends_appendAll : Appends s (s.appendAll bits).complete n := by
  subst hlen
  obtain ⟨-, -, hhost, hresp, hdraws⟩ := appendAll_frame s bits
  refine ⟨succeeds_complete ?_ hhost hresp hdraws fun off hout => ?_, fun i hi => ?_⟩
  · rw [State.complete_regs, appendAll_regs s bits hcap]
    rfl
  · exact appendAll_outside s bits hcap off fun i hi hi' heq => hout ⟨i, hi, hi', heq⟩
  · have hi : i < s.bsLenNat ∨ s.bsLenNat + bits.length ≤ i := hi
    exact (appendAll_streamBit s bits hcap i).trans (if_neg (by omega))

end

/-- A byte of `BSB` is defined by its eight bits of the stream (10_state.md R52). -/
theorem holds_of_holdsBit {t : State} {k : Nat} {v : Byte} (h : ∀ j, j < 8 → HoldsBit t (8 * k + j) (v.getLsbD (7 - j))) :
    Holds t (0x3000 + k) v := by
  have hbyte (j : Nat) (hj : j < 8) : ∃ u, Holds t (0x3000 + k) u ∧ u.getLsbD (7 - j) = v.getLsbD (7 - j) := by
    have hbit := h j hj
    rwa [HoldsBit, show (8 * k + j) / 8 = k by omega, show (8 * k + j) % 8 = j by omega] at hbit
  obtain ⟨u, hu, -⟩ := hbyte 0 (by decide)
  suffices u = v from this ▸ hu
  refine BitVec.eq_of_getLsbD_eq fun i hi => ?_
  obtain ⟨u', hu', hbit⟩ := hbyte (7 - i) (by omega)
  obtain rfl : u' = u := Option.some.inj (hu'.1.symm.trans hu.1)
  rwa [show 7 - (7 - i) = i by omega] at hbit

/-! ### Writes of consecutive bytes -/

theorem holds_writeBytes (s : State) {off k : Nat} {bytes : List Byte} {v : Byte} (hv : bytes[k]? = some v) :
    Holds (s.writeBytes off bytes) (off + k) v := by
  obtain ⟨hk, rfl⟩ := List.getElem?_eq_some_iff.mp hv
  exact ⟨lookup_writeBytes_inside s off bytes k hk, holes_writeBytes_inside s off bytes k hk⟩

theorem writeBytes_outside (s : State) {off a : Nat} {bytes : List Byte} (h : ¬ (off ≤ a ∧ a < off + bytes.length)) :
    (s.writeBytes off bytes).mem.lookup a = s.mem.lookup a ∧ (s.writeBytes off bytes).holes.lookup a = s.holes.lookup a :=
  have hout : a < off ∨ off + bytes.length ≤ a := by omega
  ⟨lookup_writeBytes_outside s off bytes a hout, holes_writeBytes_outside s off bytes a hout⟩

/-- A write of codewords that sets `CW_LEN` and completes changes nothing else. -/
theorem succeeds_write_setCwLen (s : State) (off n : Nat) (bytes : List Byte) :
    Succeeds s ((s.writeBytes off bytes).setCwLen n).complete (fun g => { g with cwLen := BitVec.ofNat 13 n })
      (fun a => off ≤ a ∧ a < off + bytes.length) :=
  succeeds_complete rfl rfl rfl rfl fun _ hout => writeBytes_outside s hout

end Sys2Proof.Machine
end

section
/-! The commands of the packer as their checks and one append or one write (41_bitstream.md R161 to R170). -/

namespace Sys2Proof.Machine

/-! ### Checks -/

theorem testedBy_decide (p : Prop) [Decidable p] (code : ErrorCode) : TestedBy (p, code) (decide p, code) := ⟨decide_eq_true_iff, rfl⟩

theorem testedBy_or (p q : Prop) [Decidable p] [Decidable q] (code : ErrorCode) :
    TestedBy (p ∨ q, code) (decide p || decide q, code) := ⟨by simp, rfl⟩

theorem testedBy_and (p q : Prop) [Decidable p] [Decidable q] (code : ErrorCode) :
    TestedBy (p ∧ q, code) (decide p && decide q, code) := ⟨by simp, rfl⟩

/-! ### Commands -/

theorem exec_bsClear (s : State) :
    exec .bsClear s = .next ((s.writeBytes 0x3000 (List.replicate 4096 0)).setBsLen 0).complete := rfl

theorem exec_bsAppend (w : Nat) (s : State) : exec (.bsAppend w) s
    = s.command
        [(decide (w = 0) || decide (32 < w), .argRange), (decide (w < 32) && decide (2 ^ w ≤ s.arg0Nat), .valueRange),
         (decide (32768 < s.bsLenNat + w), .capacityExceeded)]
        (fun s => s.appendAll (bitsOf w s.regs.arg0)) := by
  simp only [← appendBits_eq]
  rfl

/-- The bytes that BS_APPEND_BYTES appends (41_bitstream.md R163). -/
def State.sourceBytes (s : State) (count : Nat) : List Byte := s.elems .cwb ((List.range count).map (s.arg0Nat + ·))

theorem sourceBytes_length (s : State) (count : Nat) : (s.sourceBytes count).length = count := by simp [State.sourceBytes]

theorem sourceBytes_getD (s : State) {count k : Nat} (hk : k < count) :
    (s.sourceBytes count).getD k 0 = s.readByte 0 (0x1000 + s.arg0Nat + k) := by
  simp [State.sourceBytes, State.elems, State.elem, Buffer.base, hk, Nat.add_assoc]

theorem exec_bsAppendBytes (count : Nat) (s : State) : exec (.bsAppendBytes count) s
    = s.command
        [(decide (4096 < s.arg0Nat + count), .argRange), (decide (32768 < s.bsLenNat + 8 * count), .capacityExceeded)]
        (fun s => s.appendAll (bitsOfBytes (s.sourceBytes count))) := by
  simp only [← appendBytes_eq]
  rfl

theorem exec_bsPadQr (s : State) : exec .bsPadQr s
    = s.command
        [(decide (s.arg0Nat % 8 ≠ 0) || decide (32768 < s.arg0Nat), .argRange), (decide (s.arg0Nat < s.bsLenNat), .capacityExceeded)]
        (fun s => s.padQr s.arg0Nat) := rfl

theorem exec_bsToCw (s : State) : exec .bsToCw s
    = s.command [(decide (s.bsLenNat % 8 ≠ 0), .alignment)]
        (fun s => (s.writeBytes 0x1000 (s.elems .bsb (List.range (s.bsLenNat / 8)))).setCwLen (s.bsLenNat / 8)) := rfl

theorem exec_cwPadDm (t : Nat) (s : State) : exec (.cwPadDm t) s
    = s.command [(decide (4096 < t), .argRange), (decide (t < s.cwLenNat), .capacityExceeded)]
        (fun s => (s.writeBytes (0x1000 + s.cwLenNat) (dmPadding s.cwLenNat t)).setCwLen t) := rfl

end Sys2Proof.Machine
end

section
/-! The bits and bytes that the padders append (41_bitstream.md R166 to R170), by their position. -/

namespace Sys2Proof.Machine

/-! ### BS_PAD_QR -/

/-- The number of the first pad byte that BS_PAD_QR appends: the byte boundary behind the terminator (41_bitstream.md R166). -/
def padQrStart (len cap : Nat) : Nat := (len + min 4 (cap - len) + 7) / 8

/-- BS_PAD_QR appends zero bits up to a byte boundary, and then pad bytes up to the capacity. -/
theorem padQrBits_eq (len cap : Nat) :
    padQrBits len cap
      = List.replicate (8 * padQrStart len cap - len) false ++ bitsOfBytes (padList 0 (cap / 8 - padQrStart len cap)) := by
  simp only [padQrBits, List.replicate_append_replicate, padQrStart, toBoundary]
  congr 3 <;> omega

theorem padQrStart_le {len cap : Nat} (h8 : cap % 8 = 0) (hle : len ≤ cap) :
    len ≤ 8 * padQrStart len cap ∧ 8 * padQrStart len cap ≤ cap := by
  rw [padQrStart]
  omega

/-- The terminator and the fill are zero bits. -/
theorem padQrBits_getD_zero {len cap i : Nat} (hi : len ≤ i) (hi' : i < 8 * padQrStart len cap) :
    (padQrBits len cap).getD (i - len) false = false := by
  have hlt : i - len < (List.replicate (8 * padQrStart len cap - len) false).length := by
    rw [List.length_replicate]
    omega
  rw [padQrBits_eq, List.getD_append _ _ _ _ hlt, List.getD_eq_getElem _ _ hlt, List.getElem_replicate]

/-- Behind them stand the pad bytes, the first of them at the boundary. -/
theorem padQrBits_getD_pad {len cap k j : Nat} (hlen : len ≤ 8 * padQrStart len cap) (hk : padQrStart len cap ≤ k)
    (hk' : k < cap / 8) (hj : j < 8) :
    (padQrBits len cap).getD (8 * k + j - len) false = (qrPadByte (k - padQrStart len cap)).getLsbD (7 - j) := by
  have hge : (List.replicate (8 * padQrStart len cap - len) false).length ≤ 8 * k + j - len := by
    rw [List.length_replicate]
    omega
  have hindex : 8 * k + j - len - (8 * padQrStart len cap - len) = 8 * (k - padQrStart len cap) + j := by omega
  rw [padQrBits_eq, List.getD_append_right _ _ _ _ hge, List.length_replicate, hindex, bitsOfBytes_getD _ _ _ hj]
  simp [padList, show k - padQrStart len cap < cap / 8 - padQrStart len cap by omega]

/-! ### CW_PAD_DM -/

theorem dmPadValue_toNat (p : Nat) : (dmPadValue p).toNat = Claim.padValue p := by
  simp only [dmPadValue, Claim.padValue]
  split <;> rw [BitVec.toNat_ofNat] <;> omega

theorem dmPadValue_eq (p : Nat) : dmPadValue p = BitVec.ofNat 8 (Claim.padValue p) := by
  rw [← dmPadValue_toNat, BitVec.ofNat_toNat, BitVec.setWidth_eq]

/-- Every filler is a codeword in 1 to 254, and it is 254 once in 253 positions (41_bitstream.md R169). -/
theorem padValue_range (p : Nat) : 1 ≤ Claim.padValue p ∧ Claim.padValue p ≤ 254 ∧ (Claim.padValue p = 254 ↔ p % 253 = 28) := by
  rw [Claim.padValue]
  split <;> omega

theorem dmPadding_getElem?_zero {l t : Nat} (h : l < t) : (dmPadding l t)[0]? = some 129 := by
  rw [dmPadding, if_pos h]
  rfl

theorem dmPadding_getElem?_filler {l t p : Nat} (hp : l + 1 ≤ p) (hpt : p < t) :
    (dmPadding l t)[p - l]? = some (dmPadValue (p + 1)) := by
  rw [dmPadding, if_pos (by omega), show p - l = p - (l + 1) + 1 by omega, List.getElem?_cons_succ, List.getElem?_map,
    List.getElem?_range (by omega), Option.map_some, show l + 1 + (p - (l + 1)) = p by omega]

end Sys2Proof.Machine
end

section
/-! One byte of `CWB` appended by BS_APPEND and by BS_APPEND_BYTES: both make the one check of the capacity, neither looks at `ARG0` while it
appends, and the bits are the same (41_bitstream.md R164). -/

namespace Sys2Proof.Machine

/-- `ARG0 <- v`. -/
def State.setArg0 (s : State) (v : Word) : State := { s with regs := { s.regs with arg0 := v } }

@[simp] theorem setArg0_bsLenNat (s : State) (v : Word) : (s.setArg0 v).bsLenNat = s.bsLenNat := rfl

theorem appendAll_setArg0 (s : State) (v : Word) (bits : List Bool) : (s.setArg0 v).appendAll bits = (s.appendAll bits).setArg0 v := by
  induction bits generalizing s with
  | nil => rfl
  | cons b bits ih => exact ih (s.appendBit b)

/-- The append of eight bits to a stream, with the check of the capacity. -/
def State.appendEight (s : State) (b : Byte) : Result :=
  s.command [(decide (32768 < s.bsLenNat + 8), .capacityExceeded)] (·.appendAll (bitsOf 8 (b.setWidth 32)))

theorem exec_bsAppend_eight {s : State} {b : Byte} (harg : s.regs.arg0 = b.setWidth 32) : exec (.bsAppend 8) s = s.appendEight b := by
  have hsmall : ¬ 256 ≤ s.arg0Nat := by
    rw [State.arg0Nat, harg, BitVec.toNat_setWidth]
    omega
  rw [exec_bsAppend]
  simp [State.command, State.appendEight, firstFailing, hsmall, harg]

theorem exec_bsAppendBytes_one {s : State} {b : Byte} (hsrc : s.arg0Nat < 4096) (hb : s.readByte 0 (0x1000 + s.arg0Nat) = b) :
    exec (.bsAppendBytes 1) s = s.appendEight b := by
  have hrange : ¬ 4096 < s.arg0Nat + 1 := by omega
  have hbits : bitsOfBytes (s.sourceBytes 1) = bitsOf 8 (b.setWidth 32) := by
    rw [← hb]
    exact List.append_nil _
  rw [exec_bsAppendBytes]
  simp [State.command, State.appendEight, firstFailing, hrange, hbits]

/-- The append ends in the same state whatever `ARG0` holds, apart from `ARG0`. -/
theorem appendEight_setArg0 (s : State) (b : Byte) : ∃ t : State, ∀ v, (s.setArg0 v).appendEight b = .next (t.setArg0 v) := by
  by_cases hfull : 32768 < s.bsLenNat + 8
  · refine ⟨s.raiseError .capacityExceeded, fun v => ?_⟩
    simp only [State.appendEight, State.command, firstFailing, setArg0_bsLenNat, hfull, decide_true, if_true]
    rfl
  · refine ⟨(s.appendAll (bitsOf 8 (b.setWidth 32))).complete, fun v => ?_⟩
    simp only [State.appendEight, State.command, firstFailing, setArg0_bsLenNat, hfull, decide_false, appendAll_setArg0]
    rfl

end Sys2Proof.Machine
end

section
/-! O19 to O25: the bit-stream packer and the padders. -/

namespace Sys2Proof.Proofs

open Sys2Proof.Machine Sys2Proof.Claim

/-- Settles O19: no check, and one write of all of `BSB`. -/
theorem bsClearEmptiesStream : Obligations.BsClearEmptiesStream := by
  refine ⟨encoded_of_row .bsClear fun _ => rfl, fun s => ⟨_, exec_bsClear s, ?_, fun k hk => ?_⟩⟩
  · exact succeeds_complete rfl rfl rfl rfl fun off hout => writeBytes_outside s (by rwa [List.length_replicate])
  · exact holds_writeBytes s (by rw [List.getElem?_replicate, if_pos hk])

/-- Settles O20: an append of the low bits of `ARG0`. -/
theorem bsAppendAppendsValue : Obligations.BsAppendAppendsValue := by
  refine ⟨encoded_of_row (.bsAppend 0) fun w => congrArg _ (bitField_eq_extract w 0 6 (by decide)), fun w s _ => ?_⟩
  refine ends_of_command (exec_bsAppend w s)
    (.cons (testedBy_or ..) (.cons (testedBy_and ..) (.cons (testedBy_decide ..) .nil))) fun hpass => ?_
  simp only [List.forall_mem_cons, not_lt] at hpass
  obtain ⟨-, -, hcap, -⟩ := hpass
  have hlen := bitsOf_length w s.regs.arg0
  exact ⟨appends_appendAll hlen hcap, fun k hk => holdsBit_appendAll hlen hcap rfl hk (bitsOf_getD w _ k hk)⟩

/-- Settles O21: an append of the bits of the bytes of `CWB`. -/
theorem bsAppendBytesAppendsBytes : Obligations.BsAppendBytesAppendsBytes := by
  refine ⟨encoded_of_row (.bsAppendBytes 0) fun w => congrArg _ (bitField_eq_extract w 0 13 (by decide)), fun count s _ => ?_⟩
  refine ends_of_command (exec_bsAppendBytes count s) (.cons (testedBy_decide ..) (.cons (testedBy_decide ..) .nil)) fun hpass => ?_
  simp only [List.forall_mem_cons, not_lt] at hpass
  obtain ⟨-, hcap, -⟩ := hpass
  have hlen : (bitsOfBytes (s.sourceBytes count)).length = 8 * count := by rw [bitsOfBytes_length, sourceBytes_length]
  refine ⟨appends_appendAll hlen hcap, fun k j hk hj => holdsBit_appendAll hlen hcap (Nat.add_assoc _ _ _) (by omega) ?_⟩
  rw [bitsOfBytes_getD _ _ _ hj, sourceBytes_getD s hk]
  rfl

/-- Settles O22: both are the append of one byte's eight bits, whatever `ARG0` holds. -/
theorem appendByteIsAppendEightBits : Obligations.AppendByteIsAppendEightBits := by
  intro s src hsrc
  have hindex : (s.setArg0 (BitVec.ofNat 32 src)).arg0Nat = src := Nat.mod_eq_of_lt (by omega)
  have hvalue := exec_bsAppend_eight (s := s.setArg0 ((s.readByte 0 (0x1000 + src)).setWidth 32)) rfl
  have hbytes := exec_bsAppendBytes_one (s := s.setArg0 (BitVec.ofNat 32 src)) (by rwa [hindex]) rfl
  rw [hindex] at hbytes
  obtain ⟨t, ht⟩ := appendEight_setArg0 s (s.readByte 0 (0x1000 + src))
  exact ⟨_, _, hvalue.trans (ht _), hbytes.trans (ht _), rfl⟩

/-- Settles O23: an append of zero bits to a byte boundary, and of the pad bytes up to the capacity. -/
theorem bsPadQrFillsToCapacity : Obligations.BsPadQrFillsToCapacity := by
  refine ⟨encoded_of_row .bsPadQr fun _ => rfl, fun s => ?_⟩
  refine ends_of_command (exec_bsPadQr s) (.cons (testedBy_or ..) (.cons (testedBy_decide ..) .nil)) fun hpass => ?_
  simp only [List.forall_mem_cons, not_or, not_lt, ne_eq, not_not] at hpass
  obtain ⟨⟨(h8 : s.arg0Nat % 8 = 0), hmax⟩, (hle : s.bsLenNat ≤ s.arg0Nat), -⟩ := hpass
  have hlen := padQrBits_length h8 hle
  have hend : s.bsLenNat + (s.arg0Nat - s.bsLenNat) = s.arg0Nat := by omega
  have hcap : s.bsLenNat + (s.arg0Nat - s.bsLenNat) ≤ 32768 := by rwa [hend]
  obtain ⟨hstart, hstop⟩ := padQrStart_le h8 hle
  rw [padQr_eq_appendAll h8 hmax hle]
  refine ⟨appends_appendAll hlen hcap, ?_, fun i (hi : s.bsLenNat ≤ i) (hi' : i < 8 * padQrStart s.bsLenNat s.arg0Nat) => ?_,
    fun k (hk : padQrStart s.bsLenNat s.arg0Nat ≤ k) (hk' : k < s.arg0Nat / 8) => holds_of_holdsBit fun j hj => ?_⟩
  · have hbsLen := appendAll_bsLen s (padQrBits s.bsLenNat s.arg0Nat) (by rwa [hlen])
    rwa [hlen, hend] at hbsLen
  · exact holdsBit_appendAll hlen hcap (k := i - s.bsLenNat) (by omega) (by omega) (padQrBits_getD_zero hi hi')
  · exact holdsBit_appendAll hlen hcap (k := 8 * k + j - s.bsLenNat) (by omega) (by omega) (padQrBits_getD_pad hstart hk hk' hj)

/-- Settles O24: one write of the bytes of `BSB`. -/
theorem bsToCwCopiesStream : Obligations.BsToCwCopiesStream := by
  refine ⟨encoded_of_row .bsToCw fun _ => rfl, fun s => ?_⟩
  refine ends_of_command (exec_bsToCw s) (.cons (testedBy_decide ..) .nil) fun _ => ⟨?_, fun k (hk : k < s.bsLenNat / 8) => ?_⟩
  · have hframe := succeeds_write_setCwLen s 0x1000 (s.bsLenNat / 8) (s.elems .bsb (List.range (s.bsLenNat / 8)))
    rwa [elems_length, List.length_range] at hframe
  · refine holds_writeBytes s (off := 0x1000) ?_
    rw [State.elems, List.getElem?_map, List.getElem?_range hk, Option.map_some]
    rfl

/-- Settles O25: one write of the fixed pad codeword and the fillers. -/
theorem cwPadDmFillsToTarget : Obligations.CwPadDmFillsToTarget := by
  refine ⟨encoded_of_row (.cwPadDm 0) fun w => congrArg _ (bitField_eq_extract w 0 13 (by decide)),
    fun p => ⟨dmPadValue_toNat p, padValue_range p⟩, fun target s _ => ?_⟩
  refine ends_of_command (exec_cwPadDm target s) (.cons (testedBy_decide ..) (.cons (testedBy_decide ..) .nil)) fun hpass => ?_
  simp only [List.forall_mem_cons, not_lt] at hpass
  obtain ⟨-, (hle : s.cwLenNat ≤ target), -⟩ := hpass
  refine ⟨?_, fun hlt => ?_, fun p (hp : s.cwLenNat + 1 ≤ p) hpt => ?_⟩
  · have hframe := succeeds_write_setCwLen s (0x1000 + s.cwLenNat) target (dmPadding s.cwLenNat target)
    have hend : 0x1000 + s.cwLenNat + (target - s.cwLenNat) = 0x1000 + target := by omega
    rwa [dmPadding_length, hend] at hframe
  · exact holds_writeBytes s (off := 0x1000 + s.cwLenNat) (dmPadding_getElem?_zero hlt)
  · have hfiller := holds_writeBytes s (off := 0x1000 + s.cwLenNat) (dmPadding_getElem?_filler hp hpt)
    rwa [dmPadValue_eq, show 0x1000 + s.cwLenNat + (p - s.cwLenNat) = 0x1000 + p by omega] at hfiller

end Sys2Proof.Proofs
end

section
/-! The powers of `alpha` (42_gf256.md R192, R197): the tables as the iterates of `gfNext`, their period 255, and the logarithm. -/

namespace Sys2Proof.Machine

variable {f : GField} {x : Nat}

/-! ### One turn of the table loop -/

theorem two_mul_xor (x y : Nat) : 2 * (x ^^^ y) = 2 * x ^^^ 2 * y := by
  simpa [Nat.shiftLeft_succ] using Nat.shiftLeft_xor_distrib (i := 1) (a := x) (b := y)

/-- Reduce by `c` when bit `d` is 1. -/
def reduceBit (c d x : Nat) : Nat := if x.testBit d then x ^^^ c else x

theorem reduceBit_xor (c d x y : Nat) : reduceBit c d (x ^^^ y) = reduceBit c d x ^^^ reduceBit c d y := by
  simp only [reduceBit, Nat.testBit_xor]
  cases x.testBit d <;> cases y.testBit d <;> simp [Nat.xor_assoc, Nat.xor_comm y c]

/-- On a number below bit `d` there is nothing to reduce. -/
theorem reduceBit_of_lt (c : Nat) {d x : Nat} (hx : x < 2 ^ d) : reduceBit c d x = x := by
  rw [reduceBit, Nat.testBit_lt_two_pow hx]
  rfl

/-- A reduction one bit higher is the reduction, shifted. -/
theorem reduceBit_two_mul (c d x : Nat) : reduceBit (2 * c) (d + 1) (2 * x) = 2 * reduceBit c d x := by
  have hbit : (2 * x).testBit (d + 1) = x.testBit d := by
    rw [Nat.testBit_add_one, Nat.mul_div_cancel_left x (by decide)]
  rw [reduceBit, reduceBit, hbit, ← two_mul_xor, apply_ite (2 * ·)]

theorem gfNext_eq_reduceBit (f : GField) (x : Nat) : gfNext f x = reduceBit f.poly 8 (2 * x) := rfl

@[simp] theorem gfNext_zero (f : GField) : gfNext f 0 = 0 := rfl

/-- On a byte, bit 8 of the doubled value is the byte's top bit. -/
theorem gfNext_of_lt (hx : x < 256) : gfNext f x = if 128 ≤ x then 2 * x ^^^ f.poly else 2 * x := by
  have htop : (2 * x).testBit 8 = decide (128 ≤ x) := by
    rw [Nat.testBit_eq_decide_div_mod_eq, decide_eq_decide]
    omega
  simp [gfNext, htop]

/-- The reduction clears bit 8. -/
theorem gfNext_lt (hx : x < 256) : gfNext f x < 256 := by
  rw [gfNext_of_lt hx]
  split
  · have hpoly : f.poly / 2 ^ 8 = 1 := by cases f <;> rfl
    have hdouble : 2 * x / 2 ^ 8 = 1 := by omega
    rw [← Nat.div_eq_zero_iff_lt (by decide), show 256 = 2 ^ 8 from rfl, Nat.xor_div_two_pow, hpoly, hdouble]
    rfl
  · omega

/-- Multiplication by `alpha` is additive. -/
theorem gfNext_xor (f : GField) (x y : Nat) : gfNext f (x ^^^ y) = gfNext f x ^^^ gfNext f y := by
  simp only [gfNext_eq_reduceBit, two_mul_xor, reduceBit_xor]

/-! ### Its iterates -/

theorem iterate_gfNext_lt (f : GField) (hx : x < 256) (k : Nat) : (gfNext f)^[k] x < 256 := by
  induction k with
  | zero => exact hx
  | succ k ih =>
    rw [Function.iterate_succ_apply']
    exact gfNext_lt ih

theorem iterate_gfNext_zero (f : GField) (k : Nat) : (gfNext f)^[k] 0 = 0 := Function.iterate_fixed (gfNext_zero f) k

theorem iterate_gfNext_xor (f : GField) (k x y : Nat) : (gfNext f)^[k] (x ^^^ y) = (gfNext f)^[k] x ^^^ (gfNext f)^[k] y := by
  induction k with
  | zero => rfl
  | succ k ih => simp only [Function.iterate_succ_apply', ih, gfNext_xor]

/-- `alpha` has order 255: its power 255 is 1, and its power at no proper divisor of 255 is. -/
theorem minimalPeriod_gfNext (f : GField) : Function.minimalPeriod (gfNext f) 1 = 255 := by
  have hperiod : Function.IsPeriodicPt (gfNext f) 255 1 := by
    rw [Function.IsPeriodicPt]
    cases f <;> decide +kernel
  have hproper : ∀ d ∈ Nat.divisors 255, (gfNext f)^[d] 1 = 1 → d = 255 := by cases f <;> decide +kernel
  exact hproper _ (Nat.mem_divisors.mpr ⟨hperiod.minimalPeriod_dvd, by decide⟩) (Function.isPeriodicPt_minimalPeriod _ _)

/-! ### The antilog table -/

/-- The table holds the iterates in order (42_gf256.md R192). -/
theorem expEntries_eq_iterate (f : GField) (n x : Nat) : expEntries f n x = List.iterate (gfNext f) x n := by
  induction n generalizing x with
  | zero => rfl
  | succ n ih => rw [expEntries, ih, List.iterate]

theorem expTable_length (f : GField) : (expTable f).length = 255 := by
  rw [expTable, expEntries_eq_iterate, List.length_iterate]

theorem expTable_getElem? (f : GField) {i : Nat} (hi : i < 255) : (expTable f)[i]? = some ((gfNext f)^[i] 1) := by
  rw [expTable, expEntries_eq_iterate, List.getElem?_iterate _ _ _ _ hi]

/-- `alpha^k`, the exponent taken modulo the period. -/
theorem toNat_gfExp (f : GField) (k : Nat) : (gfExp f k).toNat = (gfNext f)^[k] 1 := by
  have hmod : (gfNext f)^[k % 255] 1 = (gfNext f)^[k] 1 := by
    rw [← minimalPeriod_gfNext f, Function.iterate_mod_minimalPeriod_eq]
  rw [gfExp, List.getD_eq_getElem?_getD, expTable_getElem? f (Nat.mod_lt k (by decide)), Option.getD_some, hmod,
    BitVec.toNat_ofNat, Nat.mod_eq_of_lt (iterate_gfNext_lt f (by decide) k)]

/-! ### The powers of `alpha` -/

@[simp] theorem gfExp_zero (f : GField) : gfExp f 0 = 1 := BitVec.eq_of_toNat_eq (toNat_gfExp f 0)

theorem toNat_gfExp_succ (f : GField) (k : Nat) : (gfExp f (k + 1)).toNat = gfNext f (gfExp f k).toNat := by
  rw [toNat_gfExp, toNat_gfExp, Function.iterate_succ_apply']

@[simp] theorem gfExp_mod (f : GField) (k : Nat) : gfExp f (k % 255) = gfExp f k := by rw [gfExp, Nat.mod_mod, ← gfExp]

@[simp] theorem gfExp_add_period (f : GField) (k : Nat) : gfExp f (k + 255) = gfExp f k := by
  rw [← gfExp_mod, Nat.add_mod_right, gfExp_mod]

theorem gfExp_injOn (f : GField) {i j : Nat} (hi : i < 255) (hj : j < 255) (h : gfExp f i = gfExp f j) : i = j := by
  have hiter := congrArg BitVec.toNat h
  rw [toNat_gfExp, toNat_gfExp] at hiter
  rw [← minimalPeriod_gfNext f] at hi hj
  exact (Function.iterate_eq_iterate_iff_of_lt_minimalPeriod hi hj).mp hiter

/-- From 0 no iterate comes back to `alpha^255 = 1`. -/
theorem gfExp_ne_zero (f : GField) (k : Nat) : gfExp f k ≠ 0 := by
  intro hzero
  have hone : (gfNext f)^[255 - k % 255] ((gfNext f)^[k % 255] 1) = 1 := by
    rw [← Function.iterate_add_apply, Nat.sub_add_cancel (by omega), ← minimalPeriod_gfNext f]
    exact Function.isPeriodicPt_minimalPeriod _ _
  rw [← toNat_gfExp, gfExp_mod, hzero, show (0 : Byte).toNat = 0 from rfl, iterate_gfNext_zero] at hone
  cases hone

/-- The 255 powers are 255 different nonzero bytes, so they are all of them. -/
theorem exists_gfExp_eq (f : GField) {a : Byte} (ha : a ≠ 0) : ∃ i < 255, gfExp f i = a := by
  have hcard : ((Finset.range 255).image (gfExp f)).card = 255 := by
    rw [Finset.card_image_of_injOn fun i hi j hj => gfExp_injOn f (Finset.mem_range.mp hi) (Finset.mem_range.mp hj), Finset.card_range]
  have hsubset : (Finset.range 255).image (gfExp f) ⊆ Finset.univ.erase 0 := by
    intro a ha
    obtain ⟨i, -, rfl⟩ := Finset.mem_image.mp ha
    exact Finset.mem_erase.mpr ⟨gfExp_ne_zero f i, Finset.mem_univ _⟩
  have hbytes : Fintype.card Byte = 256 := (Fintype.card_congr BitVec.equivFin.toEquiv).trans (Fintype.card_fin _)
  have heq : (Finset.range 255).image (gfExp f) = Finset.univ.erase 0 :=
    Finset.eq_of_subset_of_card_le hsubset (by rw [hcard, Finset.card_erase_of_mem (Finset.mem_univ _), Finset.card_univ, hbytes])
  have hmem : a ∈ (Finset.range 255).image (gfExp f) := heq ▸ Finset.mem_erase.mpr ⟨ha, Finset.mem_univ a⟩
  simpa using hmem

/-! ### The logarithm -/

/-- The logarithm of a nonzero byte is its index in the table (42_gf256.md R192). -/
theorem gfLog_spec (f : GField) {a : Byte} (ha : a ≠ 0) : gfLog f a < 255 ∧ gfExp f (gfLog f a) = a := by
  obtain ⟨i, hi, rfl⟩ := exists_gfExp_eq f ha
  have hmem : (gfExp f i).toNat ∈ expTable f := by
    rw [toNat_gfExp]
    exact List.mem_of_getElem? (expTable_getElem? f hi)
  have hidx : gfLog f (gfExp f i) < (expTable f).length := List.idxOf_lt_length_iff.mpr hmem
  have hlt : gfLog f (gfExp f i) < 255 := by rwa [expTable_length] at hidx
  have hget : (expTable f)[gfLog f (gfExp f i)]? = some (gfExp f i).toNat :=
    List.getElem?_eq_some_iff.mpr ⟨hidx, List.getElem_idxOf hidx⟩
  rw [expTable_getElem? f hlt, ← toNat_gfExp] at hget
  exact ⟨hlt, BitVec.eq_of_toNat_eq (Option.some.inj hget)⟩

theorem gfLog_lt (f : GField) {a : Byte} (ha : a ≠ 0) : gfLog f a < 255 := (gfLog_spec f ha).1

theorem gfExp_gfLog (f : GField) {a : Byte} (ha : a ≠ 0) : gfExp f (gfLog f a) = a := (gfLog_spec f ha).2

/-- The logarithm of a power is its exponent modulo the period. -/
theorem gfLog_gfExp (f : GField) (k : Nat) : gfLog f (gfExp f k) = k % 255 := by
  obtain ⟨hlt, hexp⟩ := gfLog_spec f (gfExp_ne_zero f k)
  exact gfExp_injOn f hlt (Nat.mod_lt k (by decide)) (hexp.trans (gfExp_mod f k).symm)

end Sys2Proof.Machine
end

section
/-! The operations of the two fields (42_gf256.md R194 to R199), each on powers of `alpha`: the product adds exponents, and multiplying by
a power is an iterate of the additive `gfNext`. -/

namespace Sys2Proof.Machine

/-! ### The operations on powers of `alpha` -/

theorem gfMul_zero_left (f : GField) (b : Byte) : gfMul f 0 b = 0 := if_pos (.inl rfl)

theorem gfMul_zero_right (f : GField) (a : Byte) : gfMul f a 0 = 0 := if_pos (.inr rfl)

/-- The product of nonzero bytes by logarithms (42_gf256.md R194). -/
theorem gfMul_of_ne_zero (f : GField) {a b : Byte} (ha : a ≠ 0) (hb : b ≠ 0) :
    gfMul f a b = gfExp f ((gfLog f a + gfLog f b) % 255) :=
  if_neg (not_or.mpr ⟨ha, hb⟩)

theorem gfMul_gfExp (f : GField) (i j : Nat) : gfMul f (gfExp f i) (gfExp f j) = gfExp f (i + j) := by
  rw [gfMul_of_ne_zero f (gfExp_ne_zero f i) (gfExp_ne_zero f j), gfLog_gfExp, gfLog_gfExp, ← Nat.add_mod, gfExp_mod]

/-- A byte is 0 or a power of `alpha`. -/
theorem eq_zero_or_gfExp (f : GField) (a : Byte) : a = 0 ∨ ∃ i, a = gfExp f i :=
  or_iff_not_imp_left.mpr fun ha => ⟨gfLog f a, (gfExp_gfLog f ha).symm⟩

/-! ### Addition -/

theorem gfAdd_comm (a b : Byte) : gfAdd a b = gfAdd b a := BitVec.xor_comm a b

theorem gfAdd_assoc (a b c : Byte) : gfAdd (gfAdd a b) c = gfAdd a (gfAdd b c) := BitVec.xor_assoc a b c

@[simp] theorem gfAdd_self (a : Byte) : gfAdd a a = 0 := BitVec.xor_self

/-! ### Multiplication -/

theorem gfMul_comm (f : GField) (a b : Byte) : gfMul f a b = gfMul f b a := by
  simp only [gfMul, or_comm, Nat.add_comm]

theorem gfMul_assoc (f : GField) (a b c : Byte) : gfMul f (gfMul f a b) c = gfMul f a (gfMul f b c) := by
  obtain rfl | ⟨i, rfl⟩ := eq_zero_or_gfExp f a
  · simp only [gfMul_zero_left]
  obtain rfl | ⟨j, rfl⟩ := eq_zero_or_gfExp f b
  · simp only [gfMul_zero_left, gfMul_zero_right]
  obtain rfl | ⟨k, rfl⟩ := eq_zero_or_gfExp f c
  · simp only [gfMul_zero_right]
  simp only [gfMul_gfExp, Nat.add_assoc]

theorem gfMul_one (f : GField) (a : Byte) : gfMul f a 1 = a := by
  obtain rfl | ⟨i, rfl⟩ := eq_zero_or_gfExp f a
  · exact gfMul_zero_left f 1
  · rw [← gfExp_zero f, gfMul_gfExp, Nat.add_zero]

/-- Multiplying by `alpha^i` is `i` turns of the table loop, from any byte. -/
theorem toNat_gfMul_gfExp (f : GField) (i : Nat) (b : Byte) : (gfMul f (gfExp f i) b).toNat = (gfNext f)^[i] b.toNat := by
  obtain rfl | ⟨j, rfl⟩ := eq_zero_or_gfExp f b
  · rw [gfMul_zero_right, show (0 : Byte).toNat = 0 from rfl, iterate_gfNext_zero]
  · rw [gfMul_gfExp, toNat_gfExp, toNat_gfExp, Function.iterate_add_apply]

/-- The product distributes over the sum, since `gfNext` is additive. -/
theorem gfMul_gfAdd (f : GField) (a b c : Byte) : gfMul f a (gfAdd b c) = gfAdd (gfMul f a b) (gfMul f a c) := by
  obtain rfl | ⟨i, rfl⟩ := eq_zero_or_gfExp f a
  · simp only [gfMul_zero_left, gfAdd_self]
  · refine BitVec.eq_of_toNat_eq ?_
    simp only [gfAdd, BitVec.toNat_xor, toNat_gfMul_gfExp, iterate_gfNext_xor]

theorem gfAdd_gfMul (f : GField) (a b c : Byte) : gfMul f (gfAdd a b) c = gfAdd (gfMul f a c) (gfMul f b c) := by
  rw [gfMul_comm, gfMul_gfAdd, gfMul_comm f c, gfMul_comm f c]

/-! ### Inverse and quotient -/

/-- The exponents of a byte and of its inverse add up to the period. -/
theorem gfMul_gfInv (f : GField) {a : Byte} (ha : a ≠ 0) : gfMul f a (gfInv f a) = 1 := by
  have hlt := gfLog_lt f ha
  calc gfMul f a (gfInv f a)
      = gfMul f (gfExp f (gfLog f a)) (gfExp f (255 - gfLog f a)) := by rw [gfInv, gfExp_mod, gfExp_gfLog f ha]
    _ = gfExp f (0 + 255) := by rw [gfMul_gfExp]; congr 1; omega
    _ = 1 := by rw [gfExp_add_period, gfExp_zero]

theorem gfMul_gfDiv (f : GField) (a : Byte) {b : Byte} (hb : b ≠ 0) : gfMul f (gfDiv f a b) b = a := by
  by_cases ha : a = 0
  · rw [gfDiv, if_pos ha, gfMul_zero_left, ha]
  · have hlt := gfLog_lt f hb
    calc gfMul f (gfDiv f a b) b
        = gfMul f (gfExp f (gfLog f a + 255 - gfLog f b)) (gfExp f (gfLog f b)) := by
          rw [gfDiv, if_neg ha, gfExp_mod, gfExp_gfLog f hb]
      _ = gfExp f (gfLog f a + 255) := by rw [gfMul_gfExp]; congr 1; omega
      _ = a := by rw [gfExp_add_period, gfExp_gfLog f ha]

end Sys2Proof.Machine
end

section
/-! The product as polynomials over GF(2) (42_gf256.md R194): both sides are additive in one factor, and agree where it is a power of
`x`. -/

namespace Sys2Proof.Machine

open Claim (bitsProduct bitsReduce)

/-! ### Sums over the bits of a number -/

/-- The sum over GF(2) of `v i` over the bits `i < n` of `a` that are 1. -/
def bitSum (v : Nat → Nat) (n a : Nat) : Nat := (List.range n).foldl (fun acc i => if a.testBit i then acc ^^^ v i else acc) 0

variable {v u g : Nat → Nat} {n a : Nat}

theorem bitSum_succ (v : Nat → Nat) (n a : Nat) :
    bitSum v (n + 1) a = if a.testBit n then bitSum v n a ^^^ v n else bitSum v n a := by
  rw [bitSum, List.range_succ, List.foldl_append]
  rfl

theorem bitSum_congr (h : ∀ i, i < n → v i = u i) : bitSum v n a = bitSum u n a := by
  induction n with
  | zero => rfl
  | succ n ih => rw [bitSum_succ, bitSum_succ, ih fun i hi => h i (by omega), h n (by omega)]

/-- An additive function goes through the sum. -/
theorem map_bitSum (hzero : g 0 = 0) (hxor : ∀ x y, g (x ^^^ y) = g x ^^^ g y) (v : Nat → Nat) (n a : Nat) :
    g (bitSum v n a) = bitSum (fun i => g (v i)) n a := by
  induction n with
  | zero => exact hzero
  | succ n ih => rw [bitSum_succ, bitSum_succ, apply_ite g, hxor, ih]

/-- A number is the sum of its bits. -/
theorem bitSum_two_pow (n a : Nat) : bitSum (2 ^ ·) n a = a % 2 ^ n := by
  induction n with
  | zero => rw [Nat.pow_zero, Nat.mod_one]; rfl
  | succ n ih =>
    rw [bitSum_succ, ih]
    refine Nat.eq_of_testBit_eq fun i => ?_
    by_cases hi : i = n
    · subst hi
      cases ha : a.testBit i <;> simp [Nat.testBit_mod_two_pow, ha]
    · have hlt : i < n + 1 ↔ i < n := by omega
      have hne : ¬ n = i := fun h => hi h.symm
      cases a.testBit n <;> simp [Nat.testBit_mod_two_pow, hlt, hne]

theorem bitsProduct_eq_bitSum (a b : Nat) : bitsProduct a b = bitSum (b <<< ·) 8 a := rfl

/-! ### The reduction -/

theorem bitsReduce_eq (p x : Nat) :
    bitsReduce p x = [14, 13, 12, 11, 10, 9, 8].foldl (fun x d => reduceBit (p <<< (d - 8)) d x) x := rfl

theorem bitsReduce_xor (p x y : Nat) : bitsReduce p (x ^^^ y) = bitsReduce p x ^^^ bitsReduce p y := by
  simp only [bitsReduce_eq, List.foldl_cons, List.foldl_nil, reduceBit_xor]

/-- A byte is reduced. -/
theorem bitsReduce_of_lt (p : Nat) {x : Nat} (hx : x < 256) : bitsReduce p x = x := by
  simp (disch := omega) only [bitsReduce_eq, List.foldl_cons, List.foldl_nil, reduceBit_of_lt]

/-- Reducing a shifted polynomial is one turn of the table loop from the reduced one: the seven steps are those of the polynomial, one bit
higher, but for the last. -/
theorem bitsReduce_two_mul (f : GField) {x : Nat} (hx : x < 2 ^ 14) : bitsReduce f.poly (2 * x) = gfNext f (bitsReduce f.poly x) := by
  have htop : reduceBit (f.poly <<< 6) 14 x = x := reduceBit_of_lt _ hx
  simp only [bitsReduce_eq, gfNext_eq_reduceBit, List.foldl_cons, List.foldl_nil, Nat.reduceSub, htop]
  simp only [Nat.shiftLeft_succ, Nat.shiftLeft_zero, reduceBit_two_mul]

theorem bitsReduce_shiftLeft (f : GField) {b i : Nat} (hb : b < 256) (hi : i < 8) : bitsReduce f.poly (b <<< i) = (gfNext f)^[i] b := by
  induction i with
  | zero => exact bitsReduce_of_lt _ hb
  | succ i ih =>
    have hpow : 2 ^ i ≤ 2 ^ 6 := Nat.pow_le_pow_right (by decide) (by omega)
    have hlt : b <<< i < 2 ^ 14 := by
      rw [Nat.shiftLeft_eq]
      exact Nat.lt_of_le_of_lt (Nat.mul_le_mul (Nat.le_of_lt_succ hb) hpow) (by decide)
    rw [Nat.shiftLeft_succ, bitsReduce_two_mul f hlt, ih (by omega), Function.iterate_succ_apply']

/-! ### The product -/

/-- The first eight powers of `alpha` are the powers of `x`. -/
theorem gfExp_of_lt_eight (f : GField) {i : Nat} (hi : i < 8) : gfExp f i = BitVec.ofNat 8 (2 ^ i) := by
  have hiter : ∀ i < 8, (gfNext f)^[i] 1 = 2 ^ i := by cases f <;> decide
  have hlt : 2 ^ i < 2 ^ 8 := Nat.pow_lt_pow_right (by decide) hi
  refine BitVec.eq_of_toNat_eq ?_
  rw [toNat_gfExp, hiter i hi, BitVec.toNat_ofNat, Nat.mod_eq_of_lt hlt]

/-- The product as polynomials: the sum over the bits of one factor of the other one, multiplied by a power of `x` and reduced. -/
theorem toNat_gfMul (f : GField) (a b : Byte) : (gfMul f a b).toNat = bitsReduce f.poly (bitsProduct a.toNat b.toNat) := by
  have hbits : bitSum (2 ^ ·) 8 a.toNat = a.toNat := by rw [bitSum_two_pow, Nat.mod_eq_of_lt a.isLt]
  have hsplit := map_bitSum (g := fun x => (gfMul f (BitVec.ofNat 8 x) b).toNat) (congrArg BitVec.toNat (gfMul_zero_left f b))
    (fun x y => by rw [BitVec.ofNat_xor]; exact congrArg BitVec.toNat (gfAdd_gfMul f _ _ b)) (2 ^ ·) 8 a.toNat
  simp only [hbits, BitVec.ofNat_toNat, BitVec.setWidth_eq] at hsplit
  rw [hsplit, bitsProduct_eq_bitSum, map_bitSum (g := bitsReduce f.poly) (bitsReduce_of_lt _ (by decide)) (bitsReduce_xor _)]
  refine bitSum_congr fun i hi => ?_
  rw [← gfExp_of_lt_eight f hi, toNat_gfMul_gfExp, bitsReduce_shiftLeft f b.isLt hi]

end Sys2Proof.Machine
end

section
/-! The GF commands as one effect or one check and one effect (42_gf256.md R200 to R205). -/

namespace Sys2Proof.Machine

open Claim (Ends Succeeds)

/-- An extracted byte of a word is the bit field as a byte. -/
theorem ofNat_bitField_byte (w : Word) (lo : Nat) : BitVec.ofNat 8 (bitField w (lo + 8 - 1) lo) = w.extractLsb' lo 8 := by
  rw [bitField_eq_extract w lo 8 (by decide), BitVec.ofNat_toNat, BitVec.setWidth_eq]

/-- A number that fits a byte, zero-extended. -/
theorem setWidth_ofNat_byte {n : Nat} (hn : n < 256) : (BitVec.ofNat 8 n).setWidth 32 = BitVec.ofNat 32 n := by
  refine BitVec.eq_of_toNat_eq ?_
  rw [BitVec.toNat_setWidth, BitVec.toNat_ofNat, BitVec.toNat_ofNat, Nat.mod_eq_of_lt (a := n) hn]

/-- `RESULT` is all that a GF command writes. -/
theorem succeeds_setResult (s : State) {b : Byte} {v : Word} (hv : b.setWidth 32 = v) :
    Succeeds s (s.setResult b).complete (fun g => { g with result := v }) (fun _ => False) := by
  subst hv
  exact succeeds_complete rfl rfl rfl rfl fun _ _ => ⟨rfl, rfl⟩

theorem exec_gfAdd (a b : Byte) (s : State) : exec (.gfAdd a b) s = .next (s.setResult (gfAdd a b)).complete := rfl

theorem exec_gfMul (a b : Byte) (s : State) : exec (.gfMul a b) s = .next (s.setResult (gfMul s.field a b)).complete := rfl

theorem exec_gfExp (k : Nat) (s : State) : exec (.gfExp k) s = .next (s.setResult (gfExp s.field k)).complete := rfl

theorem exec_gfDiv (a b : Byte) (s : State) :
    exec (.gfDiv a b) s = s.command [(decide (b = 0), .gfDomain)] (fun s => s.setResult (gfDiv s.field a b)) := rfl

theorem exec_gfInv (a : Byte) (s : State) :
    exec (.gfInv a) s = s.command [(decide (a = 0), .gfDomain)] (fun s => s.setResult (gfInv s.field a)) := rfl

theorem exec_gfLog (a : Byte) (s : State) :
    exec (.gfLog a) s = s.command [(decide (a = 0), .gfDomain)] (fun s => s.setResult (BitVec.ofNat 8 (gfLog s.field a))) := rfl

/-! On an operand that is not 0 the three with a check complete. -/

theorem exec_gfDiv_of_ne_zero {b : Byte} (hb : b ≠ 0) (a : Byte) (s : State) :
    exec (.gfDiv a b) s = .next (s.setResult (gfDiv s.field a b)).complete := by
  rw [exec_gfDiv, decide_eq_false hb]
  rfl

theorem exec_gfInv_of_ne_zero {a : Byte} (ha : a ≠ 0) (s : State) :
    exec (.gfInv a) s = .next (s.setResult (gfInv s.field a)).complete := by
  rw [exec_gfInv, decide_eq_false ha]
  rfl

theorem exec_gfLog_of_ne_zero {a : Byte} (ha : a ≠ 0) (s : State) :
    exec (.gfLog a) s = .next (s.setResult (BitVec.ofNat 8 (gfLog s.field a))).complete := by
  rw [exec_gfLog, decide_eq_false ha]
  rfl

end Sys2Proof.Machine
end

section
/-! What the Reed–Solomon commands leave in `GEN` and in `FSB` (43_reed_solomon.md R221 to R232): the generator, and the ECC codewords of each
block at their interleaved places. -/

namespace Sys2Proof.Machine

open Claim (field Holds HoldsGen dmBlock qrBlock qrLen qrStart)

variable {s : State} {f : GField} {n off : Nat} {v : Byte}

/-! ### The generator (43_reed_solomon.md R232) -/

theorem holdsGen_setGen (s : State) (f : GField) (hn : n < 256) : HoldsGen (s.setGen f n) f n :=
  ⟨rfl, fun k hk => ⟨lookup_setGen_inside s f n k hn hk, by rw [holes_setGen s f n _ hn, if_pos (by omega)]⟩⟩

theorem holds_setGen (hn : n < 256) (hoff : 0x200 ≤ off) (h : Holds s off v) : Holds (s.setGen f n) off v := by
  obtain ⟨hmem, hholes⟩ := h
  exact ⟨by rw [lookup_setGen_outside s f n off hn (.inr hoff), hmem], by rw [holes_setGen s f n off hn, if_neg (by omega), hholes]⟩

/-! ### `FSB` behind the generator -/

/-- ECC_DM and ECC_QR leave their final stream in `FSB`. -/
theorem holds_finalStream (s : State) (f : GField) (hn : n < 256) {bytes : List Byte} {len k : Nat} (hv : bytes[k]? = some v)
    (hoff : off = 0x2000 + k) : Holds (((s.writeBytes Buffer.fsb.base bytes).setFsLen len).setGen f n) off v := by
  subst hoff
  have hstream : Holds (s.writeBytes Buffer.fsb.base bytes) (0x2000 + k) v := holds_writeBytes s hv
  exact holds_setGen hn (by omega) hstream

/-- RS_ENCODE leaves its codewords at the strided places (43_reed_solomon.md R224). -/
theorem holds_strided (s : State) (f : GField) (hn : n < 256) {bytes : List Byte} {stride pos j : Nat} (hstride : 0 < stride)
    (hj : j < bytes.length) :
    Holds ((State.writeStrided stride pos bytes s).setGen f n) (0x2000 + pos + j * stride) (bytes.getD j 0) := by
  refine holds_setGen hn (by omega) ⟨?_, ?_⟩
  · rw [lookup_writeStrided_inside stride pos bytes s hstride j hj, List.getD_eq_getElem _ _ hj]
  · rw [holes_writeStrided, if_pos ⟨j, hj, rfl⟩]

/-! ### The data codewords of a block -/

/-- The positions of a Data Matrix block, counted out, are those that the round robin gives it (43_reed_solomon.md R225). -/
theorem dmBlockIndexes_eq_filter {d blocks b : Nat} (hb : b < blocks) :
    dmBlockIndexes d blocks b = (List.range d).filter (fun k => k % blocks = b) := by
  have hindexes : (dmBlockIndexes d blocks b).Pairwise (· < ·) := by
    refine List.pairwise_map.mpr (List.pairwise_lt_range.imp fun hlt => ?_)
    exact Nat.add_lt_add_left (Nat.mul_lt_mul_of_pos_right hlt (Nat.zero_lt_of_lt hb)) b
  have hfilter : ((List.range d).filter (fun k => k % blocks = b)).Pairwise (· < ·) := List.pairwise_lt_range.filter _
  refine hindexes.eq_of_mem_iff hfilter fun k => ?_
  simp only [dmBlockIndexes, List.mem_map, List.mem_range, List.mem_filter, decide_eq_true_eq]
  constructor
  · rintro ⟨i, hi, rfl⟩
    rw [Nat.lt_iff_add_one_le, Nat.le_div_iff_mul_le (by omega), Nat.succ_mul] at hi
    exact ⟨by omega, by rw [Nat.add_mul_mod_self_right, Nat.mod_eq_of_lt hb]⟩
  · rintro ⟨hk, rfl⟩
    have hsplit := Nat.mod_add_div' k blocks
    refine ⟨k / blocks, ?_, hsplit⟩
    rw [Nat.lt_iff_add_one_le, Nat.le_div_iff_mul_le (by omega), Nat.succ_mul]
    omega

theorem elemsAgain_dmBlockIndexes (s : State) {d blocks b : Nat} (hb : b < blocks) :
    s.elemsAgain .cwb (dmBlockIndexes d blocks b) = dmBlock s 1 d blocks b := by
  rw [dmBlockIndexes_eq_filter hb]
  rfl

theorem qrStart_succ (q : QrBlk) (b : Nat) : qrStart q (b + 1) = qrStart q b + qrLen q b := by
  simp [qrStart, List.range_succ]

/-- The blocks before a QR block are those of group 1 and then those of group 2 (43_reed_solomon.md R228, R229). -/
theorem qrStart_eq (q : QrBlk) (b : Nat) :
    qrStart q b = min b q.g1c.toNat * q.g1d.toNat + (b - q.g1c.toNat) * q.g2d.toNat := by
  induction b with
  | zero => simp [qrStart]
  | succ b ih =>
    rw [qrStart_succ, ih, qrLen]
    by_cases h : b < q.g1c.toNat
    · rw [if_pos h, Nat.min_eq_left h.le, Nat.min_eq_left h, Nat.sub_eq_zero_of_le h.le, Nat.sub_eq_zero_of_le h, Nat.succ_mul]
      omega
    · rw [if_neg h, Nat.min_eq_right (by omega), Nat.min_eq_right (by omega), Nat.succ_sub (by omega), Nat.succ_mul]
      omega

theorem qrRuns_length (q : QrBlk) : (qrRuns q).length = q.g1c.toNat + q.g2c.toNat := by simp [qrRuns]

/-- Block `b` is run `b` (43_reed_solomon.md R228). -/
theorem qrRuns_getElem? (q : QrBlk) {b : Nat} (hb : b < q.g1c.toNat + q.g2c.toNat) :
    (qrRuns q)[b]? = some (qrStart q b, qrLen q b) := by
  rw [qrStart_eq, qrLen, qrRuns]
  by_cases h : b < q.g1c.toNat
  · rw [List.getElem?_append_left (by simpa using h), if_pos h, Nat.min_eq_left h.le, Nat.sub_eq_zero_of_le h.le]
    simp [h]
  · rw [List.getElem?_append_right (by simpa using h), if_neg h, Nat.min_eq_right (by omega)]
    simp [show b - q.g1c.toNat < q.g2c.toNat by omega]

theorem elemsAgain_run (s : State) (b : Nat) :
    s.elemsAgain .cwb ((List.range (qrLen s.regs.qrBlk b)).map (qrStart s.regs.qrBlk b + ·)) = qrBlock s 1 b := by
  simp [State.elemsAgain, qrBlock, Buffer.base, Nat.add_assoc]

/-! ### The ECC codewords in the final stream -/

/-- Codeword `j` of block `b` stands behind the data codewords at `j * blocks + b` (43_reed_solomon.md R225, R228). -/
theorem stream_getElem?_ecc (data : List Byte) {eccs : List (List Byte)} {blocks d b j : Nat} {ecc : List Byte} (hd : data.length = d)
    (hblocks : eccs.length = blocks) (hb : eccs[b]? = some ecc) (hj : j < n) :
    (data ++ interleaveEcc n eccs)[d + j * blocks + b]? = some (ecc.getD j 0) := by
  subst hd hblocks
  obtain ⟨hlt, rfl⟩ := List.getElem?_eq_some_iff.mp hb
  rw [Nat.add_assoc, List.getElem?_append_right (by omega), Nat.add_sub_cancel_left, interleaveEcc_getElem? n eccs j b hj hlt]

theorem dmStream_ecc (s : State) {b j : Nat} (hb : b < s.dmBlocks) (hj : j < s.dmEcc / s.dmBlocks) :
    s.dmStream[s.dmData + j * s.dmBlocks + b]?
      = some ((rsEcc .dm (dmBlock s 1 s.dmData s.dmBlocks b) (s.dmEcc / s.dmBlocks)).getD j 0) := by
  refine stream_getElem?_ecc _ (by simp) (by simp) ?_ hj
  rw [List.getElem?_map, List.getElem?_range hb, Option.map_some, elemsAgain_dmBlockIndexes s hb]

theorem qrData_length (s : State) : (interleaveData (qrColumns s.regs.qrBlk)
    ((qrRuns s.regs.qrBlk).map (fun r => s.elems .cwb ((List.range r.2).map (r.1 + ·))))).length = s.qrData := by
  have hstream := qrStream_length s
  rw [State.qrStream, List.length_append, interleaveEcc_length, List.length_map, qrRuns_length, State.qrEccTotal, State.qrBlocks,
    Nat.mul_comm] at hstream
  omega

theorem qrStream_ecc (s : State) {b j : Nat} (hb : b < s.qrBlocks) (hj : j < s.qrEccPerBlock) :
    s.qrStream[s.qrData + j * s.qrBlocks + b]? = some ((rsEcc .qr (qrBlock s 1 b) s.qrEccPerBlock).getD j 0) := by
  refine stream_getElem?_ecc _ (qrData_length s) (by rw [List.length_map, qrRuns_length]; rfl) ?_ hj
  rw [List.getElem?_map, qrRuns_getElem? _ hb, Option.map_some, elemsAgain_run]

/-! ### What the commands leave -/

variable {t : State}

theorem exec_rsGenpoly (n : Nat) (s : State) :
    exec (.rsGenpoly n) s = s.command [(decide (n = 0), .argRange)] (fun s => s.setGen s.field n) := rfl

theorem exec_rsGenpoly_of_pos (hpos : 0 < n) (s : State) : exec (.rsGenpoly n) s = .next (s.setGen s.field n).complete := by
  rw [exec_rsGenpoly, decide_eq_false hpos.ne']
  rfl

theorem execEccDm_leaves (h : execEccDm s = .next t) :
    (∃ code, t = s.raiseError code)
      ∨ (HoldsGen t .dm (s.dmEcc / s.dmBlocks) ∧ ∀ b j, b < s.dmBlocks → j < s.dmEcc / s.dmBlocks →
          Holds t (0x2000 + s.dmData + j * s.dmBlocks + b)
            ((rsEcc .dm (dmBlock s 1 s.dmData s.dmBlocks b) (s.dmEcc / s.dmBlocks)).getD j 0)) := by
  obtain ⟨code, -, rfl⟩ | ⟨hnone, rfl⟩ := command_cases h
  · exact .inl ⟨code, rfl⟩
  · have hpass := (firstFailing_eq_none _).mp hnone
    simp only [List.forall_mem_cons, decide_eq_false_iff_not, not_lt] at hpass
    obtain ⟨-, -, -, hdeg, -⟩ := hpass
    exact .inr ⟨holdsGen_setGen _ _ (by omega), fun b j hb hj =>
      holds_finalStream s .dm (by omega) (dmStream_ecc s hb hj) (by omega)⟩

theorem execEccQr_leaves (h : execEccQr s = .next t) :
    (∃ code, t = s.raiseError code)
      ∨ (HoldsGen t .qr s.qrEccPerBlock ∧ ∀ b j, b < s.qrBlocks → j < s.qrEccPerBlock →
          Holds t (0x2000 + s.qrData + j * s.qrBlocks + b) ((rsEcc .qr (qrBlock s 1 b) s.qrEccPerBlock).getD j 0)) := by
  dsimp only [execEccQr] at h
  obtain ⟨code, -, rfl⟩ | ⟨-, rfl⟩ := command_cases h
  · exact .inl ⟨code, rfl⟩
  · have hdeg : s.qrEccPerBlock < 256 := s.regs.qrEcc.isLt
    exact .inr ⟨holdsGen_setGen _ _ hdeg, fun b j hb hj => holds_finalStream s .qr hdeg (qrStream_ecc s hb hj) (by omega)⟩

theorem stridedBase_eq (v : Word) : stridedBase v = field v 0 13 := bitField_eq_extract v 0 13 (by decide)

theorem stridedStep_eq (v : Word) : stridedStep v = field v 16 8 := bitField_eq_extract v 16 8 (by decide)

/-- The data codewords that RS_ENCODE reads (43_reed_solomon.md R224). -/
theorem elems_strided (s : State) (l src step : Nat) : s.elems .cwb ((List.range l).map (fun k => src + k * step))
    = (List.range l).map (fun k => s.readByte 0 (0x1000 + src + k * step)) := by
  simp [State.elems, State.elem, Buffer.base, Function.comp_def, Nat.add_assoc]

theorem execRsEncode_leaves {l : Nat} (hn : n < 256) (h : execRsEncode l n s = .next t) :
    t = s.raiseError .argRange
      ∨ (HoldsGen t s.field n ∧ ∀ j, j < n → Holds t (0x2000 + field s.regs.arg1 0 13 + j * field s.regs.arg1 16 8)
          ((rsEcc s.field ((List.range l).map (fun k =>
            s.readByte 0 (0x1000 + field s.regs.arg0 0 13 + k * field s.regs.arg0 16 8))) n).getD j 0)) := by
  simp only [execRsEncode, stridedBase_eq, stridedStep_eq, elems_strided] at h
  obtain ⟨code, hcode, rfl⟩ | ⟨hnone, rfl⟩ := command_cases h
  · have hmem := List.mem_singleton.mp (firstFailing_mem hcode)
    exact .inl (congrArg s.raiseError (Prod.ext_iff.mp hmem).2)
  · have hpass := (firstFailing_eq_none _).mp hnone
    simp only [List.forall_mem_cons, Bool.or_eq_false_iff, decide_eq_false_iff_not] at hpass
    obtain ⟨⟨⟨⟨⟨⟨⟨-, hpos⟩, -⟩, -⟩, hstride⟩, -⟩, -⟩, -⟩ := hpass
    exact .inr ⟨holdsGen_setGen _ _ hn, fun j hj =>
      holds_strided s s.field hn (by omega) (by rwa [rsEcc_length _ _ _ (by omega)])⟩

end Sys2Proof.Machine
end

section
/-! `CTRL.FIELD` (42_gf256.md R193): what it changes of a command that does not look at it. -/

namespace Sys2Proof.Machine

/-- `CTRL.FIELD <- f`. -/
def State.setField (s : State) (f : GField) : State := { s with regs := { s.regs with ctrl := { s.regs.ctrl with field := f } } }

/-- A command whose checks and effect do not look at `CTRL.FIELD` answers the same, apart from `CTRL.FIELD`. -/
theorem command_setField {s : State} {f : GField} {checks : List (Bool × ErrorCode)} {effect : State → State}
    (heffect : effect (s.setField f) = (effect s).setField f) :
    ∃ t, s.command checks effect = .next t ∧ (s.setField f).command checks effect = .next (t.setField f) := by
  cases hcheck : firstFailing checks with
  | some code => exact ⟨_, command_of_failing hcheck, command_of_failing hcheck⟩
  | none =>
    refine ⟨_, command_of_passing hcheck, ?_⟩
    rw [command_of_passing hcheck, heffect]
    rfl

theorem execGfAdd_setField (s : State) (f : GField) (a b : Byte) :
    ∃ t, execGfAdd a b s = .next t ∧ execGfAdd a b (s.setField f) = .next (t.setField f) :=
  command_setField (by rfl)

theorem execEccDm_setField (s : State) (f : GField) :
    ∃ t, execEccDm s = .next t ∧ execEccDm (s.setField f) = .next (t.setField f) :=
  command_setField (by rfl)

theorem execEccQr_setField (s : State) (f : GField) :
    ∃ t, execEccQr s = .next t ∧ execEccQr (s.setField f) = .next (t.setField f) := by
  dsimp only [execEccQr]
  exact command_setField (by rfl)

end Sys2Proof.Machine
end

section
/-! O26 to O31: the two fields and the commands that compute in them. -/

namespace Sys2Proof.Proofs

open Sys2Proof.Machine Sys2Proof.Claim

/-- Settles O26: no check, and `RESULT` written. -/
theorem gfAddMulExpWriteResult : Obligations.GfAddMulExpWriteResult := by
  refine ⟨encoded_of_row (.gfAdd 0 0) fun w => ?_, encoded_of_row (.gfMul 0 0) fun w => ?_,
    encoded_of_row (.gfExp 0) fun w => congrArg _ (bitField_eq_extract w 0 8 (by decide)),
    fun a b s => ⟨_, exec_gfAdd a b s, succeeds_setResult s rfl⟩, fun a b s => ⟨_, exec_gfMul a b s, succeeds_setResult s rfl⟩,
    fun k s => ⟨_, exec_gfExp k s, succeeds_setResult s rfl⟩⟩
  · exact congrArg₂ Instr.gfAdd (ofNat_bitField_byte w 0) (ofNat_bitField_byte w 8)
  · exact congrArg₂ Instr.gfMul (ofNat_bitField_byte w 0) (ofNat_bitField_byte w 8)

/-- Settles O27: the one check is for 0, and then `RESULT` is written. -/
theorem gfDivInvLogWriteResult : Obligations.GfDivInvLogWriteResult := by
  refine ⟨encoded_of_row (.gfDiv 0 0) fun w => congrArg₂ Instr.gfDiv (ofNat_bitField_byte w 0) (ofNat_bitField_byte w 8),
    encoded_of_row (.gfInv 0) fun w => congrArg _ (ofNat_bitField_byte w 0),
    encoded_of_row (.gfLog 0) fun w => congrArg _ (ofNat_bitField_byte w 0), fun a b s => ?_, fun a s => ?_, fun a s => ?_⟩
  · refine ends_of_command (exec_gfDiv a b s) (.cons (testedBy_decide ..) .nil) fun _ => succeeds_setResult s ?_
    rw [gfDiv, apply_ite (BitVec.setWidth 32)]
    rfl
  · exact ends_of_command (exec_gfInv a s) (.cons (testedBy_decide ..) .nil) fun _ => succeeds_setResult s rfl
  · refine ends_of_command (exec_gfLog a s) (.cons (testedBy_decide ..) .nil) fun hpass => ?_
    have hlt : gfLog s.field a < 255 := gfLog_lt _ (by simpa using hpass)
    have hwiden : (BitVec.ofNat 8 (gfLog s.field a)).setWidth 32 = BitVec.ofNat 32 (gfLog s.field a) :=
      setWidth_ofNat_byte (by omega)
    refine ⟨succeeds_setResult s hwiden, ?_⟩
    rw [State.complete_regs, State.setResult_regs, hwiden, BitVec.toNat_ofNat]
    omega

/-- Settles O28: the commands that read `CTRL.FIELD` pass it to their effect, and the other three have the same checks and effect
whatever it holds. -/
theorem fieldSelection : Obligations.FieldSelection := by
  intro s f
  refine ⟨?unread, fun a b => ⟨_, exec_gfMul a b _, rfl⟩, fun a b hb => ⟨_, exec_gfDiv_of_ne_zero hb a _, rfl⟩,
    fun a ha => ⟨_, exec_gfInv_of_ne_zero ha _, rfl⟩, fun k => ⟨_, exec_gfExp k _, rfl⟩,
    fun a ha => ⟨_, exec_gfLog_of_ne_zero ha _, setWidth_ofNat_byte (Nat.lt_succ_of_lt (gfLog_lt f ha))⟩,
    fun n hpos hn => ⟨_, exec_rsGenpoly_of_pos hpos _, holdsGen_setGen _ f hn⟩, fun l n _ hn => ?encode, ?eccDm, ?eccQr⟩
  case unread =>
    rintro i (rfl | rfl | ⟨a, b, rfl⟩)
    · exact execEccDm_setField s f
    · exact execEccQr_setField s f
    · exact execGfAdd_setField s f a b
  case encode =>
    obtain ⟨t, ht⟩ := exec_continues (.rsEncode l n) (s.setField f)
    exact ⟨t, ht, execRsEncode_leaves hn ht⟩
  case eccDm =>
    obtain ⟨t, ht⟩ := exec_continues .eccDm (s.setField f)
    exact ⟨t, ht, execEccDm_leaves ht⟩
  case eccQr =>
    obtain ⟨t, ht⟩ := exec_continues .eccQr (s.setField f)
    exact ⟨t, ht, execEccQr_leaves ht⟩

/-- Settles O29: the powers are the iterates of one turn of the table loop, which has period 255, so they are all the nonzero bytes. -/
theorem gfPowersOfAlpha : Obligations.GfPowersOfAlpha := fun f =>
  ⟨gfExp_zero f, fun k => by rw [toNat_gfExp_succ, gfNext_of_lt (gfExp f k).isLt]; rfl, gfExp_add_period f,
    fun _ _ => gfExp_injOn f, fun _ ha => gfLog_spec f ha, fun i hi => by rw [gfLog_gfExp, Nat.mod_eq_of_lt hi]⟩

/-- Settles O30: both products are additive in each factor and agree on the powers of `x`. -/
theorem gfMulIsPolynomialProduct : Obligations.GfMulIsPolynomialProduct :=
  ⟨toNat_gfMul, fun f _ _ => gfMul_of_ne_zero f, fun _ _ _ h => if_pos h, fun _ _ => rfl⟩

/-- Settles O31: every nonzero byte is a power of `alpha`, the product adds exponents, and multiplying by a power is additive. -/
theorem gfFieldLaws : Obligations.GfFieldLaws := fun f =>
  ⟨fun a b => ⟨gfAdd_comm a b, gfMul_comm f a b⟩, fun a b c => ⟨gfAdd_assoc a b c, gfMul_assoc f a b c⟩, gfMul_gfAdd f,
    fun a => ⟨gfAdd_self a, gfMul_one f a, gfMul_zero_right f a⟩, fun _ => gfMul_gfInv f, fun a _ => gfMul_gfDiv f a,
    fun _ => gfExp_gfLog f⟩

end Sys2Proof.Proofs
end

section
/-! Polynomials over GF(256) as coefficient lists, lowest order first (43_reed_solomon.md R220 to R223): the sum of two, its coefficients
and its value. -/

namespace Sys2Proof.Machine

open Claim (valueLow valueHigh productCoeff)

/-! ### Neutral elements -/

@[simp] theorem gfAdd_zero (a : Byte) : gfAdd a 0 = a := BitVec.xor_zero

@[simp] theorem zero_gfAdd (a : Byte) : gfAdd 0 a = a := BitVec.zero_xor

theorem gfAdd_left_comm (a b c : Byte) : gfAdd a (gfAdd b c) = gfAdd b (gfAdd a c) := by
  rw [← gfAdd_assoc, gfAdd_comm a b, gfAdd_assoc]

theorem gfMul_left_comm (f : GField) (a b c : Byte) : gfMul f a (gfMul f b c) = gfMul f b (gfMul f a c) := by
  rw [← gfMul_assoc, gfMul_comm f a b, gfMul_assoc]

/-! ### The sum of two polynomials -/

/-- The sum of two polynomials, the shorter one continued with coefficients 0. -/
def polyAdd : List Byte → List Byte → List Byte
  | [], q => q
  | a :: p, [] => a :: p
  | a :: p, b :: q => gfAdd a b :: polyAdd p q

@[simp] theorem polyAdd_nil (p : List Byte) : polyAdd p [] = p := by cases p <;> rfl

theorem polyAdd_getD (p q : List Byte) (k : Nat) : (polyAdd p q).getD k 0 = gfAdd (p.getD k 0) (q.getD k 0) := by
  induction p generalizing q k with
  | nil => exact (zero_gfAdd _).symm
  | cons a p ih =>
    cases q with
    | nil => exact (gfAdd_zero _).symm
    | cons b q =>
      cases k with
      | zero => rfl
      | succ k => simpa [polyAdd] using ih q k

/-- Below the end of both, the sum goes coefficient by coefficient. -/
theorem polyAdd_append {p q : List Byte} (h : p.length = q.length) (p' q' : List Byte) :
    polyAdd (p ++ p') (q ++ q') = List.zipWith gfAdd p q ++ polyAdd p' q' := by
  induction p generalizing q with
  | nil => cases q with
    | nil => rfl
    | cons b q => cases h
  | cons a p ih => cases q with
    | nil => cases h
    | cons b q => simpa [polyAdd] using ih (Nat.succ.inj h)

theorem getD_map_gfMul (f : GField) (c : Byte) (p : List Byte) (k : Nat) : (p.map (gfMul f c)).getD k 0 = gfMul f c (p.getD k 0) := by
  conv_lhs => rw [← gfMul_zero_right f c, List.getD_map]

/-! ### Values -/

@[simp] theorem valueLow_nil (f : GField) (x : Byte) : valueLow f [] x = 0 := rfl

@[simp] theorem valueLow_cons (f : GField) (a : Byte) (p : List Byte) (x : Byte) :
    valueLow f (a :: p) x = gfAdd a (gfMul f x (valueLow f p x)) := rfl

theorem valueLow_polyAdd (f : GField) (p q : List Byte) (x : Byte) :
    valueLow f (polyAdd p q) x = gfAdd (valueLow f p x) (valueLow f q x) := by
  induction p generalizing q with
  | nil => exact (zero_gfAdd _).symm
  | cons a p ih =>
    cases q with
    | nil => exact (gfAdd_zero _).symm
    | cons b q => simp only [polyAdd, valueLow_cons, ih, gfMul_gfAdd, gfAdd_assoc, gfAdd_left_comm b]

theorem valueLow_map_gfMul (f : GField) (c : Byte) (p : List Byte) (x : Byte) :
    valueLow f (p.map (gfMul f c)) x = gfMul f c (valueLow f p x) := by
  induction p with
  | nil => exact (gfMul_zero_right f c).symm
  | cons a p ih => rw [List.map_cons, valueLow_cons, valueLow_cons, ih, gfMul_gfAdd, gfMul_left_comm]

theorem valueLow_replicate_zero (f : GField) (n : Nat) (x : Byte) : valueLow f (List.replicate n 0) x = 0 := by
  induction n with
  | zero => rfl
  | succ n ih => rw [List.replicate_succ, valueLow_cons, ih, gfMul_zero_right, gfAdd_self]

/-- A codeword sequence is the polynomial of its reverse (43_reed_solomon.md R222). -/
theorem valueHigh_eq_valueLow (f : GField) (c : List Byte) (x : Byte) : valueHigh f c x = valueLow f c.reverse x := by
  rw [valueHigh, valueLow, List.foldr_reverse]
  simp only [gfAdd_comm, gfMul_comm f x]

/-! ### Products -/

theorem foldl_gfAdd (g : Nat → Byte) (l : List Nat) (a : Byte) :
    l.foldl (fun acc i => gfAdd acc (g i)) a = gfAdd a (l.foldl (fun acc i => gfAdd acc (g i)) 0) := by
  induction l generalizing a with
  | nil => exact (gfAdd_zero a).symm
  | cons i l ih => rw [List.foldl_cons, List.foldl_cons, ih, ih (gfAdd 0 _), zero_gfAdd, gfAdd_assoc]

/-- The product with nothing is 0. -/
theorem productCoeff_nil (f : GField) (g : List Byte) (k : Nat) : productCoeff f [] g k = 0 := by
  simp only [productCoeff, List.getD_nil, gfMul_zero_left, gfAdd_zero]
  exact List.foldl_fixed _

/-- The product by one more coefficient: `(c + x q) g = c g + x (q g)`. -/
theorem productCoeff_cons (f : GField) (c : Byte) (q g : List Byte) (k : Nat) :
    productCoeff f (c :: q) g k = gfAdd (if k = 0 then 0 else productCoeff f q g (k - 1)) (gfMul f c (g.getD k 0)) := by
  rw [productCoeff, List.range_succ_eq_map, List.foldl_cons, List.foldl_map, foldl_gfAdd, zero_gfAdd, gfAdd_comm]
  cases k with
  | zero => rfl
  | succ k => simp [productCoeff]

end Sys2Proof.Machine
end

section
/-! The generator polynomial and the division register (43_reed_solomon.md R220, R222): a turn of the register multiplies the polynomial of
data and register by `x` and adds a multiple of the generator. -/

namespace Sys2Proof.Machine

open Claim (valueLow valueHigh productCoeff)

variable {n : Nat}

theorem claim_firstRoot (f : GField) : Claim.firstRoot f = f.firstRoot := by cases f <;> rfl

/-! ### The generator polynomial -/

/-- Multiplying by `x + r` is `x g + r g`. -/
theorem mulByRoot_eq_polyAdd (f : GField) (r : Byte) (g : List Byte) : mulByRoot f r g = polyAdd (0 :: g) (g.map (gfMul f r)) := by
  have hzip (a : Byte) : List.zipWith gfAdd (a :: g) (g.map (gfMul f r) ++ [0]) = polyAdd (a :: g) (g.map (gfMul f r)) := by
    induction g generalizing a with
    | nil => exact congrArg (fun b => [b]) (gfAdd_zero a)
    | cons b g ih => exact congrArg (gfAdd a (gfMul f r b) :: ·) (ih b)
  simpa only [mulByRoot, gfMul_comm f _ r] using hzip 0

theorem genPoly_leading (f : GField) (n : Nat) : (genPoly f n).getD n 0 = 1 := by
  induction n with
  | zero => rfl
  | succ n ih =>
    have hend : ((genPoly f n).map (gfMul f (gfExp f (f.firstRoot + n)))).getD (n + 1) 0 = 0 :=
      List.getD_eq_default _ _ (by simp)
    rw [genPoly, mulByRoot_eq_polyAdd, polyAdd_getD, hend, List.getD_cons_succ, ih, gfAdd_zero]

/-- The generator is monic: below its leading 1 stand the coefficients that the division register taps. -/
theorem genPoly_eq_append (f : GField) (n : Nat) : genPoly f n = (genPoly f n).take n ++ [1] := by
  have hlt : n < (genPoly f n).length := by simp
  have hlast : (genPoly f n)[n] = 1 := by rw [← List.getD_eq_getElem _ 0 hlt, genPoly_leading]
  calc genPoly f n = (genPoly f n).take (n + 1) := (List.take_of_length_le (genPoly_length f n).le).symm
    _ = (genPoly f n).take n ++ [1] := by rw [← List.take_concat_get' _ n hlt, hlast]

theorem valueLow_genPoly_succ (f : GField) (n : Nat) (x : Byte) :
    valueLow f (genPoly f (n + 1)) x = gfMul f (valueLow f (genPoly f n) x) (gfAdd x (gfExp f (f.firstRoot + n))) := by
  rw [genPoly, mulByRoot_eq_polyAdd, valueLow_polyAdd, valueLow_map_gfMul, valueLow_cons, zero_gfAdd, gfMul_comm f _ (gfAdd _ _),
    gfAdd_gfMul]

/-- The value of the generator is the product of the distances to its roots (43_reed_solomon.md R220). -/
theorem valueLow_genPoly (f : GField) (n : Nat) (x : Byte) :
    valueLow f (genPoly f n) x = (List.range n).foldl (fun acc i => gfMul f acc (gfAdd x (gfExp f (f.firstRoot + i)))) 1 := by
  induction n with
  | zero => rw [genPoly, valueLow_cons, valueLow_nil, gfMul_zero_right]; rfl
  | succ n ih => rw [valueLow_genPoly_succ, ih, List.range_succ, List.foldl_append, List.foldl_cons, List.foldl_nil]

theorem valueLow_genPoly_root (f : GField) {n i : Nat} (hi : i < n) : valueLow f (genPoly f n) (gfExp f (f.firstRoot + i)) = 0 := by
  induction n with
  | zero => omega
  | succ n ih =>
    rw [valueLow_genPoly_succ]
    obtain hlt | rfl := Nat.lt_succ_iff_lt_or_eq.mp hi
    · rw [ih hlt, gfMul_zero_left]
    · rw [gfAdd_self, gfMul_zero_right]

/-! ### One turn of the division register -/

/-- The feedback of a turn (43_reed_solomon.md R222). -/
def feedback (e : List Byte) (x : Byte) : Byte := gfAdd x (e.headD 0)

theorem rsEcc_concat (f : GField) (d : List Byte) (x : Byte) (n : Nat) :
    rsEcc f (d ++ [x]) n = rsShift f (genTaps f n) (rsEcc f d n) x := by
  rw [rsEcc, List.foldl_append]
  rfl

/-- A turn multiplies the polynomial of data and register by `x` and adds the feedback times the generator. -/
theorem concat_rsShift_reverse (f : GField) {e : List Byte} (hn : 0 < n) (he : e.length = n) (d : List Byte) (x : Byte) :
    (d ++ [x] ++ rsShift f (genTaps f n) e x).reverse
      = polyAdd (0 :: (d ++ e).reverse) ((genPoly f n).map (gfMul f (feedback e x))) := by
  cases e with
  | nil => exact absurd he hn.ne
  | cons h e =>
    have htop : gfAdd h (feedback (h :: e) x) = x := by
      rw [feedback, List.headD_cons, gfAdd_left_comm, gfAdd_self, gfAdd_zero]
    have hlow : (rsShift f (genTaps f n) (h :: e) x).reverse
        = List.zipWith gfAdd (0 :: e.reverse) (((genPoly f n).take n).map (gfMul f (feedback (h :: e) x))) := by
      rw [rsShift, List.reverse_zipWith (by simpa using he)]
      simp [genTaps, feedback]
    generalize feedback (h :: e) x = fb at htop hlow ⊢
    have hgen : (genPoly f n).map (gfMul f fb) = ((genPoly f n).take n).map (gfMul f fb) ++ [fb] := by
      conv_lhs => rw [genPoly_eq_append, List.map_append, List.map_singleton, gfMul_one]
    have hregister : 0 :: (d ++ h :: e).reverse = (0 :: e.reverse) ++ h :: d.reverse := by simp
    have hlen : (0 :: e.reverse).length = (((genPoly f n).take n).map (gfMul f fb)).length := by simpa using he
    rw [hgen, hregister, polyAdd_append hlen, polyAdd, htop, polyAdd_nil, List.reverse_append, hlow, List.reverse_concat]

/-- The polynomial of data and ECC codewords is a multiple of the generator (43_reed_solomon.md R222). -/
theorem rsEcc_multiple (f : GField) (d : List Byte) (hn : 0 < n) :
    ∃ q : List Byte, ∀ k, ((d ++ rsEcc f d n).reverse).getD k 0 = productCoeff f q (genPoly f n) k := by
  induction d using List.reverseRecOn with
  | nil =>
    refine ⟨[], fun k => ?_⟩
    rw [productCoeff_nil, List.nil_append, rsEcc, List.foldl_nil, List.reverse_replicate, List.getD_eq_getElem?_getD,
      List.getElem?_getD_replicate_default_eq]
  | append_singleton d x ih =>
    obtain ⟨q, hq⟩ := ih
    refine ⟨feedback (rsEcc f d n) x :: q, fun k => ?_⟩
    rw [rsEcc_concat, concat_rsShift_reverse f hn (rsEcc_length f d n hn), polyAdd_getD, productCoeff_cons, getD_map_gfMul]
    cases k with
    | zero => rfl
    | succ k => rw [List.getD_cons_succ, hq, if_neg k.succ_ne_zero, Nat.add_sub_cancel]

/-- So it is 0 at every root of the generator (43_reed_solomon.md R223). -/
theorem valueHigh_rsEcc_root (f : GField) (d : List Byte) {i : Nat} (hi : i < n) :
    valueHigh f (d ++ rsEcc f d n) (gfExp f (f.firstRoot + i)) = 0 := by
  rw [valueHigh_eq_valueLow]
  induction d using List.reverseRecOn with
  | nil =>
    rw [List.nil_append, rsEcc, List.foldl_nil, List.reverse_replicate, valueLow_replicate_zero]
  | append_singleton d x ih =>
    rw [rsEcc_concat, concat_rsShift_reverse f (by omega) (rsEcc_length f d n (by omega)), valueLow_polyAdd, valueLow_cons, ih,
      valueLow_map_gfMul, valueLow_genPoly_root f hi, gfMul_zero_right, gfMul_zero_right, gfAdd_self, gfAdd_self]

/-- Tap `j` of the register is the coefficient of `x^(n - 1 - j)` (43_reed_solomon.md R222). -/
theorem genTaps_getElem? (f : GField) {j : Nat} (hj : j < n) : (genTaps f n)[j]? = some ((genPoly f n).getD (n - 1 - j) 0) := by
  have hlen : n - 1 - j < (genPoly f n).length := by rw [genPoly_length]; omega
  rw [genTaps, List.getElem?_reverse (by simpa using hj), List.getElem?_take, List.length_take, genPoly_length,
    Nat.min_eq_left n.le_succ, if_pos (by omega), List.getD_eq_getElem _ _ hlen, List.getElem?_eq_getElem hlen]

/-- One codeword of the register after a turn (43_reed_solomon.md R222). -/
theorem rsShift_getD (f : GField) {e : List Byte} (he : e.length = n) (x : Byte) {j : Nat} (hj : j < n) :
    (rsShift f (genTaps f n) e x).getD j 0 = gfAdd (e.getD (j + 1) 0) (gfMul f (feedback e x) ((genPoly f n).getD (n - 1 - j) 0)) := by
  have hregister : (e.tail ++ [0])[j]? = some (e.getD (j + 1) 0) := by
    cases e with
    | nil => exact absurd he (by simp; omega)
    | cons h e =>
      rw [List.length_cons] at he
      rw [List.tail_cons, List.getD_cons_succ, List.getD_eq_getElem?_getD]
      by_cases hlt : j < e.length
      · rw [List.getElem?_append_left hlt, List.getElem?_eq_getElem hlt, Option.getD_some]
      · rw [show j = e.length by omega, List.getElem?_concat_length, List.getElem?_eq_none le_rfl, Option.getD_none]
  rw [rsShift, List.getD_eq_getElem?_getD, List.getElem?_zipWith, hregister, List.getElem?_map, genTaps_getElem? f hj]
  rfl

/-- The ECC codewords after one more data codeword (43_reed_solomon.md R222). -/
theorem rsEcc_concat_getD (f : GField) (d : List Byte) (x : Byte) {j : Nat} (hj : j < n) :
    (rsEcc f (d ++ [x]) n).getD j 0 = gfAdd ((rsEcc f d n).getD (j + 1) 0)
      (gfMul f (gfAdd x ((rsEcc f d n).getD 0 0)) ((genPoly f n).getD (n - 1 - j) 0)) := by
  rw [rsEcc_concat, rsShift_getD f (rsEcc_length f d n (by omega)) x hj, feedback, List.headD_eq_getD]

/-- A codeword 0 leaves a register of zeros as it is. -/
theorem rsShift_zero (f : GField) (hn : 0 < n) :
    rsShift f (genTaps f n) (List.replicate n 0) 0 = List.replicate n 0 := by
  obtain ⟨m, rfl⟩ := Nat.exists_eq_succ_of_ne_zero hn.ne'
  have hmap : (genTaps f (m + 1)).map (gfMul f (gfAdd 0 0)) = List.replicate (m + 1) 0 := by
    refine List.eq_replicate_iff.mpr ⟨by rw [List.length_map, genTaps_length], fun b hb => ?_⟩
    obtain ⟨c, -, rfl⟩ := List.mem_map.mp hb
    rw [gfAdd_self, gfMul_zero_left]
  calc rsShift f (genTaps f (m + 1)) (List.replicate (m + 1) 0) 0
      = List.zipWith gfAdd (List.replicate m 0 ++ [0]) ((genTaps f (m + 1)).map (gfMul f (gfAdd 0 0))) := rfl
    _ = List.replicate (m + 1) 0 := by
      rw [hmap, ← List.replicate_succ', List.zipWith_replicate, Nat.min_self, gfAdd_self]

/-- Data of codewords 0 leaves the register 0 (43_reed_solomon.md R223). -/
theorem rsEcc_of_zero (f : GField) (hn : 0 < n) {d : List Byte} (h : ∀ c ∈ d, c = 0) : rsEcc f d n = List.replicate n 0 := by
  induction d using List.reverseRecOn with
  | nil => rfl
  | append_singleton d x ih =>
    rw [rsEcc_concat, ih fun c hc => h c (by simp [hc]), h x (by simp), rsShift_zero f hn]

end Sys2Proof.Machine
end

section
/-! Column by column (43_reed_solomon.md R228): where a data codeword of a QR block stands in the final stream. -/

namespace Sys2Proof.Machine

open Claim (qrBlock qrLen qrStart qrDataPos)

theorem length_filterMap_getElem? {α : Type} (blocks : List (List α)) (i : Nat) :
    (blocks.filterMap (·[i]?)).length = (blocks.filter (fun b => i < b.length)).length := by
  rw [List.length_filterMap_eq_countP, List.countP_eq_length_filter]
  refine congrArg List.length (List.filter_congr fun b _ => ?_)
  by_cases h : i < b.length <;> simp [h]

/-- Codeword `i` of a block stands behind the columns before it and the codewords `i` of the blocks before it. -/
theorem interleaveData_getElem? {columns b i : Nat} {blocks : List (List Byte)} {block : List Byte} {v : Byte} (hi : i < columns)
    (hb : blocks[b]? = some block) (hv : block[i]? = some v) :
    (interleaveData columns blocks)[(blocks.map (fun b => min i b.length)).sum
      + ((blocks.take b).filter (fun b => i < b.length)).length]? = some v := by
  obtain ⟨m, rfl⟩ := Nat.exists_eq_add_of_lt hi
  obtain ⟨hlt, rfl⟩ := List.getElem?_eq_some_iff.mp hb
  have hcolumn : blocks.filterMap (·[i]?)
      = (blocks.take b).filterMap (·[i]?) ++ v :: (blocks.drop (b + 1)).filterMap (·[i]?) := by
    conv_lhs => rw [← List.take_append_drop b blocks, List.drop_eq_getElem_cons hlt]
    rw [List.filterMap_append, List.filterMap_cons_some (f := (·[i]?)) hv]
  rw [← interleaveData_length, ← length_filterMap_getElem?, interleaveData, Nat.add_assoc, List.range_add, List.flatMap_append,
    ← interleaveData, List.getElem?_append_right (Nat.le_add_right _ _), Nat.add_sub_cancel_left, List.range_succ_eq_map,
    List.map_cons, List.flatMap_cons, Nat.add_zero, hcolumn]
  simp

theorem qrRuns_eq (q : QrBlk) :
    qrRuns q = (List.range (q.g1c.toNat + q.g2c.toNat)).map (fun b => (qrStart q b, qrLen q b)) := by
  refine List.ext_getElem? fun b => ?_
  by_cases hb : b < q.g1c.toNat + q.g2c.toNat
  · rw [qrRuns_getElem? q hb, List.getElem?_map, List.getElem?_range hb, Option.map_some]
  · rw [List.getElem?_eq_none (by rw [qrRuns_length]; omega), List.getElem?_eq_none (by simpa using hb)]

theorem elems_run (s : State) (b : Nat) :
    s.elems .cwb ((List.range (qrLen s.regs.qrBlk b)).map (qrStart s.regs.qrBlk b + ·)) = qrBlock s 0 b := by
  simp [State.elems, State.elem, qrBlock, Buffer.base, Nat.add_assoc]

theorem qrBlock_length (s : State) (read b : Nat) : (qrBlock s read b).length = qrLen s.regs.qrBlk b := by simp [qrBlock]

/-- Data codeword `i` of block `b` in ECC_QR's final stream (43_reed_solomon.md R228, R229). -/
theorem qrStream_data (s : State) {b i : Nat} (hb : b < s.qrBlocks) (hi : i < qrLen s.regs.qrBlk b) :
    s.qrStream[qrDataPos s.regs.qrBlk s.qrBlocks b i]? = some (s.readByte 0 (0x1000 + qrStart s.regs.qrBlk b + i)) := by
  have hcolumns : i < qrColumns s.regs.qrBlk :=
    Nat.lt_of_lt_of_le hi (run_le_qrColumns (List.mem_of_getElem? (qrRuns_getElem? s.regs.qrBlk hb)))
  have hblocks : (qrRuns s.regs.qrBlk).map (fun r => s.elems .cwb ((List.range r.2).map (r.1 + ·)))
      = (List.range s.qrBlocks).map (qrBlock s 0) := by
    rw [qrRuns_eq, List.map_map]
    exact List.map_congr_left fun b _ => elems_run s b
  have hblock : ((List.range s.qrBlocks).map (qrBlock s 0))[b]? = some (qrBlock s 0 b) := by
    rw [List.getElem?_map, List.getElem?_range hb, Option.map_some]
  have hvalue : (qrBlock s 0 b)[i]? = some (s.readByte 0 (0x1000 + qrStart s.regs.qrBlk b + i)) := by
    rw [qrBlock, List.getElem?_map, List.getElem?_range hi, Option.map_some]
  have hpos : (((List.range s.qrBlocks).map (qrBlock s 0)).map (fun b => min i b.length)).sum
      + ((((List.range s.qrBlocks).map (qrBlock s 0)).take b).filter (fun b => i < b.length)).length
      = qrDataPos s.regs.qrBlk s.qrBlocks b i := by
    rw [← List.map_take, List.take_range, Nat.min_eq_left hb.le, List.filter_map, List.length_map, List.map_map, qrDataPos]
    simp only [Function.comp_def, qrBlock_length, Nat.min_comm i]
  have hdata := interleaveData_getElem? hcolumns hblock hvalue
  rw [hpos] at hdata
  obtain ⟨hlt, -⟩ := List.getElem?_eq_some_iff.mp hdata
  rw [State.qrStream, hblocks, List.getElem?_append_left hlt, hdata]

end Sys2Proof.Machine
end

section
/-! The Reed–Solomon commands as their checks and one effect, and what each effect leaves (43_reed_solomon.md R221 to R232). -/

namespace Sys2Proof.Machine

open Claim (Ends Succeeds Holds field inGen dmBlock qrBlock qrLen qrStart)

variable {s : State} {f : GField} {n off : Nat}

/-! ### The frame of the effects -/

theorem setGen_outside (s : State) (f : GField) (hn : n < 256) (hout : ¬ inGen off) :
    (s.setGen f n).mem.lookup off = s.mem.lookup off ∧ (s.setGen f n).holes.lookup off = s.holes.lookup off :=
  ⟨lookup_setGen_outside s f n off hn (by omega), by rw [holes_setGen s f n off hn, if_neg hout]⟩

/-- RS_GENPOLY changes `GEN` and `GEN_DEG` only. -/
theorem succeeds_setGen (s : State) (f : GField) (hn : n < 256) :
    Succeeds s (s.setGen f n).complete (fun g => { g with genDeg := BitVec.ofNat 8 n }) inGen :=
  succeeds_complete rfl rfl rfl rfl fun _ hout => setGen_outside s f hn hout

/-- RS_ENCODE changes `GEN`, `GEN_DEG` and the strided places of `FSB` only. -/
theorem succeeds_strided (s : State) (f : GField) (hn : n < 256) (stride pos : Nat) {bytes : List Byte} (hlen : bytes.length = n) :
    Succeeds s ((State.writeStrided stride pos bytes s).setGen f n).complete (fun g => { g with genDeg := BitVec.ofNat 8 n })
      (fun off => inGen off ∨ ∃ j, j < n ∧ off = 0x2000 + pos + j * stride) := by
  obtain ⟨hregs, -, hhost, hresp, hdraws⟩ := writeStrided_frame stride pos bytes s
  refine succeeds_complete ?_ hhost hresp hdraws fun off hout => ?_
  · rw [State.complete_regs, State.setGen_regs, hregs]
    rfl
  · obtain ⟨hgen, hplaces⟩ := not_or.mp hout
    obtain ⟨hmem, hholes⟩ := setGen_outside (State.writeStrided stride pos bytes s) f hn hgen
    rw [hmem, hholes, holes_writeStrided, hlen, if_neg hplaces]
    exact ⟨lookup_writeStrided_outside stride pos bytes s off fun j hj heq => hplaces ⟨j, hlen ▸ hj, heq⟩, rfl⟩

/-- ECC_DM and ECC_QR change `GEN`, `GEN_DEG`, `FS_LEN` and the final stream's places in `FSB` only. -/
theorem succeeds_finalStream (s : State) (f : GField) (hn : n < 256) {bytes : List Byte} {d e : Nat} (hlen : bytes.length = d + e) :
    Succeeds s (((s.writeBytes Buffer.fsb.base bytes).setFsLen (d + e)).setGen f n).complete
      (fun g => { g with fsLen := BitVec.ofNat 13 (d + e), genDeg := BitVec.ofNat 8 n })
      (fun off => inGen off ∨ (0x2000 ≤ off ∧ off < 0x2000 + d + e)) := by
  refine succeeds_complete rfl rfl rfl rfl fun off hout => ?_
  obtain ⟨hgen, hstream⟩ := not_or.mp hout
  obtain ⟨hmem, hholes⟩ := setGen_outside ((s.writeBytes Buffer.fsb.base bytes).setFsLen (d + e)) f hn hgen
  rw [hmem, hholes]
  exact writeBytes_outside s (by rwa [hlen, ← Nat.add_assoc])

/-! ### The commands -/

theorem exec_rsEncode (l n : Nat) (s : State) : exec (.rsEncode l n) s
    = s.command
        [(stridedReserved s.regs.arg0 || stridedReserved s.regs.arg1 || decide (n = 0) || decide (4096 < l)
            || decide (field s.regs.arg0 16 8 = 0) || decide (field s.regs.arg1 16 8 = 0)
            || (decide (0 < l) && decide (4095 < field s.regs.arg0 0 13 + (l - 1) * field s.regs.arg0 16 8))
            || decide (4095 < field s.regs.arg1 0 13 + (n - 1) * field s.regs.arg1 16 8), .argRange)]
        (fun s' => (s'.writeStrided (field s.regs.arg1 16 8) (field s.regs.arg1 0 13)
          (rsEcc s'.field (s'.elems .cwb ((List.range l).map (fun k => field s.regs.arg0 0 13 + k * field s.regs.arg0 16 8))) n)).setGen
            s'.field n) := by
  simp only [← stridedBase_eq, ← stridedStep_eq]
  rfl

theorem stridedReserved_iff (v : Word) : stridedReserved v = true ↔ field v 13 3 ≠ 0 ∨ field v 24 8 ≠ 0 := by
  have hlow : bitField v 15 13 = field v 13 3 := bitField_eq_extract v 13 3 (by decide)
  have hhigh : bitField v 31 24 = field v 24 8 := bitField_eq_extract v 24 8 (by decide)
  simp [stridedReserved, hlow, hhigh]

theorem exec_eccDm (s : State) : exec .eccDm s
    = s.command
        [(decide (s.dmBlocks = 0) || decide (s.dmEcc = 0) || decide (s.dmData = 0), .descriptorInvalid),
         (decide (4096 < s.dmData + s.dmEcc), .descriptorInvalid), (decide (s.dmEcc % s.dmBlocks ≠ 0), .internalConsistency),
         (decide (255 < s.dmEcc / s.dmBlocks), .descriptorInvalid), (decide (s.dmData < s.dmBlocks), .internalConsistency),
         (decide (s.cwLenNat ≠ s.dmData), .internalConsistency)]
        (fun s => ((s.writeBytes Buffer.fsb.base s.dmStream).setFsLen (s.dmData + s.dmEcc)).setGen .dm (s.dmEcc / s.dmBlocks)) := rfl

theorem exec_eccQr (s : State) : exec .eccQr s
    = s.command
        [(decide (s.qrBlocks = 0), .descriptorInvalid),
         ((decide (0 < s.regs.qrBlk.g1c.toNat) && decide (s.regs.qrBlk.g1d.toNat = 0))
            || (decide (0 < s.regs.qrBlk.g2c.toNat) && decide (s.regs.qrBlk.g2d.toNat = 0)), .descriptorInvalid),
         (decide (s.qrEccPerBlock = 0), .descriptorInvalid), (decide (4096 < s.qrData + s.qrEccTotal), .descriptorInvalid),
         (decide (s.cwLenNat ≠ s.qrData), .internalConsistency)]
        (fun s => ((s.writeBytes Buffer.fsb.base s.qrStream).setFsLen (s.qrData + s.qrEccTotal)).setGen .qr s.qrEccPerBlock) := rfl

/-- The data codewords stand first in ECC_DM's final stream (43_reed_solomon.md R225). -/
theorem dmStream_data (s : State) {k : Nat} (hk : k < s.dmData) : s.dmStream[k]? = some (s.readByte 0 (0x1000 + k)) := by
  rw [State.dmStream, List.getElem?_append_left (by simpa using hk), State.elems, List.getElem?_map, List.getElem?_range hk,
    Option.map_some]
  rfl

/-- A command of which no cause holds completes as its statement says. -/
theorem exec_of_ends {i : Instr} {causes : List (Prop × ErrorCode)} {done : State → Prop} (h : Ends i s causes done)
    (hno : ∀ c ∈ causes, ¬ c.1) : ∃ t, exec i s = .next t ∧ done t := by
  induction causes with
  | nil => exact h
  | cons cause causes ih =>
    obtain ⟨hfirst, hrest⟩ := List.forall_mem_cons.mp hno
    exact ih (h.2 hfirst) hrest

/-! ### A block by its strides (43_reed_solomon.md R230) -/

/-- A defined byte reads the same in every read. -/
theorem readByte_of_holds {v : Byte} (h : Holds s off v) (read : Nat) : s.readByte read off = v := readByte_of_lookup h.1 h.2

/-- The number of data codewords of a Data Matrix block. -/
theorem dmBlock_length (s : State) (read : Nat) {d blocks b : Nat} (hb : b < blocks) :
    (dmBlock s read d blocks b).length = (d - b + blocks - 1) / blocks := by
  rw [dmBlock, ← dmBlockIndexes_eq_filter hb, List.length_map, dmBlockIndexes, List.length_map, List.length_range]

theorem dmBlock_length_le (s : State) (read d blocks b : Nat) : (dmBlock s read d blocks b).length ≤ d := by
  rw [dmBlock, List.length_map]
  exact (List.length_filter_le ..).trans_eq List.length_range

/-- They are those at its first position and every `blocks` after it. -/
theorem dmBlock_eq_strided (s : State) (read : Nat) {d blocks b : Nat} (hb : b < blocks) :
    dmBlock s read d blocks b
      = (List.range (dmBlock s read d blocks b).length).map (fun k => s.readByte read (0x1000 + b + k * blocks)) := by
  rw [dmBlock_length s read hb, dmBlock, ← dmBlockIndexes_eq_filter hb, dmBlockIndexes, List.map_map]
  simp only [Function.comp_def, Nat.add_assoc]

/-- The last of them is below the number of data codewords. -/
theorem dmBlock_last_lt (s : State) (read : Nat) {d blocks b : Nat} (hb : b < blocks) (hd : b < d) :
    b + ((dmBlock s read d blocks b).length - 1) * blocks < d := by
  have hle := Nat.div_mul_le_self (d - b + blocks - 1) blocks
  rw [dmBlock_length s read hb, Nat.sub_mul, Nat.one_mul]
  omega

/-- With defined codewords a read of the block for the ECC codewords and the strided read give the same. -/
theorem dmBlock_eq_of_defined {d : Nat} (h : ∀ k, k < d → ∃ v, Holds s (0x1000 + k) v) (read read' blocks b : Nat) :
    dmBlock s read d blocks b = dmBlock s read' d blocks b := by
  refine List.map_congr_left fun k hk => ?_
  obtain ⟨v, hv⟩ := h k (List.mem_range.mp (List.mem_of_mem_filter hk))
  rw [readByte_of_holds hv, readByte_of_holds hv]

theorem qrLen_lt (q : QrBlk) (b : Nat) : qrLen q b < 256 := by
  rw [qrLen]
  split
  · exact q.g1d.isLt
  · exact q.g2d.isLt

/-- A QR descriptor of one block: it has all the data codewords, and it is rejected for its length only when it is empty. -/
theorem qrBlocks_one (h : s.qrBlocks = 1) : s.qrData = qrLen s.regs.qrBlk 0
    ∧ ((0 < s.regs.qrBlk.g1c.toNat ∧ s.regs.qrBlk.g1d.toNat = 0) ∨ (0 < s.regs.qrBlk.g2c.toNat ∧ s.regs.qrBlk.g2d.toNat = 0)
        → qrLen s.regs.qrBlk 0 = 0) := by
  rw [State.qrBlocks, Nat.add_eq_one_iff] at h
  obtain ⟨h1, h2⟩ | ⟨h1, h2⟩ := h <;> simp [State.qrData, qrLen, h1, h2]

theorem qrBlock_zero_of_defined (h : ∀ k, k < qrLen s.regs.qrBlk 0 → ∃ v, Holds s (0x1000 + k) v) (read : Nat) :
    qrBlock s read 0 = (List.range (qrLen s.regs.qrBlk 0)).map (fun k => s.readByte 0 (0x1000 + 0 + k * 1)) := by
  refine List.map_congr_left fun k hk => ?_
  obtain ⟨v, hv⟩ := h k (List.mem_range.mp hk)
  rw [show qrStart s.regs.qrBlk 0 = 0 from rfl, Nat.mul_one, Nat.add_zero, readByte_of_holds hv, readByte_of_holds hv]

/-- The fields of the operand of a strided layout (30_encoding.md R112). -/
theorem field_strided {step base : Nat} (hstep : step < 2 ^ 8) (hbase : base < 2 ^ 13) :
    field (BitVec.ofNat 32 (step * 2 ^ 16 + base)) 0 13 = base ∧ field (BitVec.ofNat 32 (step * 2 ^ 16 + base)) 13 3 = 0
      ∧ field (BitVec.ofNat 32 (step * 2 ^ 16 + base)) 16 8 = step ∧ field (BitVec.ofNat 32 (step * 2 ^ 16 + base)) 24 8 = 0 := by
  simp only [field, BitVec.extractLsb'_toNat, BitVec.toNat_ofNat, Nat.shiftRight_eq_div_pow]
  omega

/-- `ARG0`, `ARG1` and `CTRL.FIELD` set for RS_ENCODE from `CWB[src + k * step]` to `FSB[dst + j * stride]`. -/
def State.withStrides (s : State) (f : GField) (src step dst stride : Nat) : State :=
  { s with regs := { s.regs with
      arg0 := BitVec.ofNat 32 (step * 2 ^ 16 + src)
      arg1 := BitVec.ofNat 32 (stride * 2 ^ 16 + dst)
      ctrl := { s.regs.ctrl with field := f } } }

end Sys2Proof.Machine
end

section
/-! O32 to O40: the Reed–Solomon coder and its commands. -/

namespace Sys2Proof.Proofs

open Sys2Proof.Machine Sys2Proof.Claim

/-- Settles O32: each multiplication by `x + r` raises the degree, keeps the leading 1 and multiplies the value by `x + r`. -/
theorem generatorIsProductOfRoots : Obligations.GeneratorIsProductOfRoots := fun f n =>
  ⟨genPoly_length f n, genPoly_leading f n, fun x => by rw [claim_firstRoot, valueLow_genPoly]⟩

/-- Settles O33: each turn of the division register adds one coefficient to the quotient. -/
theorem eccIsRemainder : Obligations.EccIsRemainder := fun f d n hn =>
  ⟨rsEcc_length f d n hn, rsEcc_multiple f d hn, rfl, fun x _ hj => rsEcc_concat_getD f d x hj⟩

/-- Settles O34: each turn keeps the value 0 at the roots of the generator, and a codeword 0 keeps a register of zeros. -/
theorem syndromesAreZero : Obligations.SyndromesAreZero := fun f d _ hn _ =>
  ⟨fun i hi => by rw [claim_firstRoot, valueHigh_rsEcc_root f d hi], rsEcc_of_zero f hn⟩

/-- Settles O35: one check and the generator. -/
theorem rsGenpolyWritesGenerator : Obligations.RsGenpolyWritesGenerator := by
  refine ⟨encoded_of_row (.rsGenpoly 0) fun w => congrArg _ (bitField_eq_extract w 0 8 (by decide)), fun n s hn => ?_⟩
  exact ends_of_command (exec_rsGenpoly n s) (.cons (testedBy_decide ..) .nil) fun _ =>
    ⟨succeeds_setGen s _ hn, holdsGen_setGen s _ hn⟩

/-- Settles O36: the one check is all of the rule's causes, and the effect is the strided write and the generator. -/
theorem rsEncodeWritesStridedEcc : Obligations.RsEncodeWritesStridedEcc := by
  refine ⟨encoded_of_row (.rsEncode 0 0) fun w =>
    congrArg₂ Instr.rsEncode (bitField_eq_extract w 0 13 (by decide)) (bitField_eq_extract w 13 8 (by decide)), ?_⟩
  intro l n s _ hn
  refine ends_of_command (exec_rsEncode l n s) (.cons ⟨?tested, rfl⟩ .nil) fun hpass => ?effect
  case tested => simp only [Bool.or_eq_true, Bool.and_eq_true, decide_eq_true_eq, stridedReserved_iff, or_assoc]
  case effect =>
    simp only [List.forall_mem_cons, not_or] at hpass
    obtain ⟨⟨-, -, -, -, hpos, -, -, hstride, -, -⟩, -⟩ := hpass
    rw [elems_strided]
    have hlen (data : List Byte) : (rsEcc s.field data n).length = n := rsEcc_length _ _ _ (Nat.pos_of_ne_zero hpos)
    exact ⟨succeeds_strided s s.field hn _ _ (hlen _), holdsGen_setGen _ _ hn,
      fun j hj => holds_strided s s.field hn (Nat.pos_of_ne_zero hstride) (by rwa [hlen])⟩

/-- Settles O37: the final stream is the data codewords and the ECC codewords in turn, written as one. -/
theorem eccDmBuildsFinalStream : Obligations.EccDmBuildsFinalStream := by
  refine ⟨encoded_of_row .eccDm fun _ => rfl, fun s => ?_⟩
  refine ends_of_command (exec_eccDm s)
    (.cons ⟨?_, rfl⟩ (.cons (testedBy_decide ..) (.cons (testedBy_decide ..) (.cons (testedBy_decide ..)
      (.cons (testedBy_decide ..) (.cons (testedBy_decide ..) .nil)))))) fun hpass => ?_
  · simp only [Bool.or_eq_true, decide_eq_true_eq, or_assoc]
    rfl
  simp only [List.forall_mem_cons, not_lt, not_not] at hpass
  obtain ⟨-, -, hmod, hdeg, -⟩ := hpass
  have hn : s.dmEcc / s.dmBlocks < 256 := Nat.lt_succ_of_le hdeg
  exact ⟨succeeds_finalStream s .dm hn (dmStream_length hmod), holdsGen_setGen _ _ hn,
    fun k hk => holds_finalStream s .dm hn (dmStream_data s hk) rfl,
    fun b j hb hj => holds_finalStream s .dm hn (dmStream_ecc s hb hj) (by simp only [State.dmData, State.dmBlocks]; omega)⟩

/-- Settles O38: the final stream is the data codewords column by column and the ECC codewords column by column, written as one. -/
theorem eccQrBuildsFinalStream : Obligations.EccQrBuildsFinalStream := by
  refine ⟨encoded_of_row .eccQr fun _ => rfl, fun s => ?_⟩
  refine ends_of_command (exec_eccQr s)
    (.cons (testedBy_decide ..) (.cons ⟨?_, rfl⟩ (.cons (testedBy_decide ..) (.cons (testedBy_decide ..)
      (.cons (testedBy_decide ..) .nil))))) fun _ => ?_
  · simp only [Bool.or_eq_true, Bool.and_eq_true, decide_eq_true_eq]
  have hn : s.qrEccPerBlock < 256 := s.regs.qrEcc.isLt
  exact ⟨succeeds_finalStream s .qr hn (qrStream_length s), holdsGen_setGen _ _ hn,
    fun b i hb hi => holds_finalStream s .qr hn (qrStream_data s hb hi) rfl,
    fun b j hb hj => holds_finalStream s .qr hn (qrStream_ecc s hb hj) (by simp only [State.qrData, State.qrBlocks]; omega)⟩

/-- RS_ENCODE between places inside the buffers completes, with the ECC codewords at the strided places. -/
theorem rsEncode_withStrides (s : State) (f : GField) {l n src step dst stride : Nat} (hl : l ≤ 4096) (hn : n < 256) (hpos : 0 < n)
    (hstep : 0 < step ∧ step < 256) (hstride : 0 < stride ∧ stride < 256) (hsrc : src < 4096)
    (hread : 0 < l → src + (l - 1) * step < 4096) (hwrite : dst + (n - 1) * stride < 4096) :
    ∃ u, exec (.rsEncode l n) (s.withStrides f src step dst stride) = .next u ∧ ∀ j, j < n →
      Holds u (0x2000 + dst + j * stride)
        ((rsEcc f ((List.range l).map (fun k => s.readByte 0 (0x1000 + src + k * step))) n).getD j 0) := by
  obtain ⟨hsrcField, hlow0, hstepField, hhigh0⟩ := field_strided (step := step) (base := src) hstep.2 (by omega)
  obtain ⟨hdstField, hlow1, hstrideField, hhigh1⟩ := field_strided (step := stride) (base := dst) hstride.2 (by omega)
  have hends := rsEncodeWritesStridedEcc.2 l n (s.withStrides f src step dst stride) (by omega) hn
  simp only [State.withStrides, hsrcField, hlow0, hstepField, hhigh0, hdstField, hlow1, hstrideField, hhigh1] at hends
  obtain ⟨u, hexec, -, -, hecc⟩ := exec_of_ends hends (by simp only [List.forall_mem_singleton]; omega)
  exact ⟨u, hexec, hecc⟩

/-- ECC_DM's block `b` by its strides (43_reed_solomon.md R230). -/
theorem eccDm_block_by_strides (s : State) {b : Nat} (hb : b < s.dmBlocks) (hecc : s.dmEcc ≠ 0) (hsize : s.dmData + s.dmEcc ≤ 4096)
    (hmod : s.dmEcc % s.dmBlocks = 0) (hdeg : s.dmEcc / s.dmBlocks ≤ 255) (hdata : s.dmBlocks ≤ s.dmData)
    (hcw : s.cwLenNat = s.dmData) (hdef : ∀ k, k < s.dmData → ∃ v, Holds s (0x1000 + k) v) :
    ∃ t u, exec .eccDm s = .next t
      ∧ exec (.rsEncode (dmBlock s 0 s.dmData s.dmBlocks b).length (s.dmEcc / s.dmBlocks))
          (s.withStrides .dm b s.dmBlocks (s.dmData + b) s.dmBlocks) = .next u
      ∧ ∀ j, j < s.dmEcc / s.dmBlocks → ∃ v, Holds t (0x2000 + s.dmData + j * s.dmBlocks + b) v
          ∧ Holds u (0x2000 + s.dmData + j * s.dmBlocks + b) v := by
  have hblocks : 0 < s.dmBlocks ∧ s.dmBlocks < 256 := ⟨by omega, s.regs.dmBlk.isLt⟩
  have htotal : s.dmEcc / s.dmBlocks * s.dmBlocks = s.dmEcc := Nat.div_mul_cancel (Nat.dvd_of_mod_eq_zero hmod)
  have hpos : 0 < s.dmEcc / s.dmBlocks := Nat.pos_of_ne_zero fun h0 => hecc (by rw [← htotal, h0, Nat.zero_mul])
  have hle : s.dmBlocks ≤ s.dmEcc := Nat.le_of_dvd (Nat.pos_of_ne_zero hecc) (Nat.dvd_of_mod_eq_zero hmod)
  have hwrite : (s.dmEcc / s.dmBlocks - 1) * s.dmBlocks = s.dmEcc - s.dmBlocks := by rw [Nat.sub_mul, htotal, Nat.one_mul]
  have hlen := dmBlock_length_le s 0 s.dmData s.dmBlocks b
  have hread := dmBlock_last_lt s 0 hb (hb.trans_le hdata)
  obtain ⟨t, hdm, -, -, -, ht⟩ := exec_of_ends (eccDmBuildsFinalStream.2 s) (by
    simp only [List.forall_mem_cons, not_or, not_lt, ne_eq, not_not]
    exact ⟨⟨hblocks.1.ne', hecc, (hblocks.1.trans_le hdata).ne'⟩, hsize, hmod, hdeg, hdata, hcw, nofun⟩)
  obtain ⟨u, hrs, hu⟩ := rsEncode_withStrides s .dm (dst := s.dmData + b) (hlen.trans (by omega)) (Nat.lt_succ_of_le hdeg) hpos hblocks
    hblocks (show b < 4096 by omega) (fun _ => by omega) (by omega)
  refine ⟨t, u, hdm, hrs, fun j hj => ⟨_, ht b j hb hj, ?_⟩⟩
  have hstrided := hu j hj
  rw [← dmBlock_eq_strided s 0 hb, dmBlock_eq_of_defined hdef 0 1,
    show 0x2000 + (s.dmData + b) + j * s.dmBlocks = 0x2000 + s.dmData + j * s.dmBlocks + b by omega] at hstrided
  exact hstrided

/-- ECC_QR's only block by its strides (43_reed_solomon.md R230). -/
theorem eccQr_block_by_strides (s : State) (hone : s.qrBlocks = 1) (hd : qrLen s.regs.qrBlk 0 ≠ 0) (hn : s.qrEccPerBlock ≠ 0)
    (hcw : s.cwLenNat = qrLen s.regs.qrBlk 0) (hdef : ∀ k, k < qrLen s.regs.qrBlk 0 → ∃ v, Holds s (0x1000 + k) v) :
    ∃ t u, exec .eccQr s = .next t
      ∧ exec (.rsEncode (qrLen s.regs.qrBlk 0) s.qrEccPerBlock) (s.withStrides .qr 0 1 (qrLen s.regs.qrBlk 0) 1) = .next u
      ∧ ∀ j, j < s.qrEccPerBlock → ∃ v, Holds t (0x2000 + qrLen s.regs.qrBlk 0 + j) v
          ∧ Holds u (0x2000 + qrLen s.regs.qrBlk 0 + j) v := by
  obtain ⟨hdata, hempty⟩ := qrBlocks_one hone
  have hdlt := qrLen_lt s.regs.qrBlk 0
  have hnlt : s.qrEccPerBlock < 256 := s.regs.qrEcc.isLt
  have hsize : s.qrData + s.qrEccTotal ≤ 4096 := by rw [hdata, State.qrEccTotal, hone]; omega
  have hzero : 0 < s.qrBlocks := by omega
  obtain ⟨t, hqr, -, -, -, ht⟩ := exec_of_ends (eccQrBuildsFinalStream.2 s) (by
    simp only [List.forall_mem_cons, not_lt, ne_eq, not_not]
    exact ⟨hzero.ne', mt hempty hd, hn, hsize, hcw.trans hdata.symm, nofun⟩)
  obtain ⟨u, hrs, hu⟩ := rsEncode_withStrides s .qr (l := qrLen s.regs.qrBlk 0) (n := s.qrEccPerBlock) (src := 0) (step := 1)
    (dst := qrLen s.regs.qrBlk 0) (stride := 1) (by omega) hnlt (by omega) (by omega) (by omega) (by omega) (by omega) (by omega)
  refine ⟨t, u, hqr, hrs, fun j hj => ?_⟩
  have hplace : Holds t (0x2000 + s.qrData + j * s.qrBlocks + 0) ((rsEcc .qr (qrBlock s 1 0) s.qrEccPerBlock).getD j 0) :=
    ht 0 j hzero hj
  have hstrided := hu j hj
  rw [hdata, hone, Nat.mul_one, Nat.add_zero] at hplace
  rw [← qrBlock_zero_of_defined hdef 1, Nat.mul_one] at hstrided
  exact ⟨_, hplace, hstrided⟩

/-- Settles O39: both commands and RS_ENCODE hold the ECC codewords of the same block at the same place. -/
theorem rsEncodeBuildsEveryBlock : Obligations.RsEncodeBuildsEveryBlock :=
  ⟨fun s _ => eccDm_block_by_strides s, fun s => eccQr_block_by_strides s⟩

/-- Settles O40: each of the four ends in its error or with the generator written. -/
theorem generatorSideEffect : Obligations.GeneratorSideEffect := by
  intro s i f n huses
  obtain ⟨t, ht⟩ := exec_continues i s
  refine ⟨t, ht, ?_⟩
  obtain ⟨hn, rfl, rfl | ⟨l, rfl⟩⟩ | ⟨rfl, rfl, rfl⟩ | ⟨rfl, rfl, rfl⟩ := huses
  · obtain ⟨code, -, rfl⟩ | ⟨-, rfl⟩ := command_cases ((exec_rsGenpoly n s).symm.trans ht)
    · exact .inl ⟨code, rfl⟩
    · exact .inr (holdsGen_setGen s _ hn)
  · exact (execRsEncode_leaves hn ht).imp (fun herr => ⟨_, herr⟩) And.left
  · exact (execEccDm_leaves ht).imp id And.left
  · exact (execEccQr_leaves ht).imp id And.left

end Sys2Proof.Proofs
end

section
/-! The mapping matrix (44_layout_dm.md R261 to R264): the positions of its written entries, what a placement adds to them, and a set of
positions as the bits of one number. -/

namespace Sys2Proof.Machine

/-! ### Entries -/

/-- The positions of the written entries, the last written first. -/
def DmMatrix.cells (a : DmMatrix) : List (Nat × Nat) := a.map fun e => (e.row, e.col)

/-- An entry is empty exactly when its position is not among the written ones. -/
theorem DmMatrix.at_eq_none_iff (a : DmMatrix) (row col : Nat) : a.at row col = none ↔ (row, col) ∉ a.cells := by
  have hfind : a.at row col = none ↔ List.find? (fun e => e.row == row && e.col == col) a = none := by
    rw [DmMatrix.at]
    split <;> simp [*]
  rw [hfind, List.find?_eq_none, DmMatrix.cells, List.mem_map, not_exists]
  simp only [Bool.and_eq_true, beq_iff_eq, not_and, Prod.mk.injEq]

/-- The position that `module(row, col, ...)` writes (44_layout_dm.md R262): `dmWrap`, with nothing to compute where nothing wraps. -/
def dmCell (nrow ncol : Nat) : Int × Int → Nat × Nat
  | (.ofNat row, .ofNat col) => (row, col)
  | p => ((dmWrap nrow ncol p.1 p.2).1.toNat, (dmWrap nrow ncol p.1 p.2).2.toNat)

theorem dmCell_eq (nrow ncol : Nat) (p : Int × Int) :
    dmCell nrow ncol p = ((dmWrap nrow ncol p.1 p.2).1.toNat, (dmWrap nrow ncol p.1 p.2).2.toNat) := by
  unfold dmCell
  split
  · next row col =>
    have hwrap : dmWrap nrow ncol row col = (↑row, ↑col) := by
      rw [dmWrap, if_neg (Int.natCast_nonneg row).not_gt]
      exact if_neg (Int.natCast_nonneg col).not_gt
    exact (congrArg (fun q : Int × Int => (q.1.toNat, q.2.toNat)) hwrap).symm
  · rfl

/-- The entry that `module` writes for one module of a placement and its bit. -/
def dmEntryAt (nrow ncol k : Nat) (p : (Int × Int) × Nat) : DmEntry := ⟨(dmCell nrow ncol p.1).1, (dmCell nrow ncol p.1).2, k, p.2⟩

/-- A placement puts the entries of its modules before the others. -/
theorem dmPlace_eq (nrow ncol k : Nat) (at_ : List (Int × Int)) (a : DmMatrix) :
    dmPlace nrow ncol k at_ a = ((at_.zipIdx 1).map (dmEntryAt nrow ncol k)).reverse ++ a := by
  rw [← List.foldl_flip_cons_eq_append', List.foldl_map]
  simp only [dmEntryAt, dmCell_eq]
  rfl

theorem cells_dmPlace (nrow ncol k : Nat) (at_ : List (Int × Int)) (a : DmMatrix) :
    (dmPlace nrow ncol k at_ a).cells = (at_.map (dmCell nrow ncol)).reverse ++ a.cells := by
  rw [dmPlace_eq, DmMatrix.cells, List.map_append, List.map_reverse, List.map_map]
  conv_rhs => rw [← List.zipIdx_map_fst 1 at_, List.map_map]
  rfl

/-! ### Sets of positions as numbers -/

/-- The bit of a position: rows of 256 columns at the even bits, so that moving positions shifts their bits; columns beyond, which no
matrix has, at the odd bits. -/
def dmBit (p : Nat × Nat) : Nat := if p.2 < 256 then 512 * p.1 + 2 * p.2 else 2 * Nat.pair p.1 p.2 + 1

theorem dmBit_injective : Function.Injective dmBit := by
  rintro ⟨row, col⟩ ⟨row', col'⟩ h
  simp only [dmBit] at h
  split at h <;> split at h
  · rw [Prod.mk.injEq]
    omega
  · omega
  · omega
  · have hpair : Nat.pair row col = Nat.pair row' col' := by omega
    exact Prod.ext_iff.mpr (Nat.pair_eq_pair.mp hpair)

/-- The number whose bits are those of the positions of a list. -/
def dmMask : List (Nat × Nat) → Nat
  | [] => 0
  | p :: ps => 2 ^ dmBit p ||| dmMask ps

theorem testBit_dmMask (ps : List (Nat × Nat)) (p : Nat × Nat) : (dmMask ps).testBit (dmBit p) = decide (p ∈ ps) := by
  induction ps with
  | nil => simp [dmMask]
  | cons q ps ih => simp [dmMask, Nat.testBit_or, Nat.testBit_two_pow, ih, dmBit_injective.eq_iff, eq_comm (a := p)]

theorem dmMask_append (ps qs : List (Nat × Nat)) : dmMask (ps ++ qs) = dmMask ps ||| dmMask qs := by
  induction ps with
  | nil => simp [dmMask]
  | cons p ps ih => rw [List.cons_append, dmMask, dmMask, ih, Nat.lor_assoc]

theorem dmMask_reverse (ps : List (Nat × Nat)) : dmMask ps.reverse = dmMask ps := by
  induction ps with
  | nil => rfl
  | cons p ps ih => rw [List.reverse_cons, dmMask_append, ih, Nat.lor_comm, dmMask, dmMask, dmMask, Nat.or_zero]

/-- Moving positions inside the 256 columns shifts their bits. -/
theorem dmMask_move (row col : Nat) {ps : List (Nat × Nat)} (h : ∀ p ∈ ps, col + p.2 < 256) :
    dmMask (ps.map fun p => (row + p.1, col + p.2)) = dmMask ps <<< (512 * row + 2 * col) := by
  induction ps with
  | nil => simp [dmMask]
  | cons p ps ih =>
    rw [List.forall_mem_cons] at h
    have hbit : dmBit (row + p.1, col + p.2) = dmBit p + (512 * row + 2 * col) := by
      rw [dmBit, dmBit, if_pos h.1, if_pos (by omega)]
      ring
    rw [List.map_cons, dmMask, dmMask, ih h.2, hbit, pow_add, ← Nat.shiftLeft_eq, Nat.shiftLeft_or_distrib]

/-- A list whose mask covers the mask of another has each position of the other. -/
theorem subset_of_dmMask {ps qs : List (Nat × Nat)} (h : dmMask ps &&& dmMask qs = dmMask qs) : qs ⊆ ps := fun p hp => by
  have hbit := congrArg (Nat.testBit · (dmBit p)) h
  simpa [Nat.testBit_and, testBit_dmMask, hp] using hbit

/-- The mask of a placement. -/
def placeMask (nrow ncol : Nat) (at_ : List (Int × Int)) : Nat := dmMask (at_.map (dmCell nrow ncol))

theorem dmMask_cells_dmPlace (nrow ncol k : Nat) (at_ : List (Int × Int)) (a : DmMatrix) :
    dmMask (dmPlace nrow ncol k at_ a).cells = placeMask nrow ncol at_ ||| dmMask a.cells := by
  rw [cells_dmPlace, dmMask_append, dmMask_reverse, placeMask]

/-- The modules of the utah placement (44_layout_dm.md R263) from its first row and column on. -/
def utahCells : List (Nat × Nat) := [(0, 0), (0, 1), (1, 0), (1, 1), (1, 2), (2, 0), (2, 1), (2, 2)]

/-- The mask of the utah placement: where nothing wraps one shift of `utahCells`. -/
def utahMask (nrow ncol : Nat) (row col : Int) : Nat :=
  match row, col with
  | .ofNat (r + 2), .ofNat (c + 2) =>
    if c < 254 then dmMask utahCells <<< (512 * r + 2 * c) else placeMask nrow ncol (dmUtah row col)
  | _, _ => placeMask nrow ncol (dmUtah row col)

theorem utahMask_eq (nrow ncol : Nat) (row col : Int) : utahMask nrow ncol row col = placeMask nrow ncol (dmUtah row col) := by
  unfold utahMask
  split
  · next r c =>
    split
    · next hc =>
      have hcells : (dmUtah (Int.ofNat (r + 2)) (Int.ofNat (c + 2))).map (dmCell nrow ncol)
          = utahCells.map fun p => (r + p.1, c + p.2) := by
        have hsub (n m : Nat) : Int.ofNat (n + m) - Int.ofNat m = Int.ofNat n := by simp
        have hr1 : Int.ofNat (r + 2) - 1 = Int.ofNat (r + 1) := hsub (r + 1) 1
        have hr2 : Int.ofNat (r + 2) - 2 = Int.ofNat r := hsub r 2
        have hc1 : Int.ofNat (c + 2) - 1 = Int.ofNat (c + 1) := hsub (c + 1) 1
        have hc2 : Int.ofNat (c + 2) - 2 = Int.ofNat c := hsub c 2
        rw [dmUtah, hr1, hr2, hc1, hc2]
        rfl
      have hcols : ∀ p ∈ utahCells, p.2 ≤ 2 := by decide
      rw [placeMask, hcells, dmMask_move r c fun p hp => by have := hcols p hp; omega]
    · rfl
  · rfl

end Sys2Proof.Machine
end

section
/-! The sweep (44_layout_dm.md R266) as placements in turn: what every placement keeps holds of the whole sweep. The codewords and their
bits are numbered in order. -/

namespace Sys2Proof.Machine

/-! ### What every placement keeps -/

section

variable {nrow ncol : Nat} {P : Nat → DmMatrix → Prop}
  (hplace : ∀ k a at_, at_.length = 8 → P k a → P (k + 1) (dmPlace nrow ncol k at_ a))

include hplace

theorem placeIf_keeps {s : DmSweep} {cond : Bool} {at_ : List (Int × Int)} (hlen : at_.length = 8) (h : P s.k s.a) :
    P (s.placeIf nrow ncol cond at_).k (s.placeIf nrow ncol cond at_).a := by
  cases cond with
  | true => exact hplace _ _ _ hlen h
  | false => exact h

theorem corners_keep {s : DmSweep} (h : P s.k s.a) : P (s.corners nrow ncol).k (s.corners nrow ncol).a :=
  placeIf_keeps hplace rfl (placeIf_keeps hplace rfl (placeIf_keeps hplace rfl (placeIf_keeps hplace rfl h)))

theorem upRight_keeps (fuel : Nat) {s : DmSweep} (h : P s.k s.a) :
    P (DmSweep.upRight nrow ncol fuel s).k (DmSweep.upRight nrow ncol fuel s).a := by
  induction fuel generalizing s with
  | zero => exact h
  | succ fuel ih =>
    rw [DmSweep.upRight]
    split
    · exact ih (placeIf_keeps hplace rfl h)
    · exact placeIf_keeps hplace rfl h

theorem downLeft_keeps (fuel : Nat) {s : DmSweep} (h : P s.k s.a) :
    P (DmSweep.downLeft nrow ncol fuel s).k (DmSweep.downLeft nrow ncol fuel s).a := by
  induction fuel generalizing s with
  | zero => exact h
  | succ fuel ih =>
    rw [DmSweep.downLeft]
    split
    · exact ih (placeIf_keeps hplace rfl h)
    · exact placeIf_keeps hplace rfl h

theorem turn_keeps {s : DmSweep} (h : P s.k s.a) : P (s.turn nrow ncol).k (s.turn nrow ncol).a :=
  downLeft_keeps hplace _ (upRight_keeps hplace _ (corners_keep hplace h))

theorem run_keeps (fuel : Nat) {s : DmSweep} (h : P s.k s.a) :
    P (DmSweep.run nrow ncol fuel s).k (DmSweep.run nrow ncol fuel s).a := by
  induction fuel generalizing s with
  | zero => exact h
  | succ fuel ih =>
    rw [DmSweep.run]
    split
    · exact ih (turn_keeps hplace h)
    · exact turn_keeps hplace h

/-- What holds of the empty matrix and is kept by the placement of the next codeword holds after the sweep. -/
theorem dmSweep_induction (hstart : P 1 []) : P (dmSweep nrow ncol).k (dmSweep nrow ncol).a := run_keeps hplace _ hstart

end

/-! ### The numbers of codewords and bits -/

/-- The matrix holds bits 1 to 8 of the codewords before `k`, each once. -/
structure DmMatrix.Numbered (k : Nat) (a : DmMatrix) : Prop where
  length : a.length + 8 = 8 * k
  bounds : ∀ e ∈ a, 1 ≤ e.k ∧ e.k < k ∧ 1 ≤ e.bit ∧ e.bit ≤ 8
  nodup : (a.map fun e => (e.k, e.bit)).Nodup

theorem numbered_dmPlace {nrow ncol k : Nat} {a : DmMatrix} {at_ : List (Int × Int)} (hlen : at_.length = 8) (h : a.Numbered k) :
    (dmPlace nrow ncol k at_ a).Numbered (k + 1) := by
  have hbits : ((at_.zipIdx 1).map (dmEntryAt nrow ncol k)).map (fun e => (e.k, e.bit)) = (List.range' 1 8).map (Prod.mk k) := by
    rw [← hlen, ← List.zipIdx_map_snd, List.map_map, List.map_map]
    rfl
  have hnew : ∀ e ∈ (at_.zipIdx 1).map (dmEntryAt nrow ncol k), e.k = k ∧ 1 ≤ e.bit ∧ e.bit ≤ 8 := fun e he => by
    have hmem := List.mem_map_of_mem (f := fun e : DmEntry => (e.k, e.bit)) he
    rw [hbits, List.mem_map] at hmem
    obtain ⟨bit, hbit, heq⟩ := hmem
    obtain ⟨rfl, rfl⟩ := Prod.mk.inj heq
    rw [List.mem_range'_1] at hbit
    omega
  rw [dmPlace_eq]
  refine ⟨?length, fun e he => ?bounds, ?nodup⟩
  case length =>
    have := h.length
    simp only [List.length_append, List.length_reverse, List.length_map, List.length_zipIdx]
    omega
  case bounds =>
    have hk : 1 ≤ k := by have := h.length; omega
    obtain he | he := List.mem_append.mp he
    · have := hnew e (List.mem_reverse.mp he)
      omega
    · have := h.bounds e he
      omega
  case nodup =>
    rw [List.map_append, List.map_reverse, hbits]
    have hnodup : ((List.range' 1 8).map (Prod.mk k)).Nodup := (List.nodup_range' ..).map (Prod.mk_right_injective k)
    refine List.nodup_append.mpr ⟨List.nodup_reverse.mpr hnodup, h.nodup, fun p hp q hq heq => ?_⟩
    obtain ⟨bit, -, rfl⟩ := List.mem_map.mp (List.mem_reverse.mp hp)
    obtain ⟨e, he, rfl⟩ := List.mem_map.mp hq
    have := h.bounds e he
    have := congrArg Prod.fst heq
    omega

/-- The sweep numbers its codewords and their bits in order. -/
theorem numbered_dmSweep (nrow ncol : Nat) : (dmSweep nrow ncol).a.Numbered (dmSweep nrow ncol).k :=
  dmSweep_induction (fun _ _ _ => numbered_dmPlace) ⟨rfl, nofun, .nil⟩

end Sys2Proof.Machine
end

section
/-! The sweep on masks: the sweep looks at the matrix only to see whether an anchor is empty, so it takes the same way when it keeps the
positions of the written entries as the bits of a number. In that form it is evaluated for the thirty sizes. -/

namespace Sys2Proof.Machine

/-- The sweep's variables (44_layout_dm.md R266), with the mask of the written positions for the matrix. -/
structure MaskSweep where
  k : Nat
  row : Int
  col : Int
  mask : Nat

/-! The functions of `DmSweep`, line by line, with a placement's mask for its modules. -/

namespace MaskSweep

def placeIf (s : MaskSweep) (cond : Bool) (mask : Nat) : MaskSweep :=
  if cond then { s with k := s.k + 1, mask := mask ||| s.mask } else s

def anchorEmpty (s : MaskSweep) : Bool := !s.mask.testBit (dmBit (s.row.toNat, s.col.toNat))

def corners (s : MaskSweep) (nrow ncol : Nat) : MaskSweep :=
  let s := s.placeIf (decide (s.row = (nrow : Int)) && decide (s.col = 0)) (placeMask nrow ncol (dmCorner1 nrow ncol))
  let s := s.placeIf (decide (s.row = (nrow : Int) - 2) && decide (s.col = 0) && decide (ncol % 4 ≠ 0))
    (placeMask nrow ncol (dmCorner2 nrow ncol))
  let s := s.placeIf (decide (s.row = (nrow : Int) - 2) && decide (s.col = 0) && decide (ncol % 8 = 4))
    (placeMask nrow ncol (dmCorner3 nrow ncol))
  s.placeIf (decide (s.row = (nrow : Int) + 4) && decide (s.col = 2) && decide (ncol % 8 = 0)) (placeMask nrow ncol (dmCorner4 nrow ncol))

def upRight (nrow ncol : Nat) : Nat → MaskSweep → MaskSweep
  | 0, s => s
  | fuel + 1, s =>
    let s := s.placeIf (decide (s.row < (nrow : Int)) && decide (0 ≤ s.col) && s.anchorEmpty) (utahMask nrow ncol s.row s.col)
    let s := { s with row := s.row - 2, col := s.col + 2 }
    if 0 ≤ s.row ∧ s.col < (ncol : Int) then upRight nrow ncol fuel s else s

def downLeft (nrow ncol : Nat) : Nat → MaskSweep → MaskSweep
  | 0, s => s
  | fuel + 1, s =>
    let s := s.placeIf (decide (0 ≤ s.row) && decide (s.col < (ncol : Int)) && s.anchorEmpty) (utahMask nrow ncol s.row s.col)
    let s := { s with row := s.row + 2, col := s.col - 2 }
    if s.row < (nrow : Int) ∧ 0 ≤ s.col then downLeft nrow ncol fuel s else s

def turn (s : MaskSweep) (nrow ncol : Nat) : MaskSweep :=
  let s := upRight nrow ncol (nrow + ncol + 8) (s.corners nrow ncol)
  let s := downLeft nrow ncol (nrow + ncol + 8) { s with row := s.row + 1, col := s.col + 3 }
  { s with row := s.row + 3, col := s.col + 1 }

def run (nrow ncol : Nat) : Nat → MaskSweep → MaskSweep
  | 0, s => s
  | fuel + 1, s =>
    let s := s.turn nrow ncol
    if s.row < (nrow : Int) ∨ s.col < (ncol : Int) then run nrow ncol fuel s else s

end MaskSweep

/-- `dmSweep` on masks. -/
def maskSweep (nrow ncol : Nat) : MaskSweep := MaskSweep.run nrow ncol (nrow + ncol + 8) ⟨1, 4, 0, 0⟩

/-! ### It is the sweep -/

/-- The sweep's state with its matrix seen as a mask. -/
def DmSweep.masked (s : DmSweep) : MaskSweep := ⟨s.k, s.row, s.col, dmMask s.a.cells⟩

theorem masked_anchorEmpty (s : DmSweep) : s.masked.anchorEmpty = s.anchorEmpty := by
  rw [MaskSweep.anchorEmpty, DmSweep.masked, testBit_dmMask, DmSweep.anchorEmpty, Bool.eq_iff_iff, Option.isNone_iff_eq_none,
    DmMatrix.at_eq_none_iff]
  simp

theorem masked_placeIf (s : DmSweep) (nrow ncol : Nat) (cond : Bool) (at_ : List (Int × Int)) :
    (s.placeIf nrow ncol cond at_).masked = s.masked.placeIf cond (placeMask nrow ncol at_) := by
  cases cond with
  | true => exact congrArg (MaskSweep.mk _ _ _) (dmMask_cells_dmPlace ..)
  | false => rfl

theorem masked_corners (s : DmSweep) (nrow ncol : Nat) : (s.corners nrow ncol).masked = s.masked.corners nrow ncol := by
  simp only [MaskSweep.corners, ← masked_placeIf]
  rfl

theorem masked_upRight (nrow ncol fuel : Nat) (s : DmSweep) :
    (DmSweep.upRight nrow ncol fuel s).masked = MaskSweep.upRight nrow ncol fuel s.masked := by
  induction fuel generalizing s with
  | zero => rfl
  | succ fuel ih =>
    simp only [DmSweep.upRight, MaskSweep.upRight, utahMask_eq, masked_anchorEmpty, ← masked_placeIf, apply_ite DmSweep.masked, ih]
    rfl

theorem masked_downLeft (nrow ncol fuel : Nat) (s : DmSweep) :
    (DmSweep.downLeft nrow ncol fuel s).masked = MaskSweep.downLeft nrow ncol fuel s.masked := by
  induction fuel generalizing s with
  | zero => rfl
  | succ fuel ih =>
    simp only [DmSweep.downLeft, MaskSweep.downLeft, utahMask_eq, masked_anchorEmpty, ← masked_placeIf, apply_ite DmSweep.masked, ih]
    rfl

theorem masked_turn (s : DmSweep) (nrow ncol : Nat) : (s.turn nrow ncol).masked = s.masked.turn nrow ncol := by
  simp only [MaskSweep.turn, ← masked_corners, ← masked_upRight]
  exact congrArg (fun t : MaskSweep => { t with row := t.row + 3, col := t.col + 1 }) (masked_downLeft ..)

theorem masked_run (nrow ncol fuel : Nat) (s : DmSweep) :
    (DmSweep.run nrow ncol fuel s).masked = MaskSweep.run nrow ncol fuel s.masked := by
  induction fuel generalizing s with
  | zero => rfl
  | succ fuel ih =>
    simp only [DmSweep.run, MaskSweep.run, ← masked_turn, apply_ite DmSweep.masked, ih]
    rfl

theorem masked_dmSweep (nrow ncol : Nat) : (dmSweep nrow ncol).masked = maskSweep nrow ncol := masked_run ..

/-! ### What the sweep covers -/

/-- The columns that are filled in a row of the matrix: all but the last two in the last two rows of a size with the fixed corner
(44_layout_dm.md R267). -/
def DmGeometry.rowEnd (g : DmGeometry) (row : Nat) : Nat := if Claim.dmCornered g ∧ g.nrow ≤ row + 2 then g.ncol - 2 else g.ncol

theorem rowEnd_le (g : DmGeometry) (row : Nat) : g.rowEnd row ≤ g.ncol := by
  unfold DmGeometry.rowEnd
  split <;> omega

theorem lt_rowEnd_iff (g : DmGeometry) (row : Nat) {col : Nat} (hcol : col < g.ncol) :
    col < g.rowEnd row ↔ ¬ (Claim.dmCornered g ∧ g.nrow ≤ row + 2 ∧ g.ncol ≤ col + 2) := by
  rw [DmGeometry.rowEnd, ← and_assoc]
  split
  · next h =>
    rw [and_iff_right h]
    omega
  · next h => simp only [h, false_and, not_false_eq_true, hcol]

/-- The first `n` positions of a row. -/
def rowCells (row n : Nat) : List (Nat × Nat) := (List.range n).map (Prod.mk row)

/-- The positions of the matrix but for the fixed corner. -/
def DmGeometry.filled (g : DmGeometry) : List (Nat × Nat) := (List.range g.nrow).flatMap fun row => rowCells row (g.rowEnd row)

theorem mem_filled (g : DmGeometry) (row col : Nat) : (row, col) ∈ g.filled ↔ row < g.nrow ∧ col < g.rowEnd row := by
  simp [DmGeometry.filled, rowCells]

theorem nodup_filled (g : DmGeometry) : g.filled.Nodup := by
  refine List.nodup_flatMap.mpr ⟨fun row _ => List.nodup_range.map (Prod.mk_right_injective row), ?_⟩
  refine List.nodup_range.imp fun {row row'} hne p hp hp' => hne ?_
  obtain ⟨_, -, rfl⟩ := List.mem_map.mp hp
  obtain ⟨_, -, heq⟩ := List.mem_map.mp hp'
  exact (congrArg Prod.fst heq).symm

/-- The matrix of every size has the modules of `K` codewords, besides the fixed corner. -/
theorem length_filled : ∀ g ∈ dmRom, g.filled.length = 8 * g.k := by
  have hsum : ∀ g ∈ dmRom, ((List.range g.nrow).map g.rowEnd).sum = 8 * g.k := by decide +kernel
  intro g hg
  simp only [DmGeometry.filled, rowCells, List.length_flatMap, List.length_map, List.length_range, hsum g hg]

/-- The sweep on masks places `K` codewords, and its mask covers every row. -/
def DmGeometry.covered (g : DmGeometry) : Prop :=
  (maskSweep g.nrow g.ncol).k = g.k + 1 ∧ ∀ row ∈ List.range g.nrow,
    (maskSweep g.nrow g.ncol).mask &&& dmMask (rowCells 0 (g.rowEnd row)) <<< (512 * row)
      = dmMask (rowCells 0 (g.rowEnd row)) <<< (512 * row)

/-- The sweep on masks, evaluated for the thirty sizes. -/
theorem covered_of_mem_dmRom : ∀ g ∈ dmRom, g.covered := by
  unfold DmGeometry.covered
  decide +kernel

theorem dmMask_rowCells (row : Nat) {n : Nat} (hn : n ≤ 256) : dmMask (rowCells row n) = dmMask (rowCells 0 n) <<< (512 * row) := by
  have hcols : ∀ p ∈ rowCells 0 n, 0 + p.2 < 256 := fun p hp => by
    obtain ⟨col, hcol, rfl⟩ := List.mem_map.mp hp
    rw [Nat.zero_add]
    exact (List.mem_range.mp hcol).trans_le hn
  rw [← Nat.add_zero (512 * row), ← Nat.mul_zero 2, ← dmMask_move row 0 hcols, rowCells, rowCells, List.map_map]
  simp [Function.comp_def]

/-- The sweep places `K` codewords, and writes every entry of the matrix outside the fixed corner. -/
theorem dmSweep_covers {g : DmGeometry} (hg : g ∈ dmRom) :
    (dmSweep g.nrow g.ncol).k = g.k + 1 ∧ g.filled ⊆ (dmSweep g.nrow g.ncol).a.cells := by
  have hcols : ∀ g ∈ dmRom, g.ncol ≤ 256 := by decide
  obtain ⟨hk, hrows⟩ := covered_of_mem_dmRom g hg
  rw [← masked_dmSweep] at hk hrows
  refine ⟨hk, fun p hp => ?_⟩
  obtain ⟨row, hrow, hp⟩ := List.mem_flatMap.mp hp
  refine subset_of_dmMask ?_ hp
  rw [dmMask_rowCells row ((rowEnd_le g row).trans (hcols g hg))]
  exact hrows row hrow

end Sys2Proof.Machine
end

section
/-! The Data Matrix symbol by its regions (44_layout_dm.md R268 to R270), and DM_LAYOUT as one check and a grid write. -/

namespace Sys2Proof.Machine

open Claim (HoldsCell Succeeds borderIsDark)

/-! ### Regions -/

/-- The symbol is its regions with their borders, and fits the grid. -/
theorem regions_of_mem_dmRom : ∀ g ∈ dmRom, g.rows = g.rv * (g.h + 2) ∧ g.cols = g.rh * (g.w + 2) ∧ g.rows < 256
    ∧ g.cols < 256 := by decide

/-- Line `y` of the `i`-th region: the region and the line in it, found again. -/
theorem region_div_mod {h y : Nat} (i : Nat) (hy : y ≤ h + 1) : (i * (h + 2) + y) / (h + 2) = i ∧ (i * (h + 2) + y) % (h + 2) = y := by
  rw [Nat.add_comm, Nat.add_mul_div_right _ _ (Nat.succ_pos _), Nat.add_mul_mod_self_right, Nat.mod_eq_of_lt (by omega),
    Nat.div_eq_of_lt (by omega), Nat.zero_add]
  exact ⟨rfl, rfl⟩

theorem region_lt {n i h y : Nat} (hi : i < n) (hy : y ≤ h + 1) : i * (h + 2) + y < n * (h + 2) := by
  calc i * (h + 2) + y < (i + 1) * (h + 2) := by rw [Nat.succ_mul]; omega
    _ ≤ n * (h + 2) := Nat.mul_le_mul_right _ hi

/-- A line of the matrix in the symbol (44_layout_dm.md R268): the line of its region behind the border. -/
theorem region_of_line (row h : Nat) : row + 2 * (row / h) + 1 = row / h * (h + 2) + (row % h + 1) := by
  have := Nat.div_add_mod' row h
  rw [Nat.mul_add]
  omega

section

variable (g : DmGeometry) {i j y x : Nat} (hy : y ≤ g.h + 1) (hx : x ≤ g.w + 1)

include hy hx

theorem isBorder_region : g.isBorder (i * (g.h + 2) + y) (j * (g.w + 2) + x) = decide (y = 0 ∨ y = g.h + 1 ∨ x = 0 ∨ x = g.w + 1) := by
  rw [DmGeometry.isBorder, (region_div_mod i hy).2, (region_div_mod j hx).2]
  simp only [Bool.decide_or, Bool.or_assoc]

/-- On the border the module is as R269 says. -/
theorem borderDark_region (hborder : y = 0 ∨ y = g.h + 1 ∨ x = 0 ∨ x = g.w + 1) :
    g.borderDark (i * (g.h + 2) + y) (j * (g.w + 2) + x) = decide (borderIsDark g.h g.w y x) := by
  rw [DmGeometry.borderDark, (region_div_mod i hy).2, (region_div_mod j hx).2]
  split
  · next hsolid => simp [borderIsDark, hsolid]
  · next hsolid =>
    obtain ⟨hbottom, hleft⟩ := not_or.mp hsolid
    split
    · next htop => simp [borderIsDark, htop, hleft]
    · next htop =>
      have hright : x = g.w + 1 := by tauto
      simp [borderIsDark, htop, hbottom, hright]

theorem entryOf_region : g.entryOf (i * (g.h + 2) + y) (j * (g.w + 2) + x) = (i * g.h + (y - 1), j * g.w + (x - 1)) := by
  rw [DmGeometry.entryOf, (region_div_mod i hy).1, (region_div_mod i hy).2, (region_div_mod j hx).1, (region_div_mod j hx).2]

end

variable {s : State} {g : DmGeometry}

theorem inSymbol_region (hg : g ∈ dmRom) {i j y x : Nat} (hi : i < g.rv) (hj : j < g.rh) (hy : y ≤ g.h + 1) (hx : x ≤ g.w + 1) :
    g.inSymbol (i * (g.h + 2) + y) (j * (g.w + 2) + x) = true := by
  obtain ⟨hrows, hcols, -⟩ := regions_of_mem_dmRom g hg
  rw [DmGeometry.inSymbol, hrows, hcols, decide_eq_true (region_lt hi hy), decide_eq_true (region_lt hj hx), Bool.and_self]

/-! ### The modules of the symbol -/

/-- The border of a region. -/
theorem dark_border (hg : g ∈ dmRom) (a : DmMatrix) (fsb : Nat → Byte) {i j y x : Nat} (hi : i < g.rv) (hj : j < g.rh)
    (hy : y ≤ g.h + 1) (hx : x ≤ g.w + 1) (hborder : y = 0 ∨ y = g.h + 1 ∨ x = 0 ∨ x = g.w + 1) :
    g.dark a fsb (i * (g.h + 2) + y) (j * (g.w + 2) + x) = decide (borderIsDark g.h g.w y x)
      ∧ g.reserved a (i * (g.h + 2) + y) (j * (g.w + 2) + x) = true := by
  have hon : g.isBorder (i * (g.h + 2) + y) (j * (g.w + 2) + x) = true := by rw [isBorder_region g hy hx, decide_eq_true hborder]
  rw [DmGeometry.dark, DmGeometry.reserved, inSymbol_region hg hi hj hy hx, hon, if_pos rfl, if_pos rfl,
    borderDark_region g hy hx hborder]
  exact ⟨rfl, rfl⟩

/-- A line of the matrix is behind the border of a region of the symbol. -/
theorem line_in_region {n h row : Nat} (hrow : row < n * h) : row / h < n ∧ row % h + 1 ≤ h + 1 ∧ row % h + 1 ≠ h + 1 := by
  have hpos : 0 < h := Nat.pos_of_ne_zero fun h0 => by simp [h0] at hrow
  have := Nat.mod_lt row hpos
  exact ⟨Nat.div_lt_of_lt_mul (by rwa [Nat.mul_comm]), by omega, by omega⟩

/-- A module inside a region shows its entry of the matrix, and is reserved where that is empty. -/
theorem dark_inside (hg : g ∈ dmRom) (a : DmMatrix) (fsb : Nat → Byte) {row col : Nat} (hrow : row < g.nrow) (hcol : col < g.ncol) :
    g.dark a fsb (row + 2 * (row / g.h) + 1) (col + 2 * (col / g.w) + 1)
        = ((a.at row col).map fun p => (fsb (p.1 - 1)).getLsbD (8 - p.2)).getD (g.fixedDark row col)
      ∧ g.reserved a (row + 2 * (row / g.h) + 1) (col + 2 * (col / g.w) + 1) = (a.at row col).isNone := by
  obtain ⟨hi, hy, hbottom⟩ := line_in_region hrow
  obtain ⟨hj, hx, hright⟩ := line_in_region hcol
  have hoff : g.isBorder (row / g.h * (g.h + 2) + (row % g.h + 1)) (col / g.w * (g.w + 2) + (col % g.w + 1)) = false := by
    rw [isBorder_region g hy hx]
    exact decide_eq_false (by omega)
  rw [region_of_line, region_of_line, DmGeometry.dark, DmGeometry.reserved, inSymbol_region hg hi hj hy hx, hoff,
    entryOf_region g hy hx, if_pos rfl, if_neg Bool.false_ne_true, Nat.add_sub_cancel, Nat.add_sub_cancel, Nat.div_add_mod',
    Nat.div_add_mod']
  cases a.at row col <;> exact ⟨rfl, rfl⟩

/-- Outside the symbol nothing is dark or reserved. -/
theorem dark_outside (a : DmMatrix) (fsb : Nat → Byte) {r c : Nat} (h : g.rows ≤ r ∨ g.cols ≤ c) :
    g.dark a fsb r c = false ∧ g.reserved a r c = false := by
  have hout : g.inSymbol r c = false := by
    rw [DmGeometry.inSymbol, ← Bool.decide_and]
    exact decide_eq_false (by omega)
  simp [DmGeometry.dark, DmGeometry.reserved, hout]

/-! ### The command -/

/-- A size of the ROM has its entry. -/
theorem dmEntry_of_mem (hg : g ∈ dmRom) (hrows : g.rows = s.regs.dmSize.rows.toNat) (hcols : g.cols = s.regs.dmSize.cols.toNat) :
    s.dmEntry = some g := by
  have hfound : ∀ g ∈ dmRom, dmGeometry g.rows g.cols = some g := by decide
  rw [State.dmEntry, State.dmRows, State.dmCols, ← hrows, ← hcols, hfound g hg]

/-- Any other size has none. -/
theorem dmEntry_eq_none (h : ∀ g ∈ dmRom, ¬ (g.rows = s.regs.dmSize.rows.toNat ∧ g.cols = s.regs.dmSize.cols.toNat)) :
    s.dmEntry = none :=
  List.find?_eq_none.mpr fun g hg => by simpa [State.dmRows, State.dmCols] using h g hg

theorem exec_dmLayout_of_none (h : s.dmEntry = none) : exec .dmLayout s = .next (s.raiseError .descriptorInvalid) := by
  rw [exec, execDmLayout]
  exact command_of_failing (by rw [h, firstFailing_cons]; rfl)

theorem exec_dmLayout_of_some (h : s.dmEntry = some g) :
    exec .dmLayout s = s.command [(decide (s.fsLenNat ≠ g.k), .internalConsistency)] (·.layoutDm g) := by
  simp [exec, execDmLayout, State.command, firstFailing, h]

theorem succeeds_layoutDm (hrows : g.rows = s.regs.dmSize.rows.toNat) (hcols : g.cols = s.regs.dmSize.cols.toNat) :
    Succeeds s (s.layoutDm g).complete (fun r => { r with gridDim := ⟨s.regs.dmSize.rows, s.regs.dmSize.cols⟩ }) Claim.inGridOrResv := by
  have h := succeeds_setGrid s g.rows g.cols (g.dark (dmSweep g.nrow g.ncol).a (s.elem .fsb)) (g.reserved (dmSweep g.nrow g.ncol).a)
  rwa [hrows, hcols, BitVec.ofNat_toNat, BitVec.ofNat_toNat, BitVec.setWidth_eq, BitVec.setWidth_eq, ← hrows, ← hcols] at h

/-- A completed DM_LAYOUT leaves every module of both maps as the symbol says. -/
theorem holdsCell_layoutDm (s : State) (g : DmGeometry) {r c : Nat} {dark reserved : Bool} (hr : r < 256) (hc : c < 256)
    (h : g.dark (dmSweep g.nrow g.ncol).a (s.elem .fsb) r c = dark ∧ g.reserved (dmSweep g.nrow g.ncol).a r c = reserved) :
    HoldsCell (s.layoutDm g).complete r c dark reserved := by
  obtain ⟨rfl, rfl⟩ := h
  exact holdsCell_setGrid s g.rows g.cols _ _ hr hc

end Sys2Proof.Machine
end

section
/-! O41 to O43: the tables of the Data Matrix layout, what the sweep fills, and the symbol (44_layout_dm.md R260 to R271). -/

namespace Sys2Proof.Proofs

open Sys2Proof.Machine Sys2Proof.Claim

/-- Settles O41: the three tables, evaluated. -/
theorem dataMatrixTables : Obligations.DataMatrixTables := ⟨by decide, by decide, by decide +kernel⟩

/-- Settles O42: the sweep writes `8 K` entries and covers `8 K` modules, so it writes each of these once and no other. -/
theorem sweepFillsMatrix : Obligations.SweepFillsMatrix := by
  intro g hg w
  obtain ⟨hk, hcovers⟩ := dmSweep_covers hg
  have hnumbered := numbered_dmSweep g.nrow g.ncol
  rw [hk] at hnumbered
  have hlen : w.a.length = 8 * g.k := by
    have : w.a.length + 8 = 8 * (g.k + 1) := hnumbered.length
    omega
  have hperm : g.filled.Perm w.a.cells :=
    ((nodup_filled g).subperm hcovers).perm_of_length_le (by rw [DmMatrix.cells, List.length_map, hlen, length_filled g hg])
  refine ⟨hk, hlen, fun x hx => ?inside, hperm.nodup_iff.mp (nodup_filled g), hnumbered.nodup, fun row col hrow hcol => ?empty⟩
  case inside =>
    obtain ⟨hrow, hcol⟩ := (mem_filled g x.row x.col).mp (hperm.mem_iff.mpr (List.mem_map_of_mem hx))
    obtain ⟨hk1, hklt, hbits⟩ := hnumbered.bounds x hx
    exact ⟨hrow, hcol.trans_le (rowEnd_le g x.row), hk1, Nat.le_of_lt_succ hklt, hbits⟩
  case empty =>
    rw [DmMatrix.at_eq_none_iff, ← hperm.mem_iff, mem_filled, and_iff_right hrow, lt_rowEnd_iff g row hcol, not_not]

/-- Settles O43: the entry of the size or none, one check, and a grid write of the symbol, module by module as it lies in its region. -/
theorem dmLayoutBuildsSymbol : Obligations.DmLayoutBuildsSymbol := by
  refine ⟨encoded_of_row .dmLayout fun _ => rfl, fun s h => exec_dmLayout_of_none (dmEntry_eq_none h), fun s g hg hrows hcols => ?_⟩
  refine ends_of_command (exec_dmLayout_of_some (dmEntry_of_mem hg hrows hcols)) (.cons (testedBy_decide ..) .nil) fun _ => ?_
  obtain ⟨hheight, hwidth, hr256, hc256⟩ := regions_of_mem_dmRom g hg
  have hregion {i j y x : Nat} (hi : i < g.rv) (hj : j < g.rh) (hy : y ≤ g.h + 1) (hx : x ≤ g.w + 1) :
      i * (g.h + 2) + y < 256 ∧ j * (g.w + 2) + x < 256 :=
    ⟨(region_lt hi hy).trans (hheight ▸ hr256), (region_lt hj hx).trans (hwidth ▸ hc256)⟩
  refine ⟨succeeds_layoutDm hrows hcols, fun row col hrow hcol => ?inside, fun i j y x hi hj hy hx hborder => ?border,
    fun r c hr hc hout => holdsCell_layoutDm s g hr hc (dark_outside _ _ hout)⟩
  case border =>
    obtain ⟨hr, hc⟩ := hregion hi hj hy hx
    exact holdsCell_layoutDm s g hr hc (dark_border hg _ _ hi hj hy hx hborder)
  case inside =>
    obtain ⟨hi, hy, -⟩ := line_in_region hrow
    obtain ⟨hj, hx, -⟩ := line_in_region hcol
    obtain ⟨hr, hc⟩ := hregion hi hj hy hx
    rw [← region_of_line] at hr hc
    have hcell := holdsCell_layoutDm s g hr hc (dark_inside hg _ _ hrow hcol)
    refine ⟨fun k bit hat => ?_, fun hat => ?_⟩
    · rw [hat] at hcell
      exact hcell
    · rw [hat] at hcell
      simpa [DmGeometry.fixedDark] using hcell

end Sys2Proof.Proofs
end

section
/-! The patterns of a QR symbol one by one (45_layout_qr.md R291 to R300): where each gives a module a value, and which. -/

namespace Sys2Proof.Machine

open Claim (Near AtDistance finderCentres AlignmentCentre formatPlaces versionPlaces)

/-! ### Distances -/

theorem chebyshev_le_iff (r c r0 c0 d : Nat) : chebyshev r c r0 c0 ≤ d ↔ Near d r c r0 c0 := by
  rw [chebyshev, absDiff, absDiff]
  split <;> split <;> omega

theorem atDistance_iff (r c r0 c0 d : Nat) : AtDistance d r c r0 c0 ↔ chebyshev r c r0 c0 = d := by
  rw [AtDistance, ← chebyshev_le_iff, ← chebyshev_le_iff]
  omega

theorem chebyshev_row (r c c0 : Nat) : chebyshev r c r c0 = absDiff c c0 := by simp [chebyshev, absDiff]

theorem chebyshev_column (r c r0 : Nat) : chebyshev r c r0 c = absDiff r r0 := by simp [chebyshev, absDiff]

theorem absDiff_ne_one_iff {a b : Nat} (hb : b % 2 = 0) (hle : a ≤ b + 2 ∧ b ≤ a + 2) : absDiff a b ≠ 1 ↔ a % 2 = 0 := by
  rw [absDiff]
  split <;> omega

/-! ### What the first entry found says -/

/-- Where all the entries that pass agree, the first one says what each of them says. -/
theorem map_find?_eq_some {α β : Type} {l : List α} {p : α → Bool} {f : α → β} {a : α} (ha : a ∈ l) (hp : p a = true)
    (hagree : ∀ x ∈ l, p x = true → f x = f a) : (l.find? p).map f = some (f a) := by
  obtain ⟨x, hx⟩ := Option.isSome_iff_exists.mp (List.find?_isSome.mpr ⟨a, ha, hp⟩)
  rw [hx, Option.map_some, hagree x (List.mem_of_find?_eq_some hx) (List.find?_some hx)]

/-! ### Finders (R291) -/

theorem qrFinderCentres_eq (v : Nat) : qrFinderCentres v = finderCentres (17 + 4 * v) := rfl

theorem qrFinder_eq_map (v r c : Nat) : qrFinder v r c = ((finderCentres (17 + 4 * v)).find? fun p => decide (chebyshev r c p.1 p.2 ≤ 4)).map
    fun p => decide (chebyshev r c p.1 p.2 ≠ 2) && decide (chebyshev r c p.1 p.2 ≠ 4) := by
  rw [qrFinder, ← qrFinderCentres_eq]
  split <;> simp [*]

/-- No two finders reach the same module. -/
theorem finderCentres_unique {n r c : Nat} (hn : 21 ≤ n) {p q : Nat × Nat} (hp : p ∈ finderCentres n) (hq : q ∈ finderCentres n)
    (hnear : Near 4 r c p.1 p.2) (hnear' : Near 4 r c q.1 q.2) : p = q := by
  simp only [finderCentres, List.mem_cons, List.not_mem_nil, or_false, Prod.ext_iff] at hp hq
  exact Prod.ext (by omega) (by omega)

theorem qrFinder_of_atDistance {v r c d : Nat} (hv : 1 ≤ v) {p : Nat × Nat} (hp : p ∈ finderCentres (17 + 4 * v)) (hd : d ≤ 4)
    (hat : AtDistance d r c p.1 p.2) : qrFinder v r c = some (decide (d ≠ 2 ∧ d ≠ 4)) := by
  have hnear : Near 4 r c p.1 p.2 := (chebyshev_le_iff ..).mp (((atDistance_iff ..).mp hat).trans_le hd)
  rw [qrFinder_eq_map, map_find?_eq_some hp (decide_eq_true ((chebyshev_le_iff ..).mpr hnear)), (atDistance_iff ..).mp hat,
    Bool.decide_and]
  intro q hq hfound
  rw [finderCentres_unique (by omega) hq hp ((chebyshev_le_iff ..).mp (of_decide_eq_true hfound)) hnear]

theorem qrFinder_eq_none_iff (v r c : Nat) :
    qrFinder v r c = none ↔ ∀ p ∈ finderCentres (17 + 4 * v), ¬ Near 4 r c p.1 p.2 := by
  rw [qrFinder_eq_map, Option.map_eq_none_iff, List.find?_eq_none]
  simp only [decide_eq_true_eq, chebyshev_le_iff]

/-! ### Alignment patterns (R292, R293) -/

/-- The coordinates of a version are even, 6 or from 18 on, and the last one, `N - 7`, is apart from the others. -/
theorem alignPositions_range : ∀ v, v ≤ 40 → ∀ x ∈ qrAlignPositions v,
    x % 2 = 0 ∧ (x = 6 ∨ 18 ≤ x ∧ (x = 10 + 4 * v ∨ x + 16 ≤ 10 + 4 * v)) := by
  decide +kernel

/-- A version with coordinates has 6 first and `N - 7` last. -/
theorem alignPositions_ends : ∀ v, v ≤ 40 → ∀ x ∈ qrAlignPositions v,
    6 ∈ qrAlignPositions v ∧ (qrAlignPositions v).headD 0 = 6 ∧ (qrAlignPositions v).getLastD 0 = 10 + 4 * v := by
  decide +kernel

theorem alignPositions_apart : ∀ v, v ≤ 40 → ∀ x ∈ qrAlignPositions v, ∀ y ∈ qrAlignPositions v, x < y → x + 12 ≤ y := by
  decide +kernel

theorem mem_qrAlignCentres (v : Nat) (p : Nat × Nat) : p ∈ qrAlignCentres v ↔ AlignmentCentre (qrAlignPositions v) p.1 p.2 := by
  obtain ⟨r0, c0⟩ := p
  simp [qrAlignCentres, AlignmentCentre, and_assoc]

/-- A centre is in row 6 or column 6, away from the finders, or in neither. -/
theorem alignmentCentre_iff {v r0 c0 : Nat} (hv : v ≤ 40) : AlignmentCentre (qrAlignPositions v) r0 c0
    ↔ (r0 ∈ qrAlignPositions v ∧ c0 ∈ qrAlignPositions v)
      ∧ (r0 = 6 ∧ 18 ≤ c0 ∧ c0 + 16 ≤ 10 + 4 * v ∨ c0 = 6 ∧ 18 ≤ r0 ∧ r0 + 16 ≤ 10 + 4 * v ∨ 18 ≤ r0 ∧ 18 ≤ c0) := by
  rw [AlignmentCentre, ← and_assoc]
  refine and_congr_right fun ⟨hr, hc⟩ => ?_
  obtain ⟨-, hhead, hlast⟩ := alignPositions_ends v hv r0 hr
  obtain ⟨-, hrow⟩ := alignPositions_range v hv r0 hr
  obtain ⟨-, hcol⟩ := alignPositions_range v hv c0 hc
  rw [hhead, hlast]
  obtain rfl | hrow := hrow
  · omega
  · omega

/-- Its coordinates are even and inside the last finder's. -/
theorem alignmentCentre_place {v r0 c0 : Nat} (hv : v ≤ 40) (h : AlignmentCentre (qrAlignPositions v) r0 c0) :
    (r0 % 2 = 0 ∧ r0 ≤ 10 + 4 * v) ∧ (c0 % 2 = 0 ∧ c0 ≤ 10 + 4 * v)
      ∧ (r0 = 6 ∧ 18 ≤ c0 ∧ c0 + 16 ≤ 10 + 4 * v ∨ c0 = 6 ∧ 18 ≤ r0 ∧ r0 + 16 ≤ 10 + 4 * v ∨ 18 ≤ r0 ∧ 18 ≤ c0) := by
  obtain ⟨⟨hr, hc⟩, hplace⟩ := (alignmentCentre_iff hv).mp h
  have := alignPositions_range v hv r0 hr
  have := alignPositions_range v hv c0 hc
  omega

/-- Where an alignment pattern can reach: off the finders, the format area and the version blocks. -/
abbrev AlignmentArea (v r c : Nat) : Prop := (4 ≤ r ∧ r ≤ 8) ∧ 16 ≤ c ∧ c + 4 ≤ 4 * v ∨ (4 ≤ c ∧ c ≤ 8) ∧ 16 ≤ r ∧ r + 4 ≤ 4 * v
  ∨ (16 ≤ r ∧ r ≤ 12 + 4 * v) ∧ 16 ≤ c ∧ c ≤ 12 + 4 * v

theorem alignment_reaches {v r c r0 c0 : Nat} (hv : v ≤ 40) (h : AlignmentCentre (qrAlignPositions v) r0 c0) (hnear : Near 2 r c r0 c0) :
    AlignmentArea v r c := by
  have := alignmentCentre_place hv h
  omega

/-- No two alignment patterns reach the same module. -/
theorem alignmentCentre_unique {v r c : Nat} (hv : v ≤ 40) {p q : Nat × Nat} (hp : AlignmentCentre (qrAlignPositions v) p.1 p.2)
    (hq : AlignmentCentre (qrAlignPositions v) q.1 q.2) (hnear : Near 2 r c p.1 p.2) (hnear' : Near 2 r c q.1 q.2) : p = q := by
  have hapart (x y : Nat) (hx : x ∈ qrAlignPositions v) (hy : y ∈ qrAlignPositions v) (hclose : x ≤ y + 4 ∧ y ≤ x + 4) : x = y := by
    have := alignPositions_apart v hv x hx y hy
    have := alignPositions_apart v hv y hy x hx
    omega
  obtain ⟨hprow, hpcol, -⟩ := hp
  obtain ⟨hqrow, hqcol, -⟩ := hq
  exact Prod.ext (hapart _ _ hprow hqrow (by omega)) (hapart _ _ hpcol hqcol (by omega))

theorem qrAlignment_eq_map (centres : List (Nat × Nat)) (r c : Nat) : qrAlignment centres r c =
    (centres.find? fun p => decide (chebyshev r c p.1 p.2 ≤ 2)).map fun p => decide (chebyshev r c p.1 p.2 ≠ 1) := by
  rw [qrAlignment]
  split <;> simp [*]

theorem qrAlignment_of_atDistance {v r c r0 c0 d : Nat} (hv : v ≤ 40) (h : AlignmentCentre (qrAlignPositions v) r0 c0) (hd : d ≤ 2)
    (hat : AtDistance d r c r0 c0) : qrAlignment (qrAlignCentres v) r c = some (decide (d ≠ 1)) := by
  obtain rfl := (atDistance_iff ..).mp hat
  have hmem : (r0, c0) ∈ qrAlignCentres v := (mem_qrAlignCentres v _).mpr h
  rw [qrAlignment_eq_map, map_find?_eq_some hmem (decide_eq_true hd)]
  intro q hq hfound
  rw [alignmentCentre_unique (q := (r0, c0)) hv ((mem_qrAlignCentres v q).mp hq) h
    ((chebyshev_le_iff ..).mp (of_decide_eq_true hfound)) ((chebyshev_le_iff r c r0 c0 2).mp hd)]

theorem qrAlignment_eq_none_iff (v r c : Nat) : qrAlignment (qrAlignCentres v) r c = none
    ↔ ∀ r0 c0, AlignmentCentre (qrAlignPositions v) r0 c0 → ¬ Near 2 r c r0 c0 := by
  rw [qrAlignment_eq_map, Option.map_eq_none_iff, List.find?_eq_none, Prod.forall]
  simp only [decide_eq_true_eq, chebyshev_le_iff, mem_qrAlignCentres]

/-! ### Listed modules -/

theorem moduleValue_eq_map (ms : List ((Nat × Nat) × Bool)) (r c : Nat) :
    moduleValue ms r c = (ms.find? fun m => m.1.1 == r && m.1.2 == c).map (·.2) := by
  rw [moduleValue]
  split <;> simp [*]

theorem moduleValue_eq_none_iff (ms : List ((Nat × Nat) × Bool)) (r c : Nat) : moduleValue ms r c = none ↔ (r, c) ∉ ms.map (·.1) := by
  rw [moduleValue_eq_map, Option.map_eq_none_iff, List.find?_eq_none, List.mem_map, not_exists]
  simp [Prod.ext_iff]

/-- A list that lists each module once gives it its value. -/
theorem moduleValue_of_mem {ms : List ((Nat × Nat) × Bool)} (hms : (ms.map (·.1)).Nodup) {r c : Nat} {b : Bool} (h : ((r, c), b) ∈ ms) :
    moduleValue ms r c = some b := by
  rw [moduleValue_eq_map, map_find?_eq_some h (by simp)]
  intro m hm hfound
  have hkey : m.1 = (r, c) := by simpa [Prod.ext_iff] using hfound
  rw [List.inj_on_of_nodup_map hms hm h hkey]

/-! ### Format areas and the dark module (R295, R298) -/

/-- The modules of the format areas and the dark module. -/
def formatModules (v : Nat) : List (Nat × Nat) :=
  (List.range 15).map qrFormatFirst ++ (List.range 15).map (qrFormatSecond (qrSize v)) ++ [(qrSize v - 8, 8)]

theorem keys_qrFormatModules (v fmt : Nat) : (qrFormatModules v fmt).map (·.1) = formatModules v := by
  simp [qrFormatModules, formatModules, Function.comp_def]

/-- The first copy is around the upper left finder. -/
theorem qrFormatFirst_near : ∀ k, k < 15 → (qrFormatFirst k).1 ≤ 8 ∧ (qrFormatFirst k).2 ≤ 8 := by decide

/-- The second copy is beside the other two, and leaves out the dark module. -/
theorem qrFormatSecond_far {v k : Nat} (hv : 1 ≤ v) (hk : k < 15) : (qrFormatSecond (qrSize v) k).1 ≠ qrSize v - 8
    ∧ (8 < (qrFormatSecond (qrSize v) k).1 ∨ 8 < (qrFormatSecond (qrSize v) k).2) := by
  rw [qrFormatSecond, qrSize]
  split <;> omega

theorem qrFormatSecond_injective {v k l : Nat} (hk : k < 15) (hl : l < 15)
    (h : qrFormatSecond (qrSize v) k = qrFormatSecond (qrSize v) l) : k = l := by
  rw [qrFormatSecond, qrFormatSecond, qrSize] at h
  split_ifs at h <;> rw [Prod.mk.injEq] at h <;> omega

theorem nodup_formatModules {v : Nat} (hv : 1 ≤ v) : (formatModules v).Nodup := by
  rw [formatModules, List.nodup_append, List.nodup_append]
  simp only [List.forall_mem_append, List.forall_mem_map, List.mem_range, List.mem_singleton, forall_eq]
  refine ⟨⟨by decide, List.nodup_range.map_on fun k hk l hl => ?_, fun k hk l hl heq => ?copies⟩, List.nodup_singleton _,
    fun k hk heq => ?first, fun k hk heq => (qrFormatSecond_far hv hk).1 (congrArg Prod.fst heq)⟩
  · exact qrFormatSecond_injective (List.mem_range.mp hk) (List.mem_range.mp hl)
  case copies =>
    have hnear := qrFormatFirst_near k hk
    have hfar := qrFormatSecond_far hv hl
    rw [heq] at hnear
    omega
  case first =>
    have hnear := qrFormatFirst_near k hk
    rw [heq, qrSize] at hnear
    omega

/-- The two copies of bit `k`. -/
theorem mem_formatPlaces {v k : Nat} (hk : k < 15) (p : Nat × Nat) :
    p ∈ formatPlaces (17 + 4 * v) k ↔ p = qrFormatFirst k ∨ p = qrFormatSecond (qrSize v) k := by
  obtain ⟨r, c⟩ := p
  simp only [formatPlaces, qrFormatFirst, qrFormatSecond, qrSize]
  split_ifs <;> simp only [List.mem_cons, List.not_mem_nil, or_false, Prod.mk.injEq] <;> omega

theorem mem_formatModules (v : Nat) (p : Nat × Nat) :
    p ∈ formatModules v ↔ (∃ k, k < 15 ∧ p ∈ formatPlaces (17 + 4 * v) k) ∨ p = (17 + 4 * v - 8, 8) := by
  have hplaces : (∃ k, k < 15 ∧ p ∈ formatPlaces (17 + 4 * v) k)
      ↔ ∃ k, k < 15 ∧ (p = qrFormatFirst k ∨ p = qrFormatSecond (qrSize v) k) :=
    exists_congr fun k => and_congr_right fun hk => mem_formatPlaces hk p
  rw [hplaces]
  simp [formatModules, and_or_left, exists_or, eq_comm (a := p), qrSize, or_assoc]

theorem format_reaches {v r c : Nat} (h : (r, c) ∈ formatModules v) :
    r = 8 ∧ c ≠ 6 ∧ (c ≤ 8 ∨ 9 + 4 * v ≤ c ∧ c < 17 + 4 * v) ∨ c = 8 ∧ r ≠ 6 ∧ (r ≤ 8 ∨ 9 + 4 * v ≤ r ∧ r < 17 + 4 * v) := by
  obtain ⟨k, hk, hp⟩ | hp := (mem_formatModules v _).mp h
  · rw [mem_formatPlaces hk, qrFormatFirst, qrFormatSecond, qrSize] at hp
    split_ifs at hp <;> simp only [Prod.mk.injEq] at hp <;> omega
  · rw [Prod.mk.injEq] at hp
    omega

theorem format_of_place {v fmt k : Nat} {p : Nat × Nat} (hk : k < 15) (hp : p ∈ formatPlaces (17 + 4 * v) k) :
    (p, fmt.testBit k) ∈ qrFormatModules v fmt := by
  have hmem := List.mem_range.mpr hk
  obtain rfl | rfl := (mem_formatPlaces hk p).mp hp
  · exact List.mem_append_left _ (List.mem_append_left _ (List.mem_map_of_mem hmem))
  · exact List.mem_append_left _ (List.mem_append_right _ (List.mem_map_of_mem hmem))

theorem dark_mem_format (v fmt : Nat) : ((17 + 4 * v - 8, 8), true) ∈ qrFormatModules v fmt := by
  simp [qrFormatModules, qrSize]

/-! ### Version blocks (R299, R300) -/

/-- The modules of the version blocks. -/
def versionModules (v : Nat) : List (Nat × Nat) := (qrVersionModules v).map (·.1)

theorem versionModules_eq {v : Nat} (hv : 7 ≤ v) : versionModules v = (List.range 18).map (fun k => (k / 3, 6 + 4 * v + k % 3))
    ++ (List.range 18).map fun k => (6 + 4 * v + k % 3, k / 3) := by
  have hrow : qrSize v - 11 = 6 + 4 * v := by rw [qrSize]; omega
  simp [versionModules, qrVersionModules, hv.not_gt, Function.comp_def, hrow]

theorem nodup_versionModules (v : Nat) : (versionModules v).Nodup := by
  by_cases hv : 7 ≤ v
  · rw [versionModules_eq hv, List.nodup_append]
    refine ⟨List.nodup_range.map_on ?_, List.nodup_range.map_on ?_, ?_⟩
    · intro k _ l _ h
      rw [Prod.mk.injEq] at h
      omega
    · intro k _ l _ h
      rw [Prod.mk.injEq] at h
      omega
    · simp only [List.forall_mem_map, List.mem_range, ne_eq, Prod.mk.injEq]
      omega
  · rw [versionModules, qrVersionModules, if_pos (Nat.lt_of_not_le hv)]
    exact List.nodup_nil

theorem mem_versionModules (v : Nat) (p : Nat × Nat) :
    p ∈ versionModules v ↔ 7 ≤ v ∧ ∃ k, k < 18 ∧ p ∈ versionPlaces (17 + 4 * v) k := by
  rw [versionModules, qrVersionModules]
  split
  · next hv => simp [hv]
  · next hv => simp [versionPlaces, and_or_left, exists_or, eq_comm (a := p), qrSize, Nat.le_of_not_lt hv]

theorem version_reaches {v r c : Nat} (h : (r, c) ∈ versionModules v) :
    7 ≤ v ∧ (r ≤ 5 ∧ 6 + 4 * v ≤ c ∧ c ≤ 8 + 4 * v ∨ c ≤ 5 ∧ 6 + 4 * v ≤ r ∧ r ≤ 8 + 4 * v) := by
  obtain ⟨hv, k, hk, hp⟩ := (mem_versionModules v _).mp h
  simp only [versionPlaces, List.mem_cons, List.not_mem_nil, or_false, Prod.mk.injEq] at hp
  omega

theorem version_of_place {v k : Nat} {p : Nat × Nat} (hv : 7 ≤ v) (hk : k < 18) (hp : p ∈ versionPlaces (17 + 4 * v) k) :
    (p, (qrVersionWord v).testBit k) ∈ qrVersionModules v := by
  have hmem := List.mem_range.mpr hk
  rw [qrVersionModules, if_neg hv.not_gt]
  simp only [versionPlaces, List.mem_cons, List.not_mem_nil, or_false] at hp
  obtain rfl | rfl := hp
  · exact List.mem_append_left _ (List.mem_map_of_mem hmem)
  · exact List.mem_append_right _ (List.mem_map_of_mem hmem)

end Sys2Proof.Machine
end

section
/-! A module's value after the whole drawing (45_layout_qr.md R304): which patterns overlap, and what the last one drawn leaves. -/

namespace Sys2Proof.Machine

open Claim (Near AtDistance finderCentres AlignmentCentre formatPlaces versionPlaces)

@[simp] theorem firstOf_some (b : Bool) (y : Option Bool) : firstOf (some b) y = some b := rfl
@[simp] theorem firstOf_none (y : Option Bool) : firstOf none y = y := rfl

theorem firstOf_eq_none_iff (x y : Option Bool) : firstOf x y = none ↔ x = none ∧ y = none := by
  cases x <;> simp

theorem function_eq (v fmt r c : Nat) : (qrFrame v fmt).function r c = firstOf (moduleValue (qrFormatModules v fmt) r c)
    (firstOf (moduleValue (qrVersionModules v) r c) (firstOf (qrAlignment (qrAlignCentres v) r c)
      (firstOf (qrFinder v r c) (qrTiming r c)))) := rfl

theorem qrTiming_eq_none_iff (r c : Nat) : qrTiming r c = none ↔ r ≠ 6 ∧ c ≠ 6 := by
  rw [qrTiming]
  split
  · simp [*]
  · split <;> simp [*]

theorem qrTiming_of_six {r c : Nat} (h : r = 6 ∨ c = 6) : qrTiming r c = some (decide ((r + c) % 2 = 0)) := by
  obtain rfl | rfl := h
  · rw [qrTiming, if_pos rfl]
    exact congrArg some (decide_eq_decide.mpr (by omega))
  · rw [qrTiming]
    split
    · next h => simp [h]
    · exact congrArg some (decide_eq_decide.mpr (by omega))

/-! ### Where a pattern gives no value -/

theorem moduleValue_format_eq_none_iff (v fmt r c : Nat) : moduleValue (qrFormatModules v fmt) r c = none ↔ (r, c) ∉ formatModules v := by
  rw [moduleValue_eq_none_iff, keys_qrFormatModules]

theorem moduleValue_version_eq_none_iff (v r c : Nat) : moduleValue (qrVersionModules v) r c = none ↔ (r, c) ∉ versionModules v :=
  moduleValue_eq_none_iff ..

/-- A data module is one that no pattern reaches. -/
theorem function_eq_none_iff (v fmt r c : Nat) : (qrFrame v fmt).function r c = none
    ↔ (r, c) ∉ formatModules v ∧ (r, c) ∉ versionModules v
      ∧ (∀ r0 c0, AlignmentCentre (qrAlignPositions v) r0 c0 → ¬ Near 2 r c r0 c0)
      ∧ (∀ p ∈ finderCentres (17 + 4 * v), ¬ Near 4 r c p.1 p.2) ∧ r ≠ 6 ∧ c ≠ 6 := by
  simp only [function_eq, firstOf_eq_none_iff, moduleValue_format_eq_none_iff, moduleValue_version_eq_none_iff, qrAlignment_eq_none_iff,
    qrFinder_eq_none_iff, qrTiming_eq_none_iff]

/-- A finder and its separator are in a corner of the symbol. -/
theorem finder_reaches {v r c : Nat} {p : Nat × Nat} (hp : p ∈ finderCentres (17 + 4 * v)) (hnear : Near 4 r c p.1 p.2) :
    (r ≤ 7 ∨ 9 + 4 * v ≤ r) ∧ (c ≤ 7 ∨ 9 + 4 * v ≤ c) ∧ (r ≤ 7 ∨ c ≤ 7) := by
  simp only [finderCentres, List.mem_cons, List.not_mem_nil, or_false] at hp
  obtain rfl | rfl | rfl := hp <;> omega

/-! ### The values -/

section

variable {v fmt r c : Nat} {b : Bool} (hv40 : v ≤ 40)

theorem function_of_format (hv : 1 ≤ v) (h : ((r, c), b) ∈ qrFormatModules v fmt) : (qrFrame v fmt).function r c = some b := by
  have hnodup := nodup_formatModules hv
  rw [← keys_qrFormatModules v fmt] at hnodup
  rw [function_eq, moduleValue_of_mem hnodup h, firstOf_some]

theorem function_of_version (h : ((r, c), b) ∈ qrVersionModules v) : (qrFrame v fmt).function r c = some b := by
  have hmem : (r, c) ∈ versionModules v := List.mem_map_of_mem h
  have hversion := version_reaches hmem
  have hformat : (r, c) ∉ formatModules v := fun hmem => by have := format_reaches hmem; omega
  rw [function_eq, (moduleValue_format_eq_none_iff ..).mpr hformat, firstOf_none, moduleValue_of_mem (nodup_versionModules v) h,
    firstOf_some]

include hv40

theorem function_of_alignment {r0 c0 d : Nat} (h : AlignmentCentre (qrAlignPositions v) r0 c0) (hd : d ≤ 2)
    (hat : AtDistance d r c r0 c0) : (qrFrame v fmt).function r c = some (decide (d ≠ 1)) := by
  have hnear : Near 2 r c r0 c0 := (chebyshev_le_iff ..).mp (((atDistance_iff ..).mp hat).trans_le hd)
  have halign := alignment_reaches hv40 h hnear
  have hformat : (r, c) ∉ formatModules v := fun hmem => by have := format_reaches hmem; omega
  have hversion : (r, c) ∉ versionModules v := fun hmem => by have := version_reaches hmem; omega
  rw [function_eq, (moduleValue_format_eq_none_iff ..).mpr hformat, (moduleValue_version_eq_none_iff ..).mpr hversion, firstOf_none,
    firstOf_none, qrAlignment_of_atDistance hv40 h hd hat, firstOf_some]

theorem function_of_finder {p : Nat × Nat} {d : Nat} (hv : 1 ≤ v) (hp : p ∈ finderCentres (17 + 4 * v)) (hd : d ≤ 4)
    (hat : AtDistance d r c p.1 p.2) : (qrFrame v fmt).function r c = some (decide (d ≠ 2 ∧ d ≠ 4)) := by
  have hfinder := finder_reaches hp ((chebyshev_le_iff ..).mp (((atDistance_iff ..).mp hat).trans_le hd))
  have hformat : (r, c) ∉ formatModules v := fun hmem => by have := format_reaches hmem; omega
  have hversion : (r, c) ∉ versionModules v := fun hmem => by have := version_reaches hmem; omega
  have halign : ∀ r0 c0, AlignmentCentre (qrAlignPositions v) r0 c0 → ¬ Near 2 r c r0 c0 := fun r0 c0 hcentre hnear => by
    have := alignment_reaches hv40 hcentre hnear
    omega
  rw [function_eq, (moduleValue_format_eq_none_iff ..).mpr hformat, (moduleValue_version_eq_none_iff ..).mpr hversion,
    (qrAlignment_eq_none_iff ..).mpr halign, firstOf_none, firstOf_none, firstOf_none, qrFinder_of_atDistance hv hp hd hat, firstOf_some]

/-- Where an alignment pattern covers row 6 or column 6 it has the timing value (R294). -/
theorem alignment_on_timing {r0 c0 : Nat} (hsix : r = 6 ∨ c = 6) (h : AlignmentCentre (qrAlignPositions v) r0 c0)
    (hnear : Near 2 r c r0 c0) : chebyshev r c r0 c0 ≠ 1 ↔ (r + c) % 2 = 0 := by
  obtain ⟨⟨hr0, -⟩, ⟨hc0, -⟩, hplace⟩ := alignmentCentre_place hv40 h
  obtain rfl | rfl := hsix
  · obtain rfl : r0 = 6 := by omega
    rw [chebyshev_row, absDiff_ne_one_iff hc0 (by omega)]
    omega
  · obtain rfl : c0 = 6 := by omega
    rw [chebyshev_column, absDiff_ne_one_iff hr0 (by omega)]
    omega

theorem function_on_timing (hsix : r = 6 ∨ c = 6) (hfinder : ∀ p ∈ finderCentres (17 + 4 * v), ¬ Near 4 r c p.1 p.2) :
    (qrFrame v fmt).function r c = some (decide ((r + c) % 2 = 0)) := by
  have hformat : (r, c) ∉ formatModules v := fun hmem => by have := format_reaches hmem; omega
  have hversion : (r, c) ∉ versionModules v := fun hmem => by have := version_reaches hmem; omega
  rw [function_eq, (moduleValue_format_eq_none_iff ..).mpr hformat, (moduleValue_version_eq_none_iff ..).mpr hversion, firstOf_none,
    firstOf_none, (qrFinder_eq_none_iff ..).mpr hfinder, firstOf_none, qrTiming_of_six hsix]
  by_cases halign : ∃ r0 c0, AlignmentCentre (qrAlignPositions v) r0 c0 ∧ Near 2 r c r0 c0
  · obtain ⟨r0, c0, hcentre, hnear⟩ := halign
    rw [qrAlignment_of_atDistance hv40 hcentre ((chebyshev_le_iff ..).mpr hnear) ((atDistance_iff ..).mpr rfl), firstOf_some]
    exact congrArg some (decide_eq_decide.mpr (alignment_on_timing hv40 hsix hcentre hnear))
  · rw [(qrAlignment_eq_none_iff ..).mpr fun r0 c0 hcentre hnear => halign ⟨r0, c0, hcentre, hnear⟩, firstOf_none]

end

end Sys2Proof.Machine
end

section
/-! The zig-zag of the placement (45_layout_qr.md R302): its column pairs by their number, and the visits in their order. -/

namespace Sys2Proof.Machine

open Claim (qrVisit)

/-! ### The column pairs -/

/-- The right column of a pair when `k` pairs are left to sweep, this one among them: the last three pairs are left of column 6. -/
def pairColumn (k : Nat) : Nat := if k ≤ 3 then 2 * k - 1 else 2 * k

/-- The loop over the column pairs with `k` of them left. -/
theorem qrColumnPairs_eq (k fuel : Nat) (h : k ≤ fuel) :
    qrColumnPairs fuel (if k ≤ 2 then 2 * k - 1 else 2 * k) = (List.range k).map fun p => pairColumn (k - p) := by
  induction k generalizing fuel with
  | zero => cases fuel <;> rfl
  | succ k ih =>
    obtain ⟨fuel, rfl⟩ := Nat.exists_eq_add_of_le' h
    have hright : (if (if k + 1 ≤ 2 then 2 * (k + 1) - 1 else 2 * (k + 1)) = 6 then 5
        else if k + 1 ≤ 2 then 2 * (k + 1) - 1 else 2 * (k + 1)) = pairColumn (k + 1) := by
      rw [pairColumn]
      split_ifs <;> omega
    have hnext : pairColumn (k + 1) - 2 = if k ≤ 2 then 2 * k - 1 else 2 * k := by
      rw [pairColumn]
      split_ifs <;> omega
    rw [← Nat.add_assoc, qrColumnPairs, if_pos (by split <;> omega), hright, List.range_succ_eq_map, List.map_cons, List.map_map]
    simp [Function.comp_def, hnext, ih (fuel + k) (Nat.le_add_left ..)]

/-- Every module that the placement comes to, function modules too. -/
def qrSweep (v : Nat) : List (Nat × Nat) :=
  (List.range (8 + 2 * v)).flatMap fun p => qrPairOrder (17 + 4 * v) (pairColumn (8 + 2 * v - p))

theorem path_eq (v fmt : Nat) :
    (qrFrame v fmt).path = (qrSweep v).filter fun p => ((qrFrame v fmt).function p.1 p.2).isNone := by
  have hpairs := qrColumnPairs_eq (8 + 2 * v) (17 + 4 * v) (by omega)
  rw [if_neg (by omega), show 2 * (8 + 2 * v) = 17 + 4 * v - 1 by omega] at hpairs
  have hside : (qrFrame v fmt).side = 17 + 4 * v := rfl
  rw [QrFrame.path, hside, hpairs, List.flatMap_map, qrSweep]

/-! ### A column pair -/

theorem and_two_eq_zero_iff (x : Nat) : x &&& 2 = 0 ↔ x / 2 % 2 = 0 := by
  have h := Nat.and_two_pow x 1
  rw [Nat.pow_one, Nat.testBit_eq_decide_div_mod_eq, Nat.pow_one] at h
  rw [h]
  rcases Nat.mod_two_eq_zero_or_one (x / 2) with h0 | h1
  · simp [h0]
  · simp [h1]

theorem mem_qrPairOrder {n right r c : Nat} : (r, c) ∈ qrPairOrder n right ↔ r < n ∧ (c = right ∨ c = right - 1) := by
  simp only [qrPairOrder, List.mem_flatMap, List.mem_range, List.mem_cons, List.not_mem_nil, or_false, Prod.mk.injEq, ← and_or_left]
  constructor
  · rintro ⟨i, hi, hr, hc⟩
    refine ⟨?_, hc⟩
    split at hr <;> omega
  · rintro ⟨hr, hc⟩
    by_cases hup : right + 1 &&& 2 = 0
    · exact ⟨n - 1 - r, by omega, by rw [if_pos hup]; omega, hc⟩
    · exact ⟨r, hr, by rw [if_neg hup], hc⟩

/-- The sweep comes to every module outside column 6. -/
theorem mem_qrSweep {v r c : Nat} : (r, c) ∈ qrSweep v ↔ r < 17 + 4 * v ∧ c < 17 + 4 * v ∧ c ≠ 6 := by
  simp only [qrSweep, List.mem_flatMap, List.mem_range, mem_qrPairOrder, pairColumn]
  constructor
  · rintro ⟨p, hp, hr, hc⟩
    refine ⟨hr, ?_⟩
    split at hc <;> omega
  · rintro ⟨hr, hc, hne⟩
    refine ⟨(if c < 6 then 15 + 4 * v - c else 16 + 4 * v - c) / 2, ?_, hr, ?_⟩
    · split <;> omega
    · split_ifs <;> omega

/-! ### The order of the visits -/

/-- The row that the pair number `p` comes to in its turn `i`, its right column first. -/
def pairRow (v p i : Nat) : List (Nat × Nat) :=
  let right := pairColumn (8 + 2 * v - p)
  let r := if right + 1 &&& 2 = 0 then 17 + 4 * v - 1 - i else i
  [(r, right), (r, right - 1)]

theorem qrPairOrder_eq (v p : Nat) :
    qrPairOrder (17 + 4 * v) (pairColumn (8 + 2 * v - p)) = (List.range (17 + 4 * v)).flatMap (pairRow v p) := rfl

section

variable {v p i : Nat} (hp : p < 8 + 2 * v) (hi : i < 17 + 4 * v)

include hp hi

/-- The place of the right (`j = 0`) and of the left module of a row. -/
theorem qrVisit_turn {j : Nat} (hj : j < 2) :
    qrVisit (17 + 4 * v) (if pairColumn (8 + 2 * v - p) + 1 &&& 2 = 0 then 17 + 4 * v - 1 - i else i) (pairColumn (8 + 2 * v - p) - j)
      = p * (2 * (17 + 4 * v)) + 2 * i + j := by
  have hleft : (if pairColumn (8 + 2 * v - p) - j < 6 then 17 + 4 * v - 2 - (pairColumn (8 + 2 * v - p) - j)
      else 17 + 4 * v - 1 - (pairColumn (8 + 2 * v - p) - j)) = 2 * p + j := by
    rw [pairColumn]
    split_ifs <;> omega
  have hup : pairColumn (8 + 2 * v - p) + 1 &&& 2 = 0 ↔ p % 2 = 0 := by
    rw [and_two_eq_zero_iff, pairColumn]
    split <;> omega
  have hpair : (2 * p + j) / 2 = p := by omega
  have hside : (2 * p + j) % 2 = j := by omega
  simp only [qrVisit, hleft, hup, hpair, hside]
  congr 2
  split <;> omega

theorem map_qrVisit_pairRow : (pairRow v p i).map (fun m => qrVisit (17 + 4 * v) m.1 m.2)
    = [p * (2 * (17 + 4 * v)) + 2 * i, p * (2 * (17 + 4 * v)) + 2 * i + 1] :=
  congrArg₂ (fun a b => [a, b]) (qrVisit_turn hp hi (j := 0) (by decide)) (qrVisit_turn hp hi (j := 1) (by decide))

theorem qrVisit_of_mem_pairRow {m : Nat × Nat} (hm : m ∈ pairRow v p i) :
    p * (2 * (17 + 4 * v)) + 2 * i ≤ qrVisit (17 + 4 * v) m.1 m.2
      ∧ qrVisit (17 + 4 * v) m.1 m.2 ≤ p * (2 * (17 + 4 * v)) + 2 * i + 1 := by
  have hvisit := List.mem_map_of_mem (f := fun m => qrVisit (17 + 4 * v) m.1 m.2) hm
  rw [map_qrVisit_pairRow hp hi, List.mem_pair] at hvisit
  omega

end

/-- The modules of the pair number `p` have the places from `2 p N` to `2 (p + 1) N`. -/
theorem qrVisit_of_mem_pair {v p : Nat} (hp : p < 8 + 2 * v) {m : Nat × Nat}
    (hm : m ∈ qrPairOrder (17 + 4 * v) (pairColumn (8 + 2 * v - p))) :
    p * (2 * (17 + 4 * v)) ≤ qrVisit (17 + 4 * v) m.1 m.2 ∧ qrVisit (17 + 4 * v) m.1 m.2 < (p + 1) * (2 * (17 + 4 * v)) := by
  obtain ⟨i, hi, hm⟩ := List.mem_flatMap.mp hm
  rw [List.mem_range] at hi
  have := qrVisit_of_mem_pairRow hp hi hm
  rw [Nat.add_one_mul p]
  omega

/-- The sweep comes to the modules in the order of their places: in a row, from row to row, and from pair to pair. -/
theorem pairwise_qrSweep (v : Nat) :
    (qrSweep v).Pairwise fun a b => qrVisit (17 + 4 * v) a.1 a.2 < qrVisit (17 + 4 * v) b.1 b.2 := by
  refine List.pairwise_flatMap.mpr ⟨fun p hp => qrPairOrder_eq v p ▸ List.pairwise_flatMap.mpr ⟨fun i hi => ?inRow, ?rows⟩, ?pairs⟩
  case inRow =>
    rw [← List.pairwise_map (f := fun m : Nat × Nat => qrVisit (17 + 4 * v) m.1 m.2) (R := (· < ·)),
      map_qrVisit_pairRow (List.mem_range.mp hp) (List.mem_range.mp hi)]
    exact List.pairwise_pair.mpr (Nat.lt_succ_self _)
  case rows =>
    refine List.pairwise_lt_range.imp_of_mem fun {i i'} hi hi' hlt a ha b hb => ?_
    rw [List.mem_range] at hp hi hi'
    have := qrVisit_of_mem_pairRow hp hi ha
    have := qrVisit_of_mem_pairRow hp hi' hb
    omega
  case pairs =>
    refine List.pairwise_lt_range.imp_of_mem fun {p p'} hp hp' hlt a ha b hb => ?_
    calc qrVisit (17 + 4 * v) a.1 a.2 < (p + 1) * (2 * (17 + 4 * v)) := (qrVisit_of_mem_pair (List.mem_range.mp hp) ha).2
      _ ≤ p' * (2 * (17 + 4 * v)) := Nat.mul_le_mul_right _ hlt
      _ ≤ qrVisit (17 + 4 * v) b.1 b.2 := (qrVisit_of_mem_pair (List.mem_range.mp hp') hb).1

/-! ### The placement's path -/

theorem mem_path {v fmt r c : Nat} :
    (r, c) ∈ (qrFrame v fmt).path ↔ r < 17 + 4 * v ∧ c < 17 + 4 * v ∧ (qrFrame v fmt).function r c = none := by
  rw [path_eq, List.mem_filter, mem_qrSweep, Option.isNone_iff_eq_none]
  constructor
  · rintro ⟨⟨hr, hc, -⟩, hdata⟩
    exact ⟨hr, hc, hdata⟩
  · rintro ⟨hr, hc, hdata⟩
    obtain ⟨-, -, -, -, -, hsix⟩ := (function_eq_none_iff ..).mp hdata
    exact ⟨⟨hr, hc, hsix⟩, hdata⟩

theorem pairwise_path (v fmt : Nat) :
    (qrFrame v fmt).path.Pairwise fun a b => qrVisit (17 + 4 * v) a.1 a.2 < qrVisit (17 + 4 * v) b.1 b.2 :=
  path_eq v fmt ▸ (pairwise_qrSweep v).filter _

theorem nodup_path (v fmt : Nat) : (qrFrame v fmt).path.Nodup :=
  (pairwise_path v fmt).imp fun hlt heq => hlt.ne (by rw [heq])

end Sys2Proof.Machine
end

section
/-! The number of data modules (45_layout_qr.md R301): the function modules as disjoint boxes and lists, counted. -/

namespace Sys2Proof.Machine

open Claim (Near finderCentres AlignmentCentre qrModules)

/-! ### The lines of the alignment patterns -/

/-- The alignment coordinates behind the first, up to `top`. -/
def alignCoordinates (v top : Nat) : Finset Nat := ((qrAlignPositions v).filter fun y => decide (6 < y ∧ y ≤ top)).toFinset

/-- The rows (and the columns) of the alignment patterns centred there. -/
def alignLines (v top : Nat) : Finset Nat := (alignCoordinates v top).biUnion fun y => Finset.Icc (y - 2) (y + 2)

theorem mem_alignCoordinates {v top y : Nat} (hv : v ≤ 40) :
    y ∈ alignCoordinates v top ↔ y ∈ qrAlignPositions v ∧ 18 ≤ y ∧ y ≤ top := by
  rw [alignCoordinates, List.mem_toFinset, List.mem_filter, decide_eq_true_eq]
  refine and_congr_right fun hy => ?_
  have := alignPositions_range v hv y hy
  omega

theorem mem_alignLines {v top x : Nat} (hv : v ≤ 40) :
    x ∈ alignLines v top ↔ ∃ y ∈ qrAlignPositions v, (18 ≤ y ∧ y ≤ top) ∧ x ≤ y + 2 ∧ y ≤ x + 2 := by
  simp only [alignLines, Finset.mem_biUnion, mem_alignCoordinates hv, Finset.mem_Icc, and_assoc]
  refine exists_congr fun y => and_congr_right fun hy => ?_
  omega

theorem alignLines_reach {v top x : Nat} (hv : v ≤ 40) (h : x ∈ alignLines v top) :
    16 ≤ x ∧ x ≤ top + 2 := by
  obtain ⟨y, hy, hrange, hnear⟩ := (mem_alignLines hv).mp h
  omega

/-- Each coordinate has five lines of its own. -/
theorem card_alignLines {v : Nat} (hv : v ≤ 40) (top : Nat) : (alignLines v top).card = 5 * (alignCoordinates v top).card := by
  rw [alignLines, Finset.card_biUnion, Finset.sum_const_nat (m := 5), Nat.mul_comm]
  · intro y hy
    obtain ⟨-, hlow, -⟩ := (mem_alignCoordinates hv).mp hy
    rw [Nat.card_Icc]
    omega
  · intro y hy z hz hne
    obtain ⟨hy, -⟩ := (mem_alignCoordinates hv).mp hy
    obtain ⟨hz, -⟩ := (mem_alignCoordinates hv).mp hz
    have := alignPositions_apart v hv y hy z hz
    have := alignPositions_apart v hv z hz y hy
    refine Finset.disjoint_left.mpr fun x => ?_
    simp only [Finset.mem_Icc]
    omega

theorem card_alignCoordinates : ∀ v, 1 ≤ v → v ≤ 40 → (alignCoordinates v (4 * v - 6)).card = v / 7
    ∧ (alignCoordinates v (10 + 4 * v)).card = if 2 ≤ v then v / 7 + 1 else 0 := by
  decide +kernel

/-! ### The patterns as sets -/

/-- The finders with their separators. -/
def finderBoxes (v : Nat) : Finset (Nat × Nat) :=
  Finset.range 8 ×ˢ (Finset.range 8 ∪ Finset.Ico (9 + 4 * v) (17 + 4 * v)) ∪ Finset.Ico (9 + 4 * v) (17 + 4 * v) ×ˢ Finset.range 8

/-- The timing patterns between the finders. -/
def timingBoxes (v : Nat) : Finset (Nat × Nat) := {6} ×ˢ Finset.Ico 8 (9 + 4 * v) ∪ Finset.Ico 8 (9 + 4 * v) ×ˢ {6}

/-- The alignment patterns beside the timing patterns: those centred in row 6, in column 6, and in neither. -/
def alignBoxes (v : Nat) : Finset (Nat × Nat) :=
  {4, 5, 7, 8} ×ˢ alignLines v (4 * v - 6) ∪ alignLines v (4 * v - 6) ×ˢ {4, 5, 7, 8}
    ∪ alignLines v (10 + 4 * v) ×ˢ alignLines v (10 + 4 * v)

/-- The function modules of a version. -/
def functionModules (v : Nat) : Finset (Nat × Nat) :=
  finderBoxes v ∪ timingBoxes v ∪ alignBoxes v ∪ (versionModules v).toFinset ∪ (formatModules v).toFinset

theorem mem_finderBoxes {v r c : Nat} : (r, c) ∈ finderBoxes v
    ↔ r < 8 ∧ (c < 8 ∨ 9 + 4 * v ≤ c ∧ c < 17 + 4 * v) ∨ (9 + 4 * v ≤ r ∧ r < 17 + 4 * v) ∧ c < 8 := by
  simp only [finderBoxes, Finset.mem_union, Finset.mem_product, Finset.mem_range, Finset.mem_Ico]

theorem mem_finderBoxes_iff_near {v r c : Nat} (hr : r < 17 + 4 * v) (hc : c < 17 + 4 * v) :
    (r, c) ∈ finderBoxes v ↔ ∃ p ∈ finderCentres (17 + 4 * v), Near 4 r c p.1 p.2 := by
  simp only [mem_finderBoxes, finderCentres, List.mem_cons, List.not_mem_nil, or_false, exists_eq_or_imp, exists_eq_left]
  omega

theorem mem_timingBoxes {v r c : Nat} :
    (r, c) ∈ timingBoxes v ↔ r = 6 ∧ 8 ≤ c ∧ c < 9 + 4 * v ∨ c = 6 ∧ 8 ≤ r ∧ r < 9 + 4 * v := by
  simp only [timingBoxes, Finset.mem_union, Finset.mem_product, Finset.mem_singleton, Finset.mem_Ico]
  omega

theorem mem_alignBoxes {v r c : Nat} (hv : v ≤ 40) : (r, c) ∈ alignBoxes v
    ↔ (r ≠ 6 ∧ c ≠ 6) ∧ ∃ r0 c0, AlignmentCentre (qrAlignPositions v) r0 c0 ∧ Near 2 r c r0 c0 := by
  have hfour (x : Nat) : x ∈ ({4, 5, 7, 8} : Finset Nat) ↔ x ≠ 6 ∧ 4 ≤ x ∧ x ≤ 8 := by
    simp only [Finset.mem_insert, Finset.mem_singleton]
    omega
  simp only [alignBoxes, Finset.mem_union, Finset.mem_product, hfour, mem_alignLines hv, alignmentCentre_iff hv]
  constructor
  · rintro ((⟨hr, y, hy, hrange, hnear⟩ | ⟨⟨y, hy, hrange, hnear⟩, hc⟩) | ⟨⟨x, hx, hxrange, hxnear⟩, y, hy, hyrange, hynear⟩)
    · obtain ⟨hsix, -⟩ := alignPositions_ends v hv y hy
      exact ⟨by omega, 6, y, ⟨⟨hsix, hy⟩, by omega⟩, by omega⟩
    · obtain ⟨hsix, -⟩ := alignPositions_ends v hv y hy
      exact ⟨by omega, y, 6, ⟨⟨hy, hsix⟩, by omega⟩, by omega⟩
    · exact ⟨by omega, x, y, ⟨⟨hx, hy⟩, by omega⟩, by omega⟩
  · rintro ⟨⟨hr, hc⟩, r0, c0, ⟨⟨hr0, hc0⟩, hplace⟩, hnear⟩
    have := alignPositions_range v hv r0 hr0
    have := alignPositions_range v hv c0 hc0
    obtain ⟨hrow, hlow, hhigh⟩ | ⟨hcol, hlow, hhigh⟩ | ⟨hrow, hcol⟩ := hplace
    · exact .inl (.inl ⟨by omega, c0, hc0, by omega, by omega⟩)
    · exact .inl (.inr ⟨⟨r0, hr0, by omega, by omega⟩, by omega⟩)
    · exact .inr ⟨⟨r0, hr0, by omega, by omega⟩, c0, hc0, by omega, by omega⟩

theorem alignBoxes_reach {v r c : Nat} (hv : v ≤ 40) (h : (r, c) ∈ alignBoxes v) : (r ≠ 6 ∧ c ≠ 6) ∧ AlignmentArea v r c := by
  obtain ⟨hoff, r0, c0, hcentre, hnear⟩ := (mem_alignBoxes hv).mp h
  exact ⟨hoff, alignment_reaches hv hcentre hnear⟩

/-! ### They are the function modules -/

/-- The modules of a symbol. -/
def symbolModules (v : Nat) : Finset (Nat × Nat) := Finset.range (17 + 4 * v) ×ˢ Finset.range (17 + 4 * v)

theorem mem_symbolModules {v r c : Nat} : (r, c) ∈ symbolModules v ↔ r < 17 + 4 * v ∧ c < 17 + 4 * v := by
  rw [symbolModules, Finset.mem_product, Finset.mem_range, Finset.mem_range]

theorem function_eq_none_iff_notMem {v fmt r c : Nat} (hv : v ≤ 40) (hr : r < 17 + 4 * v) (hc : c < 17 + 4 * v) :
    (qrFrame v fmt).function r c = none ↔ (r, c) ∉ functionModules v := by
  have htiming : (r, c) ∈ finderBoxes v ∨ (r, c) ∈ timingBoxes v ↔ (r, c) ∈ finderBoxes v ∨ (r = 6 ∨ c = 6) := by
    rw [mem_finderBoxes, mem_timingBoxes]
    omega
  have hreached : (qrFrame v fmt).function r c = none ↔ ¬ (((((r, c) ∈ finderBoxes v ∨ (r = 6 ∨ c = 6))
      ∨ ∃ r0 c0, AlignmentCentre (qrAlignPositions v) r0 c0 ∧ Near 2 r c r0 c0) ∨ (r, c) ∈ versionModules v)
      ∨ (r, c) ∈ formatModules v) := by
    simp only [function_eq_none_iff, mem_finderBoxes_iff_near hr hc, not_or, not_exists, not_and, ne_eq]
    tauto
  rw [hreached, not_iff_not, functionModules]
  simp only [Finset.mem_union, List.mem_toFinset, htiming, mem_alignBoxes hv]
  by_cases hsix : r = 6 ∨ c = 6
  · simp [hsix]
  · simp [not_or.mp hsix]

theorem functionModules_subset {v : Nat} (hv1 : 1 ≤ v) (hv : v ≤ 40) : functionModules v ⊆ symbolModules v := by
  rintro ⟨r, c⟩ h
  rw [mem_symbolModules]
  simp only [functionModules, Finset.mem_union, List.mem_toFinset] at h
  obtain (((h | h) | h) | h) | h := h
  · rw [mem_finderBoxes] at h
    omega
  · rw [mem_timingBoxes] at h
    omega
  · have := alignBoxes_reach hv h
    omega
  · have := version_reaches h
    omega
  · have := format_reaches h
    omega

/-! ### Their number -/

/-- Sets that reach different modules are disjoint. -/
theorem disjoint_of_reaches {s t : Finset (Nat × Nat)} {P Q : Nat → Nat → Prop} (hs : ∀ r c, (r, c) ∈ s → P r c)
    (ht : ∀ r c, (r, c) ∈ t → Q r c) (h : ∀ r c, P r c → ¬ Q r c) : Disjoint s t :=
  Finset.disjoint_left.mpr fun ⟨r, c⟩ hmem hmem' => h r c (hs r c hmem) (ht r c hmem')

theorem reaches_union {s t : Finset (Nat × Nat)} {P Q : Nat → Nat → Prop} (hs : ∀ r c, (r, c) ∈ s → P r c)
    (ht : ∀ r c, (r, c) ∈ t → Q r c) (r c : Nat) (h : (r, c) ∈ s ∪ t) : P r c ∨ Q r c :=
  (Finset.mem_union.mp h).imp (hs r c) (ht r c)

theorem card_finderBoxes (v : Nat) : (finderBoxes v).card = 192 := by
  have hcorners : Disjoint (Finset.range 8) (Finset.Ico (9 + 4 * v) (17 + 4 * v)) :=
    Finset.disjoint_left.mpr fun x => by
      rw [Finset.mem_range, Finset.mem_Ico]
      omega
  rw [finderBoxes, Finset.card_union_of_disjoint (Finset.disjoint_product.mpr (.inl hcorners)), Finset.card_product, Finset.card_product,
    Finset.card_union_of_disjoint hcorners, Finset.card_range, Nat.card_Ico]
  omega

theorem card_timingBoxes (v : Nat) : (timingBoxes v).card = 2 * (1 + 4 * v) := by
  have hline : Disjoint {6} (Finset.Ico 8 (9 + 4 * v)) := by simp
  rw [timingBoxes, Finset.card_union_of_disjoint (Finset.disjoint_product.mpr (.inl hline)), Finset.card_product, Finset.card_product,
    Finset.card_singleton, Nat.card_Ico]
  omega

theorem card_alignBoxes {v : Nat} (hv1 : 1 ≤ v) (hv : v ≤ 40) :
    (alignBoxes v).card = 40 * (v / 7) + if 2 ≤ v then 25 * (v / 7 + 1) ^ 2 else 0 := by
  have hbeside (top : Nat) : Disjoint ({4, 5, 7, 8} : Finset Nat) (alignLines v top) := Finset.disjoint_left.mpr fun x hx hlines => by
    have := alignLines_reach hv hlines
    simp only [Finset.mem_insert, Finset.mem_singleton] at hx
    omega
  obtain ⟨hinner, hall⟩ := card_alignCoordinates v hv1 hv
  rw [alignBoxes, Finset.card_union_of_disjoint, Finset.card_union_of_disjoint (Finset.disjoint_product.mpr (.inl (hbeside _))),
    Finset.card_product, Finset.card_product, Finset.card_product, card_alignLines hv, card_alignLines hv, hinner, hall]
  · have hfour : ({4, 5, 7, 8} : Finset Nat).card = 4 := rfl
    rw [hfour]
    split <;> ring
  · exact Finset.disjoint_union_left.mpr ⟨Finset.disjoint_product.mpr (.inl (hbeside _)), Finset.disjoint_product.mpr (.inr (hbeside _))⟩

theorem length_versionModules (v : Nat) : (versionModules v).length = if 7 ≤ v then 36 else 0 := by
  split
  · next hv => simp [versionModules_eq hv]
  · next hv => simp [versionModules, qrVersionModules, Nat.lt_of_not_le hv]

theorem card_functionModules {v : Nat} (hv1 : 1 ≤ v) (hv : v ≤ 40) : (functionModules v).card
    = 192 + 2 * (1 + 4 * v) + (40 * (v / 7) + if 2 ≤ v then 25 * (v / 7 + 1) ^ 2 else 0) + (if 7 ≤ v then 36 else 0) + 31 := by
  have hfinder (r c : Nat) (h : (r, c) ∈ finderBoxes v) := mem_finderBoxes.mp h
  have htiming (r c : Nat) (h : (r, c) ∈ timingBoxes v) := mem_timingBoxes.mp h
  have halign (r c : Nat) (h : (r, c) ∈ alignBoxes v) := alignBoxes_reach hv h
  have hversion (r c : Nat) (h : (r, c) ∈ (versionModules v).toFinset) := version_reaches (List.mem_toFinset.mp h)
  have hformat (r c : Nat) (h : (r, c) ∈ (formatModules v).toFinset) := format_reaches (List.mem_toFinset.mp h)
  have hlines := reaches_union hfinder htiming
  have hpatterns := reaches_union hlines halign
  have hblocks := reaches_union hpatterns hversion
  rw [functionModules, Finset.card_union_of_disjoint (disjoint_of_reaches hblocks hformat (by omega)),
    Finset.card_union_of_disjoint (disjoint_of_reaches hpatterns hversion (by omega)),
    Finset.card_union_of_disjoint (disjoint_of_reaches hlines halign (by omega)),
    Finset.card_union_of_disjoint (disjoint_of_reaches hfinder htiming (by omega)), card_finderBoxes, card_timingBoxes,
    card_alignBoxes hv1 hv, List.toFinset_card_of_nodup (nodup_versionModules v), List.toFinset_card_of_nodup (nodup_formatModules hv1),
    length_versionModules]
  rfl

/-- The rest of the symbol has `M(V)` modules. -/
theorem side_sq_sub_functionModules : ∀ v, 1 ≤ v → v ≤ 40 → (17 + 4 * v) * (17 + 4 * v) - (192 + 2 * (1 + 4 * v)
    + (40 * (v / 7) + if 2 ≤ v then 25 * (v / 7 + 1) ^ 2 else 0) + (if 7 ≤ v then 36 else 0) + 31) = qrModules v := by
  decide

/-- The data modules of a symbol. -/
def dataModules (v fmt : Nat) : Finset (Nat × Nat) := (symbolModules v).filter fun p => (qrFrame v fmt).function p.1 p.2 = none

theorem mem_dataModules {v fmt r c : Nat} :
    (r, c) ∈ dataModules v fmt ↔ r < 17 + 4 * v ∧ c < 17 + 4 * v ∧ (qrFrame v fmt).function r c = none := by
  rw [dataModules, Finset.mem_filter, mem_symbolModules, and_assoc]

theorem card_dataModules {v : Nat} (hv1 : 1 ≤ v) (hv : v ≤ 40) (fmt : Nat) : (dataModules v fmt).card = qrModules v := by
  have hdiff : dataModules v fmt = symbolModules v \ functionModules v := by
    ext ⟨r, c⟩
    rw [mem_dataModules, Finset.mem_sdiff, mem_symbolModules, and_assoc]
    exact and_congr_right fun hr => and_congr_right fun hc => function_eq_none_iff_notMem hv hr hc
  rw [hdiff, Finset.card_sdiff_of_subset (functionModules_subset hv1 hv), card_functionModules hv1 hv, symbolModules, Finset.card_product,
    Finset.card_range, side_sq_sub_functionModules v hv1 hv]

theorem length_path {v : Nat} (hv1 : 1 ≤ v) (hv : v ≤ 40) (fmt : Nat) : (qrFrame v fmt).path.length = qrModules v := by
  have hpath : (qrFrame v fmt).path.toFinset = dataModules v fmt := by
    ext ⟨r, c⟩
    rw [List.mem_toFinset, mem_path, mem_dataModules]
  rw [← List.toFinset_card_of_nodup (nodup_path v fmt), hpath, card_dataModules hv1 hv]

/-- The data modules counted row by row. -/
theorem sum_dataModules (v fmt : Nat) : ((List.range (17 + 4 * v)).map fun r =>
      ((List.range (17 + 4 * v)).filter fun c => ((qrFrame v fmt).function r c).isNone).length).sum = (dataModules v fmt).card := by
  have hrow (r : Nat) : ((List.range (17 + 4 * v)).filter fun c => ((qrFrame v fmt).function r c).isNone).length
      = ((Finset.range (17 + 4 * v)).filter fun c => (qrFrame v fmt).function r c = none).card := by
    have hdecide (c : Nat) : ((qrFrame v fmt).function r c).isNone = decide ((qrFrame v fmt).function r c = none) := by
      rw [Bool.eq_iff_iff, Option.isNone_iff_eq_none, decide_eq_true_eq]
    simp only [hdecide]
    rfl
  simp only [hrow]
  rw [dataModules, symbolModules, Finset.card_filter, Finset.sum_product]
  simp only [← Finset.card_filter]
  rfl

end Sys2Proof.Machine
end

section
/-! The QR symbol (45_layout_qr.md R296, R302, R303, R310): the bits of the stream where the placement's path puts them, masked, and
QR_LAYOUT as two checks and a grid write. -/

namespace Sys2Proof.Machine

open Claim (HoldsCell Succeeds maskHolds qrModules)

/-! ### The placed bits -/

/-- The bit of the placement's map that a module has. -/
def moduleKey (p : Nat × Nat) : Nat := 256 * p.1 + p.2

theorem testBit_place (b : Bool) (m key x : Nat) :
    (if b = true then m ||| 1 <<< key else m).testBit x = (m.testBit x || (b && decide (x = key))) := by
  cases b
  · simp
  · simp [Nat.one_shiftLeft, Nat.testBit_two_pow, eq_comm]

/-- A module that is not visited keeps its bit. -/
theorem testBit_placeBits_of_notMem {bit : Nat → Bool} {ps : List (Nat × Nat)} {x : Nat} (hx : x ∉ ps.map moduleKey) (t m : Nat) :
    (placeBits bit t ps m).testBit x = m.testBit x := by
  induction ps generalizing t m with
  | nil => rfl
  | cons q qs ih =>
    rw [List.map_cons, List.mem_cons, not_or] at hx
    rw [placeBits, ih hx.2, testBit_place, ← moduleKey, decide_eq_false hx.1, Bool.and_false, Bool.or_false]

/-- The module of the visit number `k` has bit `t + k` of the stream. -/
theorem testBit_placeBits {bit : Nat → Bool} {ps : List (Nat × Nat)} (hps : (ps.map moduleKey).Nodup) {k : Nat} {p : Nat × Nat}
    (hp : ps[k]? = some p) (t m : Nat) (hm : m.testBit (moduleKey p) = false) :
    (placeBits bit t ps m).testBit (moduleKey p) = bit (t + k) := by
  induction ps generalizing k t m with
  | nil => cases hp
  | cons q qs ih =>
    rw [List.map_cons, List.nodup_cons] at hps
    rw [placeBits]
    cases k with
    | zero =>
      obtain rfl : q = p := Option.some.inj hp
      rw [testBit_placeBits_of_notMem hps.1, testBit_place, hm, ← moduleKey]
      simp
    | succ k =>
      rw [List.getElem?_cons_succ] at hp
      have hne : moduleKey p ≠ moduleKey q := fun heq =>
        hps.1 (heq ▸ List.mem_map_of_mem (List.mem_of_getElem? hp))
      have hkept : (if bit t = true then m ||| 1 <<< moduleKey q else m).testBit (moduleKey p) = false := by
        rw [testBit_place, hm, decide_eq_false hne, Bool.and_false, Bool.or_false]
      exact (ih hps.2 hp _ _ hkept).trans (congrArg bit (by omega))

/-- Each module of the path has a bit of its own. -/
theorem nodup_moduleKey_path {v : Nat} (hv : v ≤ 40) (fmt : Nat) : ((qrFrame v fmt).path.map moduleKey).Nodup := by
  refine (nodup_path v fmt).map_on fun ⟨r, c⟩ hp ⟨r', c'⟩ hq heq => ?_
  have := mem_path.mp hp
  have := mem_path.mp hq
  rw [moduleKey, moduleKey] at heq
  rw [Prod.mk.injEq]
  omega

/-! ### The mask (R296) -/

theorem qrMaskHolds_eq {mask : Nat} (h : mask < 8) (i j : Nat) : qrMaskHolds mask i j = decide (maskHolds mask i j) := by
  interval_cases mask <;> simp [qrMaskHolds, maskHolds]

/-! ### The modules of the symbol -/

section

variable {v fmt r c : Nat}

theorem inSymbol_qrFrame : (qrFrame v fmt).inSymbol r c = decide (r < 17 + 4 * v ∧ c < 17 + 4 * v) := (Bool.decide_and ..).symm

theorem dark_of_function {b : Bool} (mask bits : Nat) (hr : r < 17 + 4 * v) (hc : c < 17 + 4 * v)
    (h : (qrFrame v fmt).function r c = some b) :
    (qrFrame v fmt).dark mask bits r c = b ∧ (qrFrame v fmt).reserved r c = true := by
  simp [QrFrame.dark, QrFrame.reserved, inSymbol_qrFrame, hr, hc, h]

theorem dark_of_data (mask bits : Nat) (hr : r < 17 + 4 * v) (hc : c < 17 + 4 * v) (h : (qrFrame v fmt).function r c = none) :
    (qrFrame v fmt).dark mask bits r c = (bits.testBit (moduleKey (r, c)) ^^ qrMaskHolds mask r c)
      ∧ (qrFrame v fmt).reserved r c = false := by
  simp [QrFrame.dark, QrFrame.reserved, inSymbol_qrFrame, hr, hc, h, moduleKey]

theorem dark_outside_symbol (mask bits : Nat) (h : 17 + 4 * v ≤ r ∨ 17 + 4 * v ≤ c) :
    (qrFrame v fmt).dark mask bits r c = false ∧ (qrFrame v fmt).reserved r c = false := by
  have hout : (qrFrame v fmt).inSymbol r c = false := by
    rw [inSymbol_qrFrame]
    exact decide_eq_false (by omega)
  simp [QrFrame.dark, QrFrame.reserved, hout]

end

/-! ### The command -/

/-- The function patterns that a state's `QR_CFG` asks for. -/
def State.qrPatterns (s : State) : QrFrame := qrFrame s.qrVersion (qrFormatWord s.qrLevel s.qrMask)

/-- The placement's map for a state's stream. -/
def State.qrBits (s : State) (q : QrFrame) : Nat := placeBits (streamBitOr0 (s.elem .fsb) s.fsLenNat) 0 q.path 0

theorem layoutQr_eq (s : State) : s.layoutQr = s.setGrid s.qrPatterns.side s.qrPatterns.side
    (s.qrPatterns.dark s.qrMask (s.qrBits s.qrPatterns)) s.qrPatterns.reserved := rfl

/-- A completed QR_LAYOUT leaves every module of both maps as the symbol says. -/
theorem holdsCell_layoutQr (s : State) {r c : Nat} {dark reserved : Bool} (hr : r < 256) (hc : c < 256)
    (h : s.qrPatterns.dark s.qrMask (s.qrBits s.qrPatterns) r c = dark ∧ s.qrPatterns.reserved r c = reserved) :
    HoldsCell s.layoutQr.complete r c dark reserved := by
  obtain ⟨rfl, rfl⟩ := h
  rw [layoutQr_eq]
  exact holdsCell_setGrid s s.qrPatterns.side s.qrPatterns.side _ _ hr hc

/-- A data module holds its bit of the stream, masked. -/
theorem dark_of_path (s : State) {v fmt mask k r c : Nat} (hv : v ≤ 40) (hmask : mask < 8)
    (hp : (qrFrame v fmt).path[k]? = some (r, c)) :
    (qrFrame v fmt).dark mask (s.qrBits (qrFrame v fmt)) r c
        = (streamBitOr0 (s.elem .fsb) s.fsLenNat k ^^ decide (maskHolds mask r c))
      ∧ (qrFrame v fmt).reserved r c = false := by
  obtain ⟨hr, hc, hdata⟩ := mem_path.mp (List.mem_of_getElem? hp)
  have hbit := testBit_placeBits (bit := streamBitOr0 (s.elem .fsb) s.fsLenNat) (nodup_moduleKey_path hv fmt) hp 0 0 (Nat.zero_testBit _)
  rw [Nat.zero_add] at hbit
  rw [← hbit, ← qrMaskHolds_eq hmask]
  exact dark_of_data mask _ hr hc hdata

end Sys2Proof.Machine
end

section
/-! O44 to O48: the tables of the QR layout, its function modules, the placement, and the symbol (45_layout_qr.md R290 to R310). -/

namespace Sys2Proof.Proofs

open Sys2Proof.Machine Sys2Proof.Claim

/-- Settles O44: the three tables, evaluated. -/
theorem qrTables : Obligations.QrTables := ⟨by decide, by decide, by decide⟩

/-- Settles O45: each pattern gives its modules their values, no later one overwrites them, and no other module has a value. -/
theorem qrFunctionModules : Obligations.QrFunctionModules := by
  intro v fmt r c hv hv40 n value _ _
  refine ⟨fun p hp d hd => function_of_finder hv40 hv hp hd, fun r0 c0 d hcentre hd => function_of_alignment hv40 hcentre hd,
    fun hfinder => ⟨fun hr => ?row, fun hc => ?column⟩, fun k hk hplace => function_of_format hv (format_of_place hk hplace),
    fun hdark => function_of_format hv (hdark ▸ dark_mem_format v fmt),
    fun hv7 k hk hplace => function_of_version (version_of_place hv7 hk hplace), fun hfinder halign hr hc hformat hdark hversion => ?data⟩
  case row =>
    rw [show value = _ from function_on_timing hv40 (.inl hr) hfinder]
    exact congrArg some (decide_eq_decide.mpr (by omega))
  case column =>
    rw [show value = _ from function_on_timing hv40 (.inr hc) hfinder]
    exact congrArg some (decide_eq_decide.mpr (by omega))
  case data =>
    refine (function_eq_none_iff v fmt r c).mpr ⟨?_, ?_, halign, hfinder, hr, hc⟩
    · rw [mem_formatModules]
      rintro (⟨k, hk, hplace⟩ | hplace)
      · exact hformat k hk hplace
      · exact hdark hplace
    · rw [mem_versionModules]
      rintro ⟨hv7, k, hk, hplace⟩
      exact hversion hv7 k hk hplace

/-- Settles O46: the sweep comes to every module outside column 6 in the order of the places, and the path keeps its data modules. -/
theorem qrPlacementOrder : Obligations.QrPlacementOrder := fun v fmt _ _ => ⟨fun _ _ => mem_path, pairwise_path v fmt⟩

/-- Settles O47: what the function modules leave of the symbol, counted. -/
theorem qrDataModuleCount : Obligations.QrDataModuleCount := by
  have hremainder : ∀ v, 1 ≤ v → v ≤ 40 → qrModules v % 8 ∈ [0, 3, 4, 7] := by decide
  exact ⟨fun v fmt hv hv40 => ⟨(sum_dataModules v fmt).trans (card_dataModules hv hv40 fmt), length_path hv hv40 fmt,
    hremainder v hv hv40⟩, by decide⟩

/-- Settles O48: two checks, and a grid write of the symbol, module by module as the patterns and the path say. -/
theorem qrLayoutBuildsSymbol : Obligations.QrLayoutBuildsSymbol := by
  refine ⟨encoded_of_row .qrLayout fun _ => rfl, fun s => ?_⟩
  refine ends_of_command rfl (.cons (testedBy_or ..) (.cons (testedBy_or ..) .nil)) fun hpass => ?_
  have hversion : s.regs.qrCfg.version.toNat ≤ 40 := by
    have := (List.forall_mem_cons.mp hpass).1
    omega
  refine ⟨succeeds_setGrid s _ _ _ _, fun r c b hr hc hfunction => ?function, fun k r c hp => ?data,
    fun r c hr hc hout => holdsCell_layoutQr s hr hc (dark_outside_symbol _ _ hout)⟩
  case function => exact holdsCell_layoutQr s (by omega) (by omega) (dark_of_function _ _ hr hc hfunction)
  case data =>
    obtain ⟨hr, hc, -⟩ := mem_path.mp (List.mem_of_getElem? hp)
    exact holdsCell_layoutQr s (by omega) (by omega) (dark_of_path s hversion s.regs.qrCfg.mask.isLt hp)

end Sys2Proof.Proofs
end

section
/-! How a command ends, with the codes that the error table gives it (60_exceptions.md R381, R383). -/

namespace Sys2Proof.Machine

variable {i : Instr} {s t : State} {code : ErrorCode}

/-- Every meaning is a command whose checks carry codes of its row of the error table. -/
theorem exec_checks_codesOf (i : Instr) (s : State) :
    ∃ checks effect, exec i s = s.command checks effect ∧ ∀ c ∈ checks, c.2 ∈ Claim.codesOf i := by
  cases i <;> dsimp only [exec, execRsEncode, execEccQr]
  all_goals exact ⟨_, _, rfl, by simp [Claim.codesOf]⟩

/-- A command raises a code of its row and changes nothing else, or it completes. -/
theorem exec_fails_or_completes (h : exec i s = .next t) :
    (∃ code ∈ Claim.codesOf i, t = s.raiseError code) ∨ t.regs.status = s.regs.status.completed := by
  obtain ⟨checks, effect, hexec, hcodes⟩ := exec_checks_codesOf i s
  obtain ⟨code, hfail, rfl⟩ | ⟨-, rfl⟩ := command_cases (hexec.symm.trans h)
  · exact .inl ⟨code, hcodes _ (firstFailing_mem hfail), rfl⟩
  · obtain hst | ⟨code, hst⟩ := (exec_commandEnd h).status
    · exact .inr hst
    · cases congrArg Status.done hst

theorem ne_none_of_mem_codesOf (h : code ∈ Claim.codesOf i) : code ≠ .none := by
  rintro rfl
  cases i <;> simp [Claim.codesOf] at h

end Sys2Proof.Machine
end

section
/-! The buffers as the invariant wants them (10_state.md R37, R58): a rule for each operation of the state, and from them that every
command keeps them so. -/

namespace Sys2Proof.Machine

/-- The memory and its undefined bits are in their canonical form, and the bit stream fits its buffer. -/
structure State.BuffersWf (s : State) : Prop where
  mem : s.mem.wf = true
  holes : s.mem.holesWf s.holes = true
  bsLen : s.bsLenNat ≤ 32768

theorem isBufferOffset_base_add (b : Buffer) {k : Nat} (hk : k < b.size) : isBufferOffset (b.base + k) = true := by
  have hin := holds_base_add b hk
  cases b <;> simp [isBufferOffset, hin]

namespace State.BuffersWf

variable {s t : State}

/-- A register write, `BS_LEN` apart, leaves the buffers alone. -/
theorem congr (h : s.BuffersWf) (hmem : t.mem = s.mem) (hholes : t.holes = s.holes) (hlen : t.regs.bsLen = s.regs.bsLen) :
    t.BuffersWf :=
  ⟨hmem ▸ h.mem, hmem ▸ hholes ▸ h.holes, by rw [bsLenNat, hlen]; exact h.bsLen⟩

theorem writeBytes (h : s.BuffersWf) {off : Nat} {bytes : List Byte} (hin : ∀ k, k < bytes.length → isBufferOffset (off + k) = true) :
    (s.writeBytes off bytes).BuffersWf :=
  have ⟨hmem, hholes⟩ := wf_writeBytes h.mem h.holes hin
  ⟨hmem, hholes, h.bsLen⟩

/-- A write of consecutive elements of one buffer. -/
theorem writeElems (h : s.BuffersWf) (b : Buffer) (k : Nat) {bytes : List Byte} (hsize : k + bytes.length ≤ b.size) :
    (s.writeBytes (b.base + k) bytes).BuffersWf :=
  h.writeBytes fun j hj => by
    rw [Nat.add_assoc]
    exact isBufferOffset_base_add b (by omega)

/-- A write from the start of a buffer. -/
theorem writeBuffer (h : s.BuffersWf) (b : Buffer) {bytes : List Byte} (hsize : bytes.length ≤ b.size) :
    (s.writeBytes b.base bytes).BuffersWf :=
  h.writeElems b 0 (by omega)

theorem writeStrided (h : s.BuffersWf) {stride pos : Nat} {bytes : List Byte} (hin : ∀ j, j < bytes.length → pos + j * stride < 4096) :
    (State.writeStrided stride pos bytes s).BuffersWf := by
  induction bytes generalizing pos s with
  | nil => exact h
  | cons b bytes ih =>
    rw [List.length_cons] at hin
    have hfirst := hin 0 (by omega)
    refine ih (h.writeElems .fsb pos (bytes := [b]) (show pos + 1 ≤ 4096 by omega)) fun j hj => ?_
    have hnext := hin (j + 1) (by omega)
    rw [Nat.succ_mul] at hnext
    omega

theorem appendBit (h : s.BuffersWf) (b : Bool) (hlen : s.bsLenNat < 32768) : (s.appendBit b).BuffersWf := by
  obtain ⟨hmem, hholes, -⟩ := h.writeElems .bsb (s.bsLenNat / 8)
    (bytes := [setBit (s.elem .bsb (s.bsLenNat / 8)) (7 - s.bsLenNat % 8) b]) (show s.bsLenNat / 8 + 1 ≤ 4096 by omega)
  exact ⟨hmem, hholes, by rw [appendBit_bsLen s b hlen]; omega⟩

theorem appendAll (h : s.BuffersWf) {bits : List Bool} (hlen : s.bsLenNat + bits.length ≤ 32768) : (s.appendAll bits).BuffersWf := by
  induction bits generalizing s with
  | nil => exact h
  | cons b bits ih =>
    rw [List.length_cons] at hlen
    exact ih (h.appendBit b (by omega)) (by rw [appendBit_bsLen s b (by omega)]; omega)

theorem setGen (h : s.BuffersWf) (f : GField) {n : Nat} (hn : n < 256) : (s.setGen f n).BuffersWf :=
  have hgen := h.writeBuffer .gen (bytes := genPoly f n ++ List.replicate (255 - n) 0) (by simp [Buffer.size]; omega)
  hgen.congr rfl rfl rfl

theorem setGrid (h : s.BuffersWf) (rows cols : Nat) (grid resv : Nat → Nat → Bool) : (s.setGrid rows cols grid resv).BuffersWf :=
  have hgrid := h.writeBuffer .grid (bytes := packMap grid) (by rw [packMap_length, Buffer.size])
  have hresv := hgrid.writeBuffer .resv (bytes := packMap resv) (by rw [packMap_length, Buffer.size])
  hresv.congr rfl rfl rfl

/-- ECC_DM and ECC_QR write a final stream to `FSB`, its length and the generator. -/
theorem writeFinalStream (h : s.BuffersWf) {bytes : List Byte} {len n : Nat} (hlen : bytes.length ≤ 4096) (f : GField) (hn : n < 256) :
    (((s.writeBytes Buffer.fsb.base bytes).setFsLen len).setGen f n).BuffersWf :=
  have hstream := h.writeBuffer .fsb (bytes := bytes) hlen
  have hlength : ((s.writeBytes Buffer.fsb.base bytes).setFsLen len).BuffersWf := hstream.congr rfl rfl rfl
  hlength.setGen f hn

/-- Making bits undefined keeps the buffers well formed. -/
theorem abandon (h : s.BuffersWf) (set : Nat → Byte) : (s.abandon set).BuffersWf :=
  have ⟨hmem, hholes⟩ := wf_abandon h.mem set
  ⟨hmem, hholes, h.bsLen⟩

theorem abandonRunning (h : s.BuffersWf) : s.abandonRunning.BuffersWf := by
  unfold State.abandonRunning
  split
  · exact h.abandon _
  · exact h

end State.BuffersWf

/-! ### Commands -/

variable {i : Instr} {s t : State}

/-- A command keeps the buffers well formed if its effect does where no check fails. -/
theorem command_buffersWf (hs : s.BuffersWf) {checks : List (Bool × ErrorCode)} {effect : State → State}
    (h : s.command checks effect = .next t) (heffect : (∀ c ∈ checks, c.1 = false) → (effect s).BuffersWf) : t.BuffersWf := by
  obtain ⟨code, -, rfl⟩ | ⟨hnone, rfl⟩ := command_cases h
  · exact hs.congr rfl rfl rfl
  · exact (heffect ((firstFailing_eq_none checks).mp hnone)).congr rfl rfl rfl

theorem exec_bsAppend_buffersWf {w : Nat} (hs : s.BuffersWf) (h : exec (.bsAppend w) s = .next t) : t.BuffersWf := by
  rw [exec_bsAppend] at h
  refine command_buffersWf hs h fun hpass => hs.appendAll ?_
  simp only [List.forall_mem_cons, decide_eq_false_iff_not, not_lt] at hpass
  obtain ⟨-, -, hcap, -⟩ := hpass
  rwa [bitsOf_length]

theorem exec_bsAppendBytes_buffersWf {count : Nat} (hs : s.BuffersWf) (h : exec (.bsAppendBytes count) s = .next t) : t.BuffersWf := by
  rw [exec_bsAppendBytes] at h
  refine command_buffersWf hs h fun hpass => hs.appendAll ?_
  simp only [List.forall_mem_cons, decide_eq_false_iff_not, not_lt] at hpass
  obtain ⟨-, hcap, -⟩ := hpass
  rwa [bitsOfBytes_length, sourceBytes_length]

theorem exec_bsPadQr_buffersWf (hs : s.BuffersWf) (h : exec .bsPadQr s = .next t) : t.BuffersWf := by
  rw [exec_bsPadQr] at h
  refine command_buffersWf hs h fun hpass => ?_
  simp only [List.forall_mem_cons, Bool.or_eq_false_iff, decide_eq_false_iff_not, not_lt, ne_eq, not_not] at hpass
  obtain ⟨⟨h8, hcap⟩, hle, -⟩ := hpass
  rw [padQr_eq_appendAll h8 hcap hle]
  exact hs.appendAll (by rw [padQrBits_length h8 hle]; omega)

/-- BS_TO_CW writes at most 4096 codewords, since the stream fits its buffer. -/
theorem exec_bsToCw_buffersWf (hs : s.BuffersWf) (h : exec .bsToCw s = .next t) : t.BuffersWf := by
  rw [exec_bsToCw] at h
  refine command_buffersWf hs h fun _ => ?_
  have hlen := hs.bsLen
  have hbytes := hs.writeBuffer .cwb (bytes := s.elems .bsb (List.range (s.bsLenNat / 8))) (by
    rw [elems_length, List.length_range, Buffer.size]
    omega)
  exact hbytes.congr rfl rfl rfl

theorem exec_cwPadDm_buffersWf {n : Nat} (hs : s.BuffersWf) (h : exec (.cwPadDm n) s = .next t) : t.BuffersWf := by
  rw [exec_cwPadDm] at h
  refine command_buffersWf hs h fun hpass => ?_
  simp only [List.forall_mem_cons, decide_eq_false_iff_not, not_lt] at hpass
  obtain ⟨htarget, hle, -⟩ := hpass
  have hbytes := hs.writeElems .cwb s.cwLenNat (bytes := dmPadding s.cwLenNat n) (by
    rw [dmPadding_length, Buffer.size]
    omega)
  exact hbytes.congr rfl rfl rfl

theorem exec_rsEncode_buffersWf {l n : Nat} (hn : n < 256) (hs : s.BuffersWf) (h : exec (.rsEncode l n) s = .next t) :
    t.BuffersWf := by
  rw [exec_rsEncode] at h
  refine command_buffersWf hs h fun hpass => (hs.writeStrided fun j hj => ?_).setGen _ hn
  simp only [List.forall_mem_cons, Bool.or_eq_false_iff, decide_eq_false_iff_not, not_lt] at hpass
  obtain ⟨⟨⟨⟨⟨⟨⟨-, hpos⟩, -⟩, -⟩, -⟩, -⟩, hlast⟩, -⟩ := hpass
  rw [rsEcc_length _ _ _ (by omega)] at hj
  have hle : j * Claim.field s.regs.arg1 16 8 ≤ (n - 1) * Claim.field s.regs.arg1 16 8 := Nat.mul_le_mul_right _ (by omega)
  omega

theorem exec_eccDm_buffersWf (hs : s.BuffersWf) (h : exec .eccDm s = .next t) : t.BuffersWf := by
  rw [exec_eccDm] at h
  refine command_buffersWf hs h fun hpass => ?_
  simp only [List.forall_mem_cons, decide_eq_false_iff_not, not_lt, ne_eq, not_not] at hpass
  obtain ⟨-, hsize, hmod, hdeg, -, -⟩ := hpass
  exact hs.writeFinalStream ((dmStream_length hmod).trans_le hsize) _ (by omega)

theorem exec_eccQr_buffersWf (hs : s.BuffersWf) (h : exec .eccQr s = .next t) : t.BuffersWf := by
  rw [exec_eccQr] at h
  refine command_buffersWf hs h fun hpass => ?_
  simp only [List.forall_mem_cons, decide_eq_false_iff_not, not_lt] at hpass
  obtain ⟨-, -, -, hsize, -⟩ := hpass
  exact hs.writeFinalStream ((qrStream_length s).trans_le hsize) _ s.regs.qrEcc.isLt

/-- Every well-formed command keeps the buffers well formed. -/
theorem exec_buffersWf (hwf : i.wf = true) (hs : s.BuffersWf) (h : exec i s = .next t) : t.BuffersWf := by
  cases i <;> dsimp only [exec] at h
  case nop => exact command_buffersWf hs h fun _ => hs
  case gridClear | qrLayout => exact command_buffersWf hs h fun _ => hs.setGrid _ _ _ _
  case bsClear =>
    have hbytes := hs.writeBuffer .bsb (bytes := List.replicate 4096 0) (by rw [List.length_replicate, Buffer.size])
    exact command_buffersWf hs h fun _ => ⟨hbytes.mem, hbytes.holes, Nat.zero_le _⟩
  case bsAppend => exact exec_bsAppend_buffersWf hs h
  case bsAppendBytes => exact exec_bsAppendBytes_buffersWf hs h
  case bsPadQr => exact exec_bsPadQr_buffersWf hs h
  case bsToCw => exact exec_bsToCw_buffersWf hs h
  case cwPadDm => exact exec_cwPadDm_buffersWf hs h
  case gfAdd | gfMul | gfDiv | gfInv | gfExp | gfLog => exact command_buffersWf hs h fun _ => hs.congr rfl rfl rfl
  case rsGenpoly => exact command_buffersWf hs h fun _ => hs.setGen _ (by simpa [Instr.wf] using hwf)
  case rsEncode =>
    simp only [Instr.wf, Bool.and_eq_true, decide_eq_true_eq] at hwf
    exact exec_rsEncode_buffersWf hwf.2 hs h
  case eccDm => exact exec_eccDm_buffersWf hs h
  case eccQr => exact exec_eccQr_buffersWf hs h
  case dmLayout =>
    refine command_buffersWf hs h fun _ => ?_
    cases s.dmEntry with
    | none => exact hs
    | some g => exact hs.setGrid _ _ _ _

end Sys2Proof.Machine
end

section
/-! Everything a host access can do beside its response, said once (20_memory.md R88; 70_reset_and_hazards.md R430, R431). -/

namespace Sys2Proof.Machine

/-- What a host access can make of a state, its response left out. -/
inductive AccessEffect (s : State) : State → Prop
  | unchanged : AccessEffect s s
  | start (w : Word) (hidle : s.regs.status.busy = false) : AccessEffect s (s.start w)
  | softReset : AccessEffect s s.softReset
  | setCtrl (c : Ctrl) : AccessEffect s { s with regs := { s.regs with ctrl := c } }
  | acknowledge (v : Word) : AccessEffect s (s.acknowledge v)
  | overrun : AccessEffect s { s with regs := { s.regs with status := s.regs.status.overrun } }
  | store (r : Reg) (v : Word) : AccessEffect s { s with regs := s.regs.store r v }
  | writeBytes (off : Nat) (n : Width) (v : Word) (hal : off % n.bytes = 0) (hwr : Claim.inWritable off) :
      AccessEffect s (s.writeBytes off (writeData v n))

variable {s u : State}

theorem writeCtrl_effect (s : State) (v : Word) : AccessEffect s (s.writeCtrl v) := by
  cases hv : v.getLsbD 1 with
  | false =>
    rw [writeCtrl_of_no_reset hv]
    exact .setCtrl _
  | true =>
    rw [writeCtrl_of_reset hv]
    exact .softReset

theorem writeReg_effect (s : State) (r : Reg) (v : Word) : AccessEffect s (s.writeReg r v) := by
  cases hbusy : s.regs.status.busy with
  | false =>
    rw [writeReg_idle hbusy]
    cases r with
    | cmd => exact .start v hbusy
    | ctrl => exact writeCtrl_effect s v
    | status => exact .acknowledge v
    | _ => exact .store _ v
  | true =>
    rw [writeReg_busy hbusy]
    cases r with
    | ctrl => exact writeCtrl_effect s v
    | status => exact .acknowledge v
    | _ => exact .overrun

theorem busWrite_effect (s : State) (off : Nat) (n : Width) (v : Word) : AccessEffect s (s.busWrite off n v) := by
  unfold State.busWrite
  split
  · exact .unchanged
  · next hacc =>
    split
    · exact writeReg_effect s _ v
    · split
      · exact .overrun
      · split
        · next hwr =>
          have hgood := (busError_eq_false_iff off n).mp (by simpa using hacc)
          exact .writeBytes off n v (by_contra fun hal => hgood (.inr (.inl hal))) ((isWritableBuffer_iff off).mp hwr)
        · exact .unchanged

/-- A host access has one of the effects, and leaves its response. -/
theorem access_effect (s : State) (a : BusAccess) : ∃ u resp, AccessEffect s u ∧ s.access a = { u with resp := resp } := by
  cases a with
  | read off n => exact ⟨s, _, .unchanged, rfl⟩
  | write off n v => exact ⟨_, _, busWrite_effect s off n v, rfl⟩

/-- No host access touches what the host does next. -/
theorem AccessEffect.host (h : AccessEffect s u) : u.host = s.host := by
  cases h with
  | softReset => exact s.softReset_host
  | _ => rfl

theorem access_host (s : State) (a : BusAccess) : (s.access a).host = s.host := by
  obtain ⟨u, resp, heffect, hu⟩ := access_effect s a
  rw [hu]
  exact heffect.host

theorem isBufferOffset_of_inWritable {off : Nat} (h : Claim.inWritable off) : isBufferOffset off = true := by
  simp only [isBufferOffset, Bool.or_eq_true, holds_iff, Buffer.base, Buffer.size]
  omega

/-- An aligned access that starts in the writable windows stays in them, since they end on a word. -/
theorem inWritable_add {off k : Nat} {n : Width} (hwr : Claim.inWritable off) (hal : off % n.bytes = 0) (hk : k < n.bytes) :
    Claim.inWritable (off + k) := by
  cases n <;> simp only [Width.bytes] at hal hk <;> omega

/-- The host cannot store to `BS_LEN` (10_state.md R37). -/
theorem store_bsLen (g : Regs) (r : Reg) (v : Word) : (g.store r v).bsLen = g.bsLen := by cases r <;> rfl

/-- Every host access keeps the buffers well formed. -/
theorem AccessEffect.buffersWf (h : AccessEffect s u) (hs : s.BuffersWf) : u.BuffersWf := by
  cases h with
  | unchanged => exact hs
  | softReset => exact ⟨hs.abandonRunning.mem, hs.abandonRunning.holes, Nat.zero_le _⟩
  | store r v => exact hs.congr rfl rfl (store_bsLen _ r v)
  | writeBytes off n v hal hwr =>
    exact hs.writeBytes fun k hk => isBufferOffset_of_inWritable (inWritable_add hwr hal (by rwa [writeData_length] at hk))
  | _ => exact hs.congr rfl rfl rfl

end Sys2Proof.Machine
end

section
/-! `STATUS` and `PENDING` as the invariant wants them (60_exceptions.md R384, 10_state.md R33, R34), and that every step keeps the
invariant. -/

namespace Sys2Proof.Machine

variable {s t u : State} {w : Word}

/-! ### `STATUS` -/

namespace Status

variable {st : Status}

theorem started_consistent (st : Status) (w : Word) : (st.started w).Consistent :=
  ⟨nofun, fun _ => ⟨rfl, rfl⟩, by simp⟩

/-- A command completes from a running state, where `ERR` is 0. -/
theorem Consistent.completed (h : st.Consistent) (hbusy : st.busy = true) : st.completed.Consistent := by
  obtain ⟨-, hrun, hcode⟩ := h
  obtain ⟨-, herr⟩ := hrun hbusy
  exact ⟨by simp [herr], nofun, hcode⟩

theorem failed_consistent (st : Status) {code : ErrorCode} (hcode : code ≠ .none) : (st.failed code).Consistent :=
  ⟨nofun, nofun, by simp [hcode]⟩

/-- Clearing `ERR` clears `ERRCODE` with it. -/
theorem Consistent.acknowledged (h : st.Consistent) (v : Word) : (st.acknowledged v).Consistent := by
  obtain ⟨hboth, hrun, hcode⟩ := h
  refine ⟨?_, fun hbusy => ?_, ?_⟩
  · simp only [acknowledged_done, acknowledged_err, Bool.and_eq_true]
    rintro ⟨⟨hdone, -⟩, herr, -⟩
    exact hboth ⟨hdone, herr⟩
  · obtain ⟨hdone, herr⟩ := hrun hbusy
    simp [hdone, herr]
  · rw [acknowledged_errcode, acknowledged_err]
    cases v.getLsbD 2 with
    | false => simpa using hcode
    | true => simp

end Status

/-! ### `STATUS` with `PENDING` -/

/-- `STATUS` agrees with itself and with `PENDING`. -/
def State.StatusWf (s : State) : Prop := s.regs.status.Consistent ∧ s.PendingConsistent

theorem inv_iff (s : State) : s.Inv ↔ s.BuffersWf ∧ s.StatusWf :=
  ⟨fun ⟨hmem, hholes, hst, hp, hlen⟩ => ⟨⟨hmem, hholes, hlen⟩, hst, hp⟩,
    fun ⟨⟨hmem, hholes, hlen⟩, hst, hp⟩ => ⟨hmem, hholes, hst, hp, hlen⟩⟩

/-- With `BUSY` 0 and `PENDING` empty `STATUS` need only agree with itself. -/
theorem statusWf_of_idle (hp : s.pending = none) (hidle : s.regs.status.busy = false) (h : s.regs.status.Consistent) : s.StatusWf :=
  ⟨h, by simp [hp, hidle], by simp [hp]⟩

theorem State.StatusWf.congr (h : s.StatusWf) (hst : t.regs.status = s.regs.status) (hp : t.pending = s.pending) : t.StatusWf := by
  rwa [State.StatusWf, State.PendingConsistent, hst, hp]

theorem State.StatusWf.busy_of_pending (h : s.StatusWf) (hp : s.pending = some w) : s.regs.status.busy = true := by
  obtain ⟨-, hpend, -⟩ := h
  simpa [hp] using hpend

theorem AccessEffect.statusWf (h : AccessEffect s u) (hs : s.StatusWf) : u.StatusWf := by
  cases h with
  | start w hidle => exact ⟨Status.started_consistent _ w, by simp, by simp⟩
  | softReset => exact statusWf_of_idle rfl rfl (show Regs.reset.status.Consistent by decide)
  | acknowledge v => exact ⟨hs.1.acknowledged v, hs.2⟩
  | overrun => exact hs
  | store r v => exact hs.congr (store_status _ r v) rfl
  | _ => exact hs.congr rfl rfl

/-! ### Steps -/

theorem access_inv (h : s.Inv) (a : BusAccess) : (s.access a).Inv := by
  obtain ⟨u, resp, heffect, hu⟩ := access_effect s a
  rw [inv_iff] at h
  rw [hu]
  exact (inv_iff u).mpr ⟨heffect.buffersWf h.1, heffect.statusWf h.2⟩

/-- A command completes or fails with a code that is not NONE. -/
theorem exec_inv {i : Instr} (hwf : i.wf = true) (h : s.Inv) (hp : s.pending = some w) (hexec : exec i s = .next t) : t.Inv := by
  rw [inv_iff] at h ⊢
  obtain ⟨hbuf, hst⟩ := h
  refine ⟨exec_buffersWf hwf hbuf hexec, ?_⟩
  have hend := exec_commandEnd hexec
  refine statusWf_of_idle hend.pending hend.busy ?_
  obtain ⟨code, hcode, rfl⟩ | hdone := exec_fails_or_completes hexec
  · exact Status.failed_consistent _ (ne_none_of_mem_codesOf hcode)
  · rw [hdone]
    exact hst.1.completed (hst.busy_of_pending hp)

theorem raiseError_inv (h : s.Inv) {code : ErrorCode} (hcode : code ≠ .none) : (s.raiseError code).Inv := by
  rw [inv_iff] at h ⊢
  exact ⟨h.1.congr rfl rfl rfl, statusWf_of_idle rfl rfl (Status.failed_consistent _ hcode)⟩

theorem engineTurn_inv (h : s.Inv) (hturn : s.engineTurn = .next t) : t.Inv := by
  obtain ⟨-, rfl⟩ | ⟨w, hp, ⟨i, hd, hexec⟩ | ⟨-, rfl⟩⟩ := engineTurn_cases hturn
  · exact h
  · exact exec_inv (decode_eq_ok_iff_encode.mp hd).1 h hp hexec
  · exact raiseError_inv h nofun

theorem turn_inv (h : s.Inv) (hturn : s.turn = .next t) : t.Inv := by
  have hhost (host : List HostEvent) : ({ s with host := host } : State).Inv := h
  obtain ⟨a, rest, -, -, rfl⟩ | ⟨rest, -, -, rfl⟩ | ⟨rest, -, rfl⟩ | ⟨rest, -, hu⟩ | ⟨rest, -, -, hu⟩ := turn_cases hturn
  · exact access_inv (hhost rest) a
  · exact access_inv (hhost _) _
  · exact access_inv (hhost _) _
  · exact engineTurn_inv (hhost rest) hu
  · exact engineTurn_inv (access_inv h _) hu

end Sys2Proof.Machine
end

section
/-! What a turn needs to go on, and what it leaves of the host's list (60_exceptions.md R385, log 10). -/

namespace Sys2Proof.Machine

variable {s u : State}

theorem turn_continues (h : s.HostInWindow) : ∃ u, s.turn = .next u := by
  cases hh : s.host with
  | nil => simpa [State.turn, hh] using engineTurn_continues s
  | cons e rest =>
    cases e with
    | access a =>
      rw [State.HostInWindow, hh, List.all_cons, Bool.and_eq_true] at h
      have hoff : a.off < 0x8000 := of_decide_eq_true h.1
      exact ⟨_, by rw [State.turn, hh]; exact hostAccess_of_lt hoff _⟩
    | engine => simpa [State.turn, hh] using engineTurn_continues { s with host := rest }
    | check => exact ⟨_, by rw [State.turn, hh]⟩
    | wait =>
      cases hbusy : s.regs.status.busy with
      | false => exact ⟨_, by rw [State.turn, hh]; exact if_neg (by simp [hbusy])⟩
      | true => simpa [State.turn, hh, hbusy] using engineTurn_continues s.poll

theorem engineTurn_host (h : s.engineTurn = .next u) : u.host = s.host := by
  obtain ⟨-, rfl⟩ | ⟨w, -, ⟨i, -, hexec⟩ | ⟨-, rfl⟩⟩ := engineTurn_cases h
  · rfl
  · exact exec_host hexec
  · rfl

/-- A turn only shortens the host's list from its front. -/
theorem turn_host_suffix (h : s.turn = .next u) : u.host <:+ s.host := by
  obtain ⟨a, rest, hh, -, rfl⟩ | ⟨rest, hh, -, rfl⟩ | ⟨rest, hh, rfl⟩ | ⟨rest, hh, hu⟩ | ⟨rest, -, -, hu⟩ := turn_cases h
  · rw [access_host, hh]
    exact List.suffix_cons _ _
  · rw [State.poll, access_host, hh]
    exact List.suffix_cons _ _
  · rw [State.poll, access_host, hh]
    split
    · exact List.nil_suffix
    · exact List.suffix_cons _ _
  · rw [engineTurn_host hu]
    obtain hh | ⟨hh, rfl⟩ := hh <;> rw [hh]
    exact List.suffix_cons _ _
  · rw [engineTurn_host hu, State.poll, access_host]

end Sys2Proof.Machine
end

section
/-! O9, O11 and O15: the machine's invariant, and that no command stops it (60_exceptions.md R380 to R385). -/

namespace Sys2Proof.Proofs

open Sys2Proof.Machine

/-- Settles O9: the buffers and `STATUS` with `PENDING` are kept by every effect of a host access and by every end of a command. -/
theorem stepKeepsInvariant : Obligations.StepKeepsInvariant := by
  intro s t hinv hstep
  obtain ⟨-, rfl⟩ | ⟨-, u, hturn, rfl⟩ := step_cases hstep
  · exact hinv
  · exact turn_inv (t := u) hinv hturn

/-- Settles O11: every turn inside the window goes on, and the host's list that it leaves is a tail of the list before. -/
theorem stepNeverStops : Obligations.StepNeverStops := by
  intro s hwin
  cases hex : s.exhausted with
  | true => exact ⟨s, if_pos hex, hwin⟩
  | false =>
    obtain ⟨u, hu⟩ := turn_continues hwin
    refine ⟨u.advance, by simp [step, hex, hu, advanceResult], ?_⟩
    exact List.all_eq_true.mpr fun e he => List.all_eq_true.mp hwin e ((turn_host_suffix hu).subset he)

/-- Settles O15: the first failing check carries a code of the command's row, and without one the command completes. -/
theorem commandFailsOrCompletes : Obligations.CommandFailsOrCompletes := by
  intro i s
  obtain ⟨t, ht⟩ := exec_continues i s
  exact ⟨t, ht, (exec_fails_or_completes ht).imp_right fun hst => ⟨hst, (exec_commandEnd ht).pending⟩⟩

end Sys2Proof.Proofs
end

section
/-! A host write while a command runs (70_reset_and_hazards.md R430, 60_exceptions.md R387). -/

namespace Sys2Proof.Machine

variable {s : State} {off : Nat} {n : Width}

theorem offset_of_regAt {r : Reg} (h : regAt off = some r) : r.offset = off := by
  simpa using List.find?_some h

/-- Of the registers only `CTRL` and `STATUS` take a write then. -/
theorem writeRegBusy_dropped {r : Reg} (hctrl : r ≠ .ctrl) (hstatus : r ≠ .status) (s : State) (v : Word) :
    s.writeRegBusy r v = { s with regs := { s.regs with status := s.regs.status.overrun } } := by
  cases r with
  | ctrl => exact absurd rfl hctrl
  | status => exact absurd rfl hstatus
  | _ => rfl

/-- An accepted write at any other offset, mapped to a register or to a buffer, sets `OVR` and does nothing else. -/
theorem busWrite_dropped (hbusy : s.regs.status.busy = true) (hok : busError off n = false) (hctrl : off ≠ 0x004)
    (hstatus : off ≠ 0x008) (v : Word) :
    s.busWrite off n v = { s with regs := { s.regs with status := s.regs.status.overrun } } := by
  rw [State.busWrite, hok, if_neg (by decide), hbusy]
  split
  · next r hr =>
    obtain rfl := offset_of_regAt hr
    exact writeRegBusy_dropped (fun h => hctrl (congrArg Reg.offset h)) (fun h => hstatus (congrArg Reg.offset h)) s v
  · rfl

/-- While a command runs `DONE` and `ERR` are 0, so that an acknowledgement can clear `OVR` only. -/
theorem Status.Consistent.acknowledged_busy {st : Status} (h : st.Consistent) (hbusy : st.busy = true) (v : Word) :
    st.acknowledged v = { st with ovr := st.ovr && !v.getLsbD 3 } := by
  obtain ⟨-, hrun, hcode⟩ := h
  obtain ⟨hdone, herr⟩ := hrun hbusy
  have hnone : st.errcode = .none := by simpa [herr] using hcode
  simp [Status.acknowledged, hdone, herr, hnone]

end Sys2Proof.Machine
end

section
/-! What a soft reset leaves of the buffers (70_reset_and_hazards.md R422). -/

namespace Sys2Proof.Machine

variable {s : State}

theorem abandonRunning_of_none (h : s.running = none) : s.abandonRunning = s := by
  rw [State.abandonRunning, h]

theorem abandonRunning_of_some {i : Instr} (h : s.running = some i) :
    s.abandonRunning = s.abandon (fun off => writesBits s off i) := by
  rw [State.abandonRunning, h]

/-- A defined byte of which no bit becomes undefined stays defined. -/
theorem holds_abandon {set : Nat → Byte} {off : Nat} {b : Byte} (h : set off = 0) (hb : Claim.Holds s off b) :
    Claim.Holds (s.abandon set) off b := by
  obtain ⟨hmem, hholes⟩ := hb
  have hhole : s.holeWith set off = 0 := by rw [State.holeWith, hholes, h]; rfl
  refine ⟨?_, by rw [holes_abandon, if_pos (.inl hhole)]⟩
  rw [lookup_abandon, hhole, if_neg (by decide), hmem, Option.map_some]
  exact congrArg some BitVec.and_allOnes

/-- The line is low after it: `IE` is 0. -/
theorem irq_softReset (s : State) : s.softReset.irq = false := rfl

/-- One bit of a read after it, when a command ran: in the write set the free value, elsewhere what it was. -/
theorem getLsbD_readByte_softReset {i : Instr} (h : s.running = some i) (n off : Nat) {j : Nat} (hj : j < 8) :
    (s.softReset.readByte n off).getLsbD j
      = if (writesBits s off i).getLsbD j then (Config.freeByte s.draws n off).getLsbD j else (s.readByte n off).getLsbD j := by
  have hbytes : s.softReset.readByte n off = s.abandonRunning.readByte n off := readByte_congr rfl rfl rfl n
  rw [hbytes, abandonRunning_of_some h]
  exact getLsbD_readByte_abandon s (fun off => writesBits s off i) n off j hj

theorem holds_softReset_iff {i : Instr} (h : s.running = some i) (off : Nat) (b : Byte) :
    Claim.Holds s.softReset off b ↔ Claim.Holds (s.abandon (fun off => writesBits s off i)) off b := by
  rw [Claim.Holds, State.softReset_mem, State.softReset_holes, abandonRunning_of_some h]

end Sys2Proof.Machine
end

section
/-! Commands with the descriptors 0, as a reset leaves them (70_reset_and_hazards.md R423). -/

namespace Sys2Proof.Machine

variable {s : State}

theorem exec_eccDm_of_no_blocks (h : s.regs.dmBlk = 0) : exec .eccDm s = .next (s.raiseError .descriptorInvalid) := by
  rw [exec_eccDm]
  exact command_of_failing (by simp [firstFailing_cons, State.dmBlocks, h])

theorem exec_eccQr_of_no_blocks (h : s.regs.qrBlk = ⟨0, 0, 0, 0⟩) : exec .eccQr s = .next (s.raiseError .descriptorInvalid) := by
  rw [exec_eccQr]
  exact command_of_failing (by simp [firstFailing_cons, State.qrBlocks, h])

theorem exec_dmLayout_of_no_size (h : s.regs.dmSize = ⟨0, 0⟩) : exec .dmLayout s = .next (s.raiseError .descriptorInvalid) := by
  have hrows : ∀ g ∈ dmRom, g.rows ≠ 0 := by decide
  exact exec_dmLayout_of_none (dmEntry_eq_none fun g hg hsize => hrows g hg (by simpa [h] using hsize.1))

theorem exec_qrLayout_of_no_version (h : s.regs.qrCfg.version = 0) :
    exec .qrLayout s = .next (s.raiseError .descriptorInvalid) :=
  command_of_failing (by simp [firstFailing_cons, State.qrVersion, h])

end Sys2Proof.Machine
end

section
/-! O10 and O56 to O59: reset, soft reset, and writes while a command runs. -/

namespace Sys2Proof.Proofs

open Sys2Proof.Machine Sys2Proof.Claim

/-- Settles O10: no byte is marked, the stream is empty, and nothing runs. -/
theorem resetSatisfiesInvariant : Obligations.ResetSatisfiesInvariant :=
  (inv_iff State.reset).mpr ⟨⟨rfl, rfl, Nat.zero_le _⟩, statusWf_of_idle rfl rfl (show Regs.reset.status.Consistent by decide)⟩

/-- Settles O56: the write is dropped, or acknowledges a `STATUS` of which only `OVR` can be 1, or is a bus error. -/
theorem busyWritesAreDropped : Obligations.BusyWritesAreDropped := by
  intro s off n v hbusy hcons hwin
  have hw := writes_of_lt hwin s n v
  refine ⟨fun hok hctrl hstatus => ?_, ?_, fun hbad => ?_⟩
  · rw [← busError_eq_false_iff] at hok
    rwa [hok, busWrite_dropped hbusy hok hctrl hstatus] at hw
  · rintro rfl rfl
    have hack := writes_status s v
    rwa [State.acknowledge, hcons.acknowledged_busy hbusy] at hack
  · rw [← busError_iff] at hbad
    rwa [hbad, busWrite_of_error hbad] at hw

/-- Settles O57: the registers are those of reset, and the buffers are those after abandoning the command that ran, if one did. -/
theorem softReset : Obligations.SoftReset := by
  intro s v hsrst
  refine ⟨_, hostAccess_write_offset s .ctrl v, ?_⟩
  rw [writeReg_ctrl, writeCtrl_of_reset hsrst]
  refine ⟨rfl, rfl, irq_softReset s, s.softReset_host, s.softReset_draws, fun hno => ?_, fun w i hpend hdec => ?_⟩
  · rw [State.softReset_mem, State.softReset_holes, abandonRunning_of_none (running_eq_none hno)]
    exact ⟨rfl, rfl⟩
  · have hrun := running_eq_some hpend hdec
    exact ⟨fun n off j hj hout => (getLsbD_readByte_softReset hrun n off hj).trans (by rw [hout, if_neg (by decide)]),
      fun n off j hj hin => (getLsbD_readByte_softReset hrun n off hj).trans (if_pos hin),
      fun off hne b hb => undefined_abandon s _ off hne b ((holds_softReset_iff hrun off b).mp hb),
      fun off b h0 hb => (holds_softReset_iff hrun off b).mpr (holds_abandon h0 hb)⟩

/-- Settles O58: with nothing pending a register reads as it is, and every field of every register but `ID` is 0. -/
theorem resetValues : Obligations.ResetValues := by
  refine ⟨busRead_offset_idle rfl .id, fun off hlt hal hne => ?_, rfl, rfl, fun _ => rfl⟩
  obtain ⟨r, rfl⟩ := exists_offset_eq hlt hal
  rw [busRead_offset_idle rfl]
  cases r with
  | id => exact absurd rfl hne
  | _ => rfl

/-- Settles O59: each layout and coder command fails by its descriptor, and BS_TO_CW copies the 0 bytes of an empty stream. -/
theorem commandsAfterReset : Obligations.CommandsAfterReset := by
  intro s hreset
  have hbsLen : s.regs.bsLen = 0 := congrArg Regs.bsLen hreset
  refine ⟨exec_eccDm_of_no_blocks (congrArg Regs.dmBlk hreset), exec_eccQr_of_no_blocks (congrArg Regs.qrBlk hreset),
    exec_dmLayout_of_no_size (congrArg Regs.dmSize hreset),
    exec_qrLayout_of_no_version (congrArg (fun g => g.qrCfg.version) hreset), ?_⟩
  obtain ⟨t, hexec, hsucc, -⟩ := exec_of_ends (bsToCwCopiesStream.2 s) (by simp [hbsLen])
  obtain ⟨hregs, -, -, -, -, hbytes⟩ := hsucc
  refine ⟨t, hexec, by rw [hregs], by rw [hregs, hbsLen]; rfl, fun off => hbytes off ?_⟩
  simp [hbsLen]

end Sys2Proof.Proofs
end
